-- ==== Sys2Proof/Word.lean ====
section
/-! DEFINITION. The word types of the codec: 32-bit command words and 8-bit memory bytes. -/

namespace Sys2Proof

/-- A command word (30_encoding.md R80). -/
abbrev Word := BitVec 32

/-- A byte of a memory, or an index held in OUT_MEM (10_state.md R36). -/
abbrev Byte := BitVec 8

end Sys2Proof
end

