-- ==== Sys2Proof/Syntax.lean ====
section
/-! DEFINITION. The commands, one constructor per row of spec/opcode_table.json (30_encoding.md R82). -/

namespace Sys2Proof

/-- A decoded command with its operands. Counts, sizes and indices are naturals (00_scope.md R14); `WellFormed.lean`
says which fit their header field. The byte of BR_APPEND and the value of BW_WRITE are bits. -/
inductive Instr where
  /-- NOP (44_control.md R200). -/
  | nop
  /-- SOFT_RESET (44_control.md R201). -/
  | softReset
  /-- BW_CLEAR (40_bitstream.md R100). -/
  | bwClear
  /-- BW_WRITE n, V (40_bitstream.md R101). -/
  | bwWrite (n : Nat) (v : BitVec 64)
  /-- BR_CLEAR (40_bitstream.md R104). -/
  | brClear
  /-- BR_APPEND b (40_bitstream.md R106). -/
  | brAppend (b : Byte)
  /-- BR_AT_HEAD (40_bitstream.md R108). -/
  | brAtHead
  /-- BR_READ n (40_bitstream.md R110). -/
  | brRead (n : Nat)
  /-- ENC_BEGIN colorCount (42_lzw_encoder.md R150). -/
  | encBegin (colorCount : Nat)
  /-- ENC_PUSH index (42_lzw_encoder.md R153). -/
  | encPush (index : Nat)
  /-- ENC_FINISH (42_lzw_encoder.md R157). -/
  | encFinish
  /-- DEC_BEGIN m (43_lzw_decoder.md R170). -/
  | decBegin (m : Nat)
  /-- DEC_STEP (43_lzw_decoder.md R173). -/
  | decStep
  /-- DEC_RUN (43_lzw_decoder.md R178). -/
  | decRun
  /-- OUT_CLEAR (44_control.md R202). -/
  | outClear
  deriving DecidableEq, Repr

end Sys2Proof
end

