-- ==== Sys2Proof/WellFormed.lean ====
section
/-! DEFINITION. Which commands can be written as words: every operand fits its header field. These are the
assembler's refusals of 30_encoding.md R91 (n > 255, imm > 65535, byte > 255). A byte and a 64-bit value fit by
their types. Operands that fit but are out of range are well formed (R87). -/

namespace Sys2Proof

/-- The operand fits N = H[15:8] (30_encoding.md R81). -/
def fitsN (n : Nat) : Bool := decide (n < 256)

/-- The operand fits IMM = H[31:16] (30_encoding.md R81). -/
def fitsImm (imm : Nat) : Bool := decide (imm < 65536)

/-- Every operand of the command fits the field 30_encoding.md R82 gives it. -/
def Instr.wellFormed : Instr → Bool
  | .nop => true
  | .softReset => true
  | .bwClear => true
  | .bwWrite n _ => fitsN n
  | .brClear => true
  | .brAppend _ => true
  | .brAtHead => true
  | .brRead n => fitsN n
  | .encBegin cc => fitsImm cc
  | .encPush i => fitsImm i
  | .encFinish => true
  | .decBegin m => fitsN m
  | .decStep => true
  | .decRun => true
  | .outClear => true

end Sys2Proof
end

