-- ==== Sys2Proof/Decode.lean ====
section
/-! DEFINITION. The command encoding of 30_encoding.md: header fields, the decoder (total on any words and any
bytes, rejecting by name), the opcode table as rows, the encoder, and the assembler of R91 and R92. -/

namespace Sys2Proof

/-! ## Header fields (R81) -/

/-- OP = H[7:0]. -/
def opField (h : Word) : Byte := h.extractLsb' 0 8

/-- N = H[15:8]. -/
def nField (h : Word) : Byte := h.extractLsb' 8 8

/-- IMM = H[31:16]. -/
def immField (h : Word) : BitVec 16 := h.extractLsb' 16 16

/-- IMM[7:0] = H[23:16], the byte operand of BR_APPEND. -/
def immLowField (h : Word) : Byte := h.extractLsb' 16 8

/-- IMM[15:8] = H[31:24], which BR_APPEND requires to be zero (R83). -/
def immHighField (h : Word) : Byte := h.extractLsb' 24 8

/-- A command's length in words, by OP alone, whatever the rest of the header holds (R86). -/
def commandLen (h : Word) : Nat := if opField h = 0x11 then 3 else 1

/-- BW_WRITE's value, low word first (R84). -/
def valueOfWords (w1 w2 : Word) : BitVec 64 := w2 ++ w1

/-! ## Decoding -/

/-- Why words decode to no command. -/
inductive Reject where
  /-- The OP value is reserved (R82, R88). -/
  | reservedOp (op : Byte)
  /-- A field that must be zero is not (R83, R88). -/
  | nonzeroField
  /-- Fewer words than the command's length (R93): not illegal, only not complete. -/
  | incomplete
  deriving DecidableEq, Repr

/-- `i`, where the fields that must be zero are (R83). -/
def requireZero (fieldsAreZero : Bool) (i : Instr) : Except Reject Instr :=
  if fieldsAreZero then .ok i else .error .nonzeroField

/-- A command whose "fields used" is "none" requires N = 0 and IMM = 0 (R83). -/
def usesNone (h : Word) (i : Instr) : Except Reject Instr :=
  requireZero (decide (nField h = 0) && decide (immField h = 0)) i

/-- A command that uses N requires IMM = 0 (R83). -/
def usesN (h : Word) (i : Instr) : Except Reject Instr :=
  requireZero (decide (immField h = 0)) i

/-- A command that uses IMM requires N = 0 (R83). -/
def usesImm (h : Word) (i : Instr) : Except Reject Instr :=
  requireZero (decide (nField h = 0)) i

/-- BR_APPEND uses only IMM[7:0] (R83). -/
def usesImmLow (h : Word) (i : Instr) : Except Reject Instr :=
  requireZero (decide (nField h = 0) && decide (immHighField h = 0)) i

/-- The command a header and two data words stand for (R82, R85). A 1-word command does not look at the data words.
Operand ranges are not checked here (R87). -/
def decode (h w1 w2 : Word) : Except Reject Instr :=
  match (opField h).toNat with
  | 0x00 => usesNone h .nop
  | 0x01 => usesNone h .softReset
  | 0x10 => usesNone h .bwClear
  | 0x11 => usesN h (.bwWrite (nField h).toNat (valueOfWords w1 w2))
  | 0x20 => usesNone h .brClear
  | 0x21 => usesImmLow h (.brAppend (immLowField h))
  | 0x22 => usesNone h .brAtHead
  | 0x23 => usesN h (.brRead (nField h).toNat)
  | 0x30 => usesImm h (.encBegin (immField h).toNat)
  | 0x31 => usesImm h (.encPush (immField h).toNat)
  | 0x32 => usesNone h .encFinish
  | 0x40 => usesN h (.decBegin (nField h).toNat)
  | 0x41 => usesNone h .decStep
  | 0x42 => usesNone h .decRun
  | 0x50 => usesNone h .outClear
  | _ => .error (.reservedOp (opField h))

/-- One command's words taken from the front of a word sequence, as the header and two data words (zero for a 1-word
command), with the words after it; nothing where the command is not complete (R86, R93). -/
def splitCommand : List Word → Option ((Word × Word × Word) × List Word)
  | [] => none
  | h :: rest =>
    if commandLen h = 3 then
      match rest with
      | w1 :: w2 :: rest' => some ((h, w1, w2), rest')
      | _ => none
    else some ((h, 0, 0), rest)

/-- The command at the front of a word sequence, and the words after it. -/
def decodeWords (ws : List Word) : Except Reject (Instr × List Word) :=
  match splitCommand ws with
  | none => .error .incomplete
  | some ((h, w1, w2), rest) => (decode h w1 w2).map (fun i => (i, rest))

/-! ## The byte-wide transport (R80) -/

/-- A word from four bytes, least significant byte first. -/
def wordOfBytes (b0 b1 b2 b3 : Byte) : Word := b3 ++ b2 ++ b1 ++ b0

/-- The four bytes of a word, least significant byte first. -/
def bytesOfWord (w : Word) : List Byte :=
  [w.extractLsb' 0 8, w.extractLsb' 8 8, w.extractLsb' 16 8, w.extractLsb' 24 8]

/-- The whole words of a byte sequence; up to three bytes left over make no word. -/
def wordsOfBytes : List Byte → List Word
  | b0 :: b1 :: b2 :: b3 :: rest => wordOfBytes b0 b1 b2 b3 :: wordsOfBytes rest
  | _ => []

/-- The command at the front of a byte sequence. -/
def decodeBytes (bs : List Byte) : Except Reject Instr :=
  (decodeWords (wordsOfBytes bs)).map Prod.fst

/-! ## The opcode table as rows (R85) -/

/-- One row of the table of R85. -/
structure OpRow where
  mnemonic : String
  pattern : Word
  mask : Word
  deriving DecidableEq, Repr

/-- The table of R85, in its order. -/
def opcodeRows : List OpRow := [
  ⟨"NOP", 0x00000000, 0xFFFFFFFF⟩, ⟨"SOFT_RESET", 0x00000001, 0xFFFFFFFF⟩,
  ⟨"BW_CLEAR", 0x00000010, 0xFFFFFFFF⟩, ⟨"BW_WRITE", 0x00000011, 0xFFFF00FF⟩,
  ⟨"BR_CLEAR", 0x00000020, 0xFFFFFFFF⟩, ⟨"BR_APPEND", 0x00000021, 0xFF00FFFF⟩,
  ⟨"BR_AT_HEAD", 0x00000022, 0xFFFFFFFF⟩, ⟨"BR_READ", 0x00000023, 0xFFFF00FF⟩,
  ⟨"ENC_BEGIN", 0x00000030, 0x0000FFFF⟩, ⟨"ENC_PUSH", 0x00000031, 0x0000FFFF⟩,
  ⟨"ENC_FINISH", 0x00000032, 0xFFFFFFFF⟩, ⟨"DEC_BEGIN", 0x00000040, 0xFFFF00FF⟩,
  ⟨"DEC_STEP", 0x00000041, 0xFFFFFFFF⟩, ⟨"DEC_RUN", 0x00000042, 0xFFFFFFFF⟩,
  ⟨"OUT_CLEAR", 0x00000050, 0xFFFFFFFF⟩]

/-- A header matches a row when `(H & mask) = match` (R85). -/
def OpRow.matchesWord (r : OpRow) (h : Word) : Bool := h &&& r.mask == r.pattern

/-- The mnemonic of a command (R82). -/
def Instr.mnemonic : Instr → String
  | .nop => "NOP"
  | .softReset => "SOFT_RESET"
  | .bwClear => "BW_CLEAR"
  | .bwWrite _ _ => "BW_WRITE"
  | .brClear => "BR_CLEAR"
  | .brAppend _ => "BR_APPEND"
  | .brAtHead => "BR_AT_HEAD"
  | .brRead _ => "BR_READ"
  | .encBegin _ => "ENC_BEGIN"
  | .encPush _ => "ENC_PUSH"
  | .encFinish => "ENC_FINISH"
  | .decBegin _ => "DEC_BEGIN"
  | .decStep => "DEC_STEP"
  | .decRun => "DEC_RUN"
  | .outClear => "OUT_CLEAR"

/-! ## Encoding -/

/-- The OP value of a command (R82). -/
def Instr.opcode : Instr → Byte
  | .nop => 0x00
  | .softReset => 0x01
  | .bwClear => 0x10
  | .bwWrite _ _ => 0x11
  | .brClear => 0x20
  | .brAppend _ => 0x21
  | .brAtHead => 0x22
  | .brRead _ => 0x23
  | .encBegin _ => 0x30
  | .encPush _ => 0x31
  | .encFinish => 0x32
  | .decBegin _ => 0x40
  | .decStep => 0x41
  | .decRun => 0x42
  | .outClear => 0x50

/-- The N field of a command's header (R82, R83). -/
def Instr.nOperand : Instr → Nat
  | .bwWrite n _ => n
  | .brRead n => n
  | .decBegin m => m
  | .nop | .softReset | .bwClear | .brClear | .brAppend _ | .brAtHead | .encBegin _ | .encPush _ | .encFinish
  | .decStep | .decRun | .outClear => 0

/-- The IMM field of a command's header (R82, R83). -/
def Instr.immOperand : Instr → Nat
  | .brAppend b => b.toNat
  | .encBegin cc => cc
  | .encPush i => i
  | .nop | .softReset | .bwClear | .bwWrite _ _ | .brClear | .brAtHead | .brRead _ | .encFinish | .decBegin _
  | .decStep | .decRun | .outClear => 0

/-- The data words after a command's header (R84). -/
def Instr.dataWords : Instr → List Word
  | .bwWrite _ v => [v.extractLsb' 0 32, v.extractLsb' 32 32]
  | .nop | .softReset | .bwClear | .brClear | .brAppend _ | .brAtHead | .brRead _ | .encBegin _ | .encPush _
  | .encFinish | .decBegin _ | .decStep | .decRun | .outClear => []

/-- The header `OP | n << 8 | imm << 16` (R91), for operands that fit their fields. -/
def headerWord (op : Byte) (n imm : Nat) : Word :=
  BitVec.ofNat 16 imm ++ BitVec.ofNat 8 n ++ op

/-- The words of a command (R91). -/
def encode (i : Instr) : List Word :=
  headerWord i.opcode i.nOperand i.immOperand :: i.dataWords

/-- The words of a command on the byte-wide transport (R80). -/
def encodeBytes (i : Instr) : List Byte := (encode i).flatMap bytesOfWord

/-! ## The assembler (R91, R92)

DESIGN CHOICE (log 15): a line is taken after its text is parsed, as a mnemonic with natural operands. -/

/-- An assembler line: a command of R91 or a pseudo-command of R92. -/
inductive AsmLine where
  | nop
  | softReset
  | bwClear
  | bwWrite (n value : Nat)
  | brClear
  | brAppend (byte : Nat)
  | brAtHead
  | brRead (n : Nat)
  | encBegin (colorCount : Nat)
  | encPush (index : Nat)
  | encFinish
  | decBegin (m : Nat)
  | decStep
  | decRun
  | outClear
  /-- `BR_LOAD b0, …, bk`: BR_CLEAR, then one BR_APPEND a byte. -/
  | brLoad (bytes : List Nat)
  /-- `ENC_ALL cc, i0, …, ik`: ENC_BEGIN, one ENC_PUSH an index, ENC_FINISH. -/
  | encAll (colorCount : Nat) (indices : List Nat)
  /-- `DECODE m`: OUT_CLEAR, DEC_BEGIN m, DEC_RUN. -/
  | decodeAll (m : Nat)
  deriving DecidableEq, Repr

/-- `i`, where its operands fit their fields; the assembler refuses others (R91). -/
def asmChecked (i : Instr) : Option Instr := if i.wellFormed then some i else none

/-- BR_APPEND with a byte operand; refused above 255 (R91). -/
def asmAppend (byte : Nat) : Option Instr :=
  if byte < 256 then some (.brAppend (BitVec.ofNat 8 byte)) else none

/-- Every item present, or nothing: one refused operand refuses the line. -/
def allSome {α : Type} : List (Option α) → Option (List α)
  | [] => some []
  | none :: _ => none
  | some x :: rest => (allSome rest).map (x :: ·)

/-- The commands a line stands for (R92). DESIGN CHOICE (log 18): BR_LOAD may have no bytes and ENC_ALL no indices; R92
does not say whether they may. -/
def AsmLine.commands : AsmLine → Option (List Instr)
  | .nop => some [.nop]
  | .softReset => some [.softReset]
  | .bwClear => some [.bwClear]
  | .bwWrite n value =>
    if value < 2 ^ 64 then allSome [asmChecked (.bwWrite n (BitVec.ofNat 64 value))] else none
  | .brClear => some [.brClear]
  | .brAppend byte => allSome [asmAppend byte]
  | .brAtHead => some [.brAtHead]
  | .brRead n => allSome [asmChecked (.brRead n)]
  | .encBegin cc => allSome [asmChecked (.encBegin cc)]
  | .encPush i => allSome [asmChecked (.encPush i)]
  | .encFinish => some [.encFinish]
  | .decBegin m => allSome [asmChecked (.decBegin m)]
  | .decStep => some [.decStep]
  | .decRun => some [.decRun]
  | .outClear => some [.outClear]
  | .brLoad bytes => allSome (some .brClear :: bytes.map asmAppend)
  | .encAll cc is =>
    allSome (asmChecked (.encBegin cc) :: is.map (fun i => asmChecked (.encPush i)) ++ [some .encFinish])
  | .decodeAll m => allSome [some .outClear, asmChecked (.decBegin m), some .decRun]

/-- The words the assembler emits for a line, where it refuses no operand (R91). -/
def AsmLine.assemble (l : AsmLine) : Option (List Word) :=
  l.commands.map (fun is => is.flatMap encode)

/-! ## The host's table words -/

/-- The words of the instruction whose bits are `w`, numbered from bit 0 of the first word, with every bit from
`nbits` up zero: as many words as the command is long (R86). -/
def tableWords (nbits w : Nat) : List Word :=
  let bits := w % 2 ^ nbits
  let h := BitVec.ofNat 32 bits
  if commandLen h = 3 then [h, BitVec.ofNat 32 (bits >>> 32), BitVec.ofNat 32 (bits >>> 64)] else [h]

/-- The instruction the decoder reads from those words. -/
def decodeTableWord (nbits w : Nat) : Option Instr :=
  match decodeWords (tableWords nbits w) with
  | .ok (i, _) => some i
  | .error _ => none

end Sys2Proof
end

