-- ==== Sys2Proof/Config.lean ====
section
/-! DEFINITION. What an implementation fixes: the constants and parameters of 00_scope.md R6 to R13, and the one
free value of the model. -/

namespace Sys2Proof

/-- `WORD_BITS`, the largest bit count of BW_WRITE and BR_READ (R6). -/
def wordBits : Nat := 64

/-- `MAX_CODE_SIZE`, the largest code width (R7). -/
def maxCodeSize : Nat := 12

/-- `ENC_RESET_COUNT`, the count at which the encoder resets instead of adding (R8). -/
def encResetCount : Nat := 4095

/-- `DEC_TABLE_LIMIT`, the decoder's largest count (R9). -/
def decTableLimit : Nat := 4096

/-- The parameters the spec leaves open and says a model takes as an argument.
`none` as a capacity is `UNBOUNDED` (R11). DESIGN CHOICE (log 2): `Machine.State` carries them, so that a statement
about every state is a statement about every choice of them. -/
structure Config where
  /-- `P_FINISH_GROWTH`: whether ENC_FINISH grows the width before the end-of-information code (R10). -/
  finishGrowth : Bool
  /-- `BW_CAP`, bytes. -/
  bwCap : Option Nat
  /-- `BR_CAP`, bytes. -/
  brCap : Option Nat
  /-- `OUT_CAP`, indices. -/
  outCap : Option Nat
  deriving DecidableEq, Repr

/-- The defaults the spec gives: `P_FINISH_GROWTH = 1` (R10), every capacity `UNBOUNDED` (R11). -/
def Config.default : Config :=
  { finishGrowth := true, bwCap := none, brCap := none, outCap := none }

/-- FREE VALUE (log 5): the code `EncCodeOf` gives a sequence that is neither a one-index sequence nor a key of
ENC_TABLE. 41_lzw_table.md R139 defines `EncCodeOf` for no such sequence, and no run reaches one. -/
opaque Config.freeCode : List Nat → Nat

end Sys2Proof
end

