-- ==== Sys2Proof/Machine/State.lean ====
section
/-! DEFINITION. All the state the spec gives the block (10_state.md), the two fields the model adds, and reset. -/

namespace Sys2Proof.Machine

/-! ## Codes and session states -/

/-- The six faults (60_exceptions.md R211): programmer errors, sticky. -/
inductive FaultCode where
  /-- F_ILLEGAL. -/
  | illegal
  /-- F_WIDTH. -/
  | width
  /-- F_STATE. -/
  | state
  /-- F_COLOR_COUNT. -/
  | colorCount
  /-- F_INDEX. -/
  | index
  /-- F_OVERFLOW. -/
  | overflow
  deriving DecidableEq, Repr

/-- The four errors (60_exceptions.md R211): properties of the data. -/
inductive ErrorCode where
  /-- E_TRUNCATED. -/
  | truncated
  /-- E_NO_PREVIOUS. -/
  | noPrevious
  /-- E_EMPTY_SEQUENCE. -/
  | emptySequence
  /-- E_MIN_CODE_SIZE. -/
  | minCodeSize
  deriving DecidableEq, Repr

/-- A result code, of one of four kinds (60_exceptions.md R210, R211); no other value is ever held by LAST_RESULT,
FAULT_CODE or DEC_ERR. `Flags.lean` gives their 8-bit values. -/
inductive ResultCode where
  | ok
  | fault (f : FaultCode)
  | error (e : ErrorCode)
  /-- E_FAULTED: the command was rejected. -/
  | faulted
  deriving DecidableEq, Repr

/-- ENC_STATE (10_state.md R26). -/
inductive EncState where
  | idle
  | active
  | finished
  deriving DecidableEq, Repr

/-- DEC_STATE (10_state.md R26). -/
inductive DecState where
  | idle
  | active
  | done
  | error
  deriving DecidableEq, Repr

/-! ## Memories -/

/-- One of the three memories (10_state.md R36): its length, and the bytes below it that differ from
`Memory.unlisted`, by rising address. `Ops.lean` holds its operations and `Memory.wf`, its canonical form (log 4). -/
structure Memory where
  len : Nat
  cells : List Host.Cell
  deriving DecidableEq, Repr

/-- The empty memory, every memory's reset value (10_state.md R36). -/
def Memory.empty : Memory := { len := 0, cells := [] }

/-! ## The units -/

/-- The bit writer BW (10_state.md R29). BW_LEN is `mem.len`. -/
structure BitWriter where
  mem : Memory
  bitpos : Nat
  deriving DecidableEq, Repr

/-- The bit reader BR (10_state.md R30). BR_LEN is `mem.len`. -/
structure BitReader where
  mem : Memory
  bitpos : Nat
  deriving DecidableEq, Repr

/-- The encoder ENC (10_state.md R26, R31, R37, R39). -/
structure Encoder where
  state : EncState
  colorCount : Nat
  min : Nat
  cs : Nat
  count : Nat
  /-- ENC_TABLE: keys with their codes, in the order the codes were assigned. -/
  table : List (List Nat × Nat)
  buf : List Nat
  deriving DecidableEq, Repr

/-- DEC_PREV (10_state.md R34). -/
structure PrevCode where
  valid : Bool
  code : BitVec 12
  deriving DecidableEq, Repr

/-- The decoder DEC (10_state.md R26, R33, R34, R38). -/
structure Decoder where
  state : DecState
  err : ResultCode
  min : Nat
  cs : Nat
  count : Nat
  /-- DEC_TABLE: codes with their sequences, by rising code. -/
  table : List (Nat × List Nat)
  prev : PrevCode
  deriving DecidableEq, Repr

/-- What the core has received of a 3-word command that is not complete (10_state.md R40, 30_encoding.md R93). -/
inductive PartCommand where
  | none
  | header (h : Word)
  | headerData (h w1 : Word)
  deriving DecidableEq, Repr

end Sys2Proof.Machine

namespace Sys2Proof.Machine

/-- The block's state, with two fields of the model's own: `cfg` (log 2) and `cmdPort` (log 1). -/
structure State where
  /-- MODEL'S OWN: the parameters of 00_scope.md R10 and R11; nothing changes them. -/
  cfg : Config
  /-- MODEL'S OWN: the words the host has sent and the core has not taken, oldest first. -/
  cmdPort : List Word
  /-- The partly received command (10_state.md R40). -/
  partCmd : PartCommand
  /-- CP (R21). -/
  cp : BitVec 32
  /-- STATUS.FAULT (R27). -/
  fault : Bool
  /-- FAULT_CODE (R27). -/
  faultCode : ResultCode
  /-- LAST_RESULT (R25). -/
  lastResult : ResultCode
  /-- RESULT (R28). -/
  result : BitVec 64
  bw : BitWriter
  br : BitReader
  enc : Encoder
  dec : Decoder
  /-- OUT_MEM (R35). OUT_LEN is `out.len`. -/
  out : Memory
  deriving DecidableEq, Repr

/-! ## Reset (70_reset_and_hazards.md R240) -/

/-- BW at reset. -/
def BitWriter.reset : BitWriter := { mem := Memory.empty, bitpos := 0 }

/-- BR at reset. -/
def BitReader.reset : BitReader := { mem := Memory.empty, bitpos := 0 }

/-- ENC at reset. -/
def Encoder.reset : Encoder :=
  { state := .idle, colorCount := 0, min := 0, cs := 0, count := 0, table := [], buf := [] }

/-- DEC_PREV = (0, 0). -/
def PrevCode.invalid : PrevCode := { valid := false, code := 0 }

/-- DEC at reset. -/
def Decoder.reset : Decoder :=
  { state := .idle, err := .ok, min := 0, cs := 0, count := 0, table := [], prev := PrevCode.invalid }

/-- The machine right after a hardware reset, with the given parameters, which reset does not change. -/
def State.resetWith (cfg : Config) : State :=
  { cfg := cfg, cmdPort := [], partCmd := .none, cp := 0, fault := false, faultCode := .ok, lastResult := .ok,
    result := 0, bw := BitWriter.reset, br := BitReader.reset, enc := Encoder.reset, dec := Decoder.reset,
    out := Memory.empty }

/-- The machine right after reset, with the spec's default parameters. -/
def State.reset : State := State.resetWith Config.default

/-! ## Stops -/

/-- The one reason a step stops. The spec's own faults are no stops: they are NEXT states with FAULT = 1
(60_exceptions.md R213). -/
inductive Fault where
  /-- Raised by `execDecRun` alone, where DEC_RUN's loop has not ended after more steps than any session that the
  spec's commands can reach takes (43_lzw_decoder.md R180), as with DEC_STATE = ACTIVE and DEC_CS = 0, when the
  loop of R178 never ends. No run reaches such a state (log 7). Safe. -/
  | decRunUnending
  deriving DecidableEq, Repr

/-- The reasons a command is refused. -/
inductive Refusal where
  /-- Raised by an arm of `exec` whose command has no meaning yet; there is no such arm. Safe. -/
  | notModelled (mnemonic : String)
  deriving DecidableEq, Repr

/-- The outcome of a command or a step. -/
abbrev Result := Host.Outcome State Fault Refusal

end Sys2Proof.Machine
end

