-- ==== Sys2Proof/Machine/Ops.lean ====
section
/-! DEFINITION. The shared operations: arithmetic of 00_scope.md R14, the memories and the bit primitives of
20_memory.md, the writes of each register, and how a command ends: completion, fault entry (60_exceptions.md R213),
the error primitives (R216), the rejection while a fault is pending (R214), and fault exit (R215). -/

namespace Sys2Proof.Machine

/-! ## Arithmetic (00_scope.md R14) -/

/-- `ceil_div(a, b) = floor((a + b - 1) / b)`. -/
def ceilDiv (a b : Nat) : Nat := (a + b - 1) / b

/-- The least `w ≥ from` with `2^w ≥ x`, looked for in `fuel` steps. -/
def ceilLog2From (x : Nat) : Nat → Nat → Nat
  | 0, w => w
  | fuel + 1, w => if x ≤ 2 ^ w then w else ceilLog2From x fuel (w + 1)

/-- `ceil_log2(x)`: the least `w ≥ 0` with `2^w ≥ x`. -/
def ceilLog2 (x : Nat) : Nat := ceilLog2From x x 0

/-! ## Memories (20_memory.md R68) -/

/-- What an offset with no entry reads as: WriteBits grows a memory by zero bytes (R61), and a read past the length
returns 0 (R68). -/
def Memory.unlisted : Byte := 0

/-- The byte listed at an address. -/
def cellsRead : List Host.Cell → Nat → Byte
  | [], _ => Memory.unlisted
  | (k, b) :: rest, a => if k = a then b else cellsRead rest a

/-- The cells with the byte at an address replaced, in canonical form. -/
def cellsWrite : List Host.Cell → Nat → Byte → List Host.Cell
  | [], a, b => if b = Memory.unlisted then [] else [(a, b)]
  | (k, c) :: rest, a, b =>
    if a < k then
      if b = Memory.unlisted then (k, c) :: rest else (a, b) :: (k, c) :: rest
    else if a = k then
      if b = Memory.unlisted then rest else (a, b) :: rest
    else (k, c) :: cellsWrite rest a b

/-- Addresses strictly rise from `lo` and stay below `len`, and no byte listed is the unlisted one. -/
def cellsWf (lo len : Nat) : List Host.Cell → Bool
  | [] => true
  | (k, b) :: rest =>
    decide (lo ≤ k) && decide (k < len) && decide (b ≠ Memory.unlisted) && cellsWf (k + 1) len rest

/-- The canonical form: equal memories are equal data. -/
def Memory.wf (m : Memory) : Bool := cellsWf 0 m.len m.cells

/-- `MemRead(M, a, 1)`: the byte at offset `a < len(M)`, and 0 otherwise (R68). -/
def Memory.read (m : Memory) (a : Nat) : Byte := if a < m.len then cellsRead m.cells a else 0

/-- `MemWrite(M, a, 1, b)` at an offset below the length; no command writes at any other (00_scope.md R16). -/
def Memory.write (m : Memory) (a : Nat) (b : Byte) : Memory :=
  if a < m.len then { m with cells := cellsWrite m.cells a b } else m

/-- `M ++ [b]`. -/
def Memory.append (m : Memory) (b : Byte) : Memory :=
  { len := m.len + 1, cells := cellsWrite m.cells m.len b }

/-- `M ++ s` for a sequence of indices, element 0 first (R76). An index is held in 8 bits (10_state.md R35). -/
def Memory.appendIndices (m : Memory) : List Nat → Memory
  | [] => m
  | i :: rest => (m.append (BitVec.ofNat 8 i)).appendIndices rest

/-- The elements of a memory in order. -/
def Memory.toList (m : Memory) : List Byte := (List.range m.len).map m.read

/-- The bit at a position: bit `p mod 8` of byte `p >> 3`, bit 0 the least significant (R60). -/
def Memory.bit (m : Memory) (p : Nat) : Bool := (m.read (p / 8)).getLsbD (p % 8)

/-- Whether a memory may have this many elements (R69). -/
def withinCap (cap : Option Nat) (len : Nat) : Bool :=
  match cap with
  | none => true
  | some c => decide (len ≤ c)

/-! ## Bit primitives (20_memory.md R61, R62) -/

/-- One round of WriteBits's loop: grow by a zero byte where the position is past the end, then OR the bit in. -/
def Memory.orBit (m : Memory) (p : Nat) (b : Bool) : Memory :=
  let m := if p / 8 = m.len then m.append 0 else m
  m.write (p / 8) (m.read (p / 8) ||| ((BitVec.ofBool b).setWidth 8 <<< (p % 8)))

/-- WriteBits's loop: bit `v[j]` to position `p + j`, for `j` in `0 .. n-1` in that order. -/
def Memory.orBits (m : Memory) (p v : Nat) : Nat → Memory
  | 0 => m
  | n + 1 => (m.orBits p v n).orBit (p + n) (v.testBit n)

/-- `WriteBits(v, n)` (R61). The caller has checked the capacity. -/
def BitWriter.writeBits (w : BitWriter) (v n : Nat) : BitWriter :=
  { mem := w.mem.orBits w.bitpos v n, bitpos := w.bitpos + n }

/-- PeekBits's loop: the bits at `p .. p+n-1`, the first one lowest. -/
def Memory.bitsAt (m : Memory) (p : Nat) : Nat → Nat
  | 0 => 0
  | n + 1 => m.bitsAt p n ||| ((m.bit (p + n)).toNat <<< n)

/-- `PeekBits(n)`, nothing where fewer bits remain (R62). -/
def BitReader.peekBits (r : BitReader) (n : Nat) : Option Nat :=
  if r.bitpos + n > 8 * r.mem.len then none else some (r.mem.bitsAt r.bitpos n)

/-- The reader with `n` more bits consumed. -/
def BitReader.advance (r : BitReader) (n : Nat) : BitReader := { r with bitpos := r.bitpos + n }

/-- Whether BW may take `n` more bits: `ceil_div(BW_BITPOS + n, 8) ≤ BW_CAP` (R69). -/
def State.bwFits (s : State) (n : Nat) : Bool := withinCap s.cfg.bwCap (ceilDiv (s.bw.bitpos + n) 8)

/-! ## Register writes -/

/-- LAST_RESULT <- r. -/
def State.setLastResult (s : State) (r : ResultCode) : State := { s with lastResult := r }

/-- RESULT <- v. -/
def State.setResult (s : State) (v : BitVec 64) : State := { s with result := v }

/-- The bit writer replaced. -/
def State.setBw (s : State) (w : BitWriter) : State := { s with bw := w }

/-- The bit reader replaced. -/
def State.setBr (s : State) (r : BitReader) : State := { s with br := r }

/-- The encoder replaced. -/
def State.setEnc (s : State) (e : Encoder) : State := { s with enc := e }

/-- The decoder replaced. -/
def State.setDec (s : State) (d : Decoder) : State := { s with dec := d }

/-- OUT_MEM replaced. -/
def State.setOut (s : State) (m : Memory) : State := { s with out := m }

/-- CP <- (CP + len) mod 2^32 (30_encoding.md R94). -/
def State.advanceCp (s : State) (len : Nat) : State := { s with cp := s.cp + BitVec.ofNat 32 len }

/-- The words still to come and the partly received command replaced. -/
def State.setPort (s : State) (ws : List Word) (p : PartCommand) : State := { s with cmdPort := ws, partCmd := p }

/-! ## Faults and errors (60_exceptions.md) -/

/-- FAULT ENTRY, `raise Fault(F)` (R213): FAULT, FAULT_CODE and LAST_RESULT are written, and nothing else. Applied to
the state before the command (with CP already advanced), so that none of the command's writes take effect. -/
def State.raiseFault (s : State) (f : FaultCode) : State :=
  { s with fault := true, faultCode := .fault f, lastResult := .fault f }

/-- FAULT EXIT (R215), the state SOFT_RESET leaves (44_control.md R201): everything at its reset value but CP. The
parameters and the words the host has still to deliver are not the block's state (log 2, log 10). -/
def State.softReset (s : State) : State :=
  { State.resetWith s.cfg with cp := s.cp, cmdPort := s.cmdPort, lastResult := .ok }

/-- `raise Error(E)` (R216). -/
def State.raiseError (s : State) (e : ResultCode) : State := s.setLastResult e

/-- `raise DecodeError(E)` (R216). -/
def State.raiseDecodeError (s : State) (e : ErrorCode) : State :=
  (s.setDec { s.dec with state := .error, err := .error e }).setLastResult (.error e)

/-- A command while a fault is pending (R214). -/
def State.reject (s : State) : State := s.setLastResult .faulted

/-! ## How a command ends -/

/-- The end of a command's pseudocode: it completes with its writes done, or it raises. -/
inductive Ending where
  | done (s : State)
  | fault (f : FaultCode)
  | error (e : ResultCode)
  | decodeError (e : ErrorCode)
  deriving DecidableEq, Repr

/-- The state after a command that ended so (R212, R213, R216): a command that completes sets LAST_RESULT <- OK, and
one that raises has none of its other writes. -/
def State.finish (s : State) : Ending → State
  | .done t => t.setLastResult .ok
  | .fault f => s.raiseFault f
  | .error e => s.raiseError e
  | .decodeError e => s.raiseDecodeError e

/-- A command's outcome under R214: rejected while FAULT = 1, else what its rule says. -/
def State.unlessFaulted (s : State) (o : Result) : Result :=
  if s.fault then .next s.reject else o

/-- A command whose rule is the given pseudocode (R214). -/
def State.runCommand (s : State) (body : State → Ending) : Result :=
  s.unlessFaulted (.next (s.finish (body s)))

/-- A complete command whose header is illegal (30_encoding.md R88, 60_exceptions.md R214). -/
def State.illegalCommand (s : State) : Result := s.unlessFaulted (.next (s.raiseFault .illegal))

end Sys2Proof.Machine
end

