-- ==== Sys2Proof/Machine/Operands.lean ====
section
/-! DEFINITION. The operand ranges of 30_encoding.md R87 and the derived codes of 10_state.md R24. -/

namespace Sys2Proof.Machine

/-- A bit count BW_WRITE and BR_READ accept (00_scope.md R6). -/
def bitCountInRange (n : Nat) : Bool := decide (n ≤ wordBits)

/-- A colour count ENC_BEGIN accepts (00_scope.md R12). -/
def colorCountInRange (cc : Nat) : Bool := decide (1 ≤ cc) && decide (cc ≤ 256)

/-- A minimum code size DEC_BEGIN accepts (00_scope.md R12). -/
def minCodeSizeInRange (m : Nat) : Bool := decide (2 ≤ m) && decide (m ≤ 8)

/-- The minimum code size of a colour count: `max(2, ceil_log2(cc))` (41_lzw_table.md R130). -/
def minCodeSizeOf (cc : Nat) : Nat := max 2 (ceilLog2 cc)

/-- The clear code of a minimum code size, 0 where that is 0 (10_state.md R24, 41_lzw_table.md R131). -/
def clearCodeOf (min : Nat) : Nat := if min = 0 then 0 else 2 ^ min

/-- The end-of-information code of a minimum code size, 0 where that is 0 (10_state.md R24, 41_lzw_table.md R131). -/
def eoiCodeOf (min : Nat) : Nat := if min = 0 then 0 else 2 ^ min + 1

/-- ENC_CLEAR. -/
def Encoder.clear (e : Encoder) : Nat := clearCodeOf e.min

/-- ENC_EOI. -/
def Encoder.eoi (e : Encoder) : Nat := eoiCodeOf e.min

/-- DEC_CLEAR. -/
def Decoder.clear (d : Decoder) : Nat := clearCodeOf d.min

/-- DEC_EOI. -/
def Decoder.eoi (d : Decoder) : Nat := eoiCodeOf d.min

end Sys2Proof.Machine
end

