-- ==== Sys2Proof/Machine/BitStream.lean ====
section
/-! DEFINITION. The bit writer and bit reader commands (40_bitstream.md). -/

namespace Sys2Proof.Machine

/-- BW_CLEAR (R100). -/
def execBwClear (s : State) : Result :=
  s.runCommand fun s => .done (s.setBw { mem := Memory.empty, bitpos := 0 })

/-- BW_WRITE's pseudocode (R101). -/
def bwWriteBody (n : Nat) (v : BitVec 64) (s : State) : Ending :=
  if bitCountInRange n then
    if s.bwFits n then .done (s.setBw (s.bw.writeBits v.toNat n))
    else .fault .overflow
  else .fault .width

/-- BW_WRITE n, V (R101). -/
def execBwWrite (n : Nat) (v : BitVec 64) (s : State) : Result := s.runCommand (bwWriteBody n v)

/-- BR_CLEAR (R104). -/
def execBrClear (s : State) : Result :=
  s.runCommand fun s => .done (s.setBr { mem := Memory.empty, bitpos := 0 })

/-- BR_APPEND's pseudocode (R106). -/
def brAppendBody (b : Byte) (s : State) : Ending :=
  if withinCap s.cfg.brCap (s.br.mem.len + 1) then .done (s.setBr { s.br with mem := s.br.mem.append b })
  else .fault .overflow

/-- BR_APPEND b (R106). -/
def execBrAppend (b : Byte) (s : State) : Result := s.runCommand (brAppendBody b)

/-- BR_AT_HEAD's pseudocode (R108): a snapshot of the writer's bytes. -/
def brAtHeadBody (s : State) : Ending :=
  if withinCap s.cfg.brCap s.bw.mem.len then .done (s.setBr { mem := s.bw.mem, bitpos := 0 })
  else .fault .overflow

/-- BR_AT_HEAD (R108). -/
def execBrAtHead (s : State) : Result := s.runCommand brAtHeadBody

/-- BR_READ's pseudocode (R110). -/
def brReadBody (n : Nat) (s : State) : Ending :=
  if bitCountInRange n then
    match s.br.peekBits n with
    | none => .error (.error .truncated)
    | some v => .done ((s.setResult (BitVec.ofNat 64 v)).setBr (s.br.advance n))
  else .fault .width

/-- BR_READ n (R110). -/
def execBrRead (n : Nat) (s : State) : Result := s.runCommand (brReadBody n)

end Sys2Proof.Machine
end

