-- ==== Sys2Proof/Machine/Control.lean ====
section
/-! DEFINITION. The control commands (44_control.md). -/

namespace Sys2Proof.Machine

/-- NOP (R200). -/
def execNop (s : State) : Result := s.runCommand fun s => .done s

/-- SOFT_RESET (R201): the only command that runs while FAULT = 1. -/
def execSoftReset (s : State) : Result := .next s.softReset

/-- OUT_CLEAR (R202). -/
def execOutClear (s : State) : Result := s.runCommand fun s => .done (s.setOut Memory.empty)

end Sys2Proof.Machine
end

