-- ==== Sys2Proof/Machine/LzwTable.lean ====
section
/-! DEFINITION. The table and code-width rules the encoder and the decoder share (41_lzw_table.md). -/

namespace Sys2Proof.Machine

/-! ## The encoder's direction -/

/-- The code ENC_TABLE gives a sequence; keys compare by value (R135). -/
def encLookup : List (List Nat × Nat) → List Nat → Option Nat
  | [], _ => none
  | (k, c) :: rest, s => if k = s then some c else encLookup rest s

/-- EncTableReset (R136). -/
def Encoder.tableReset (e : Encoder) : Encoder :=
  { e with table := [], count := e.clear + 2, cs := e.min + 1 }

/-- Whether `s` has length 1 or is a key of ENC_TABLE (42_lzw_encoder.md R153). -/
def Encoder.knows (e : Encoder) (s : List Nat) : Bool :=
  decide (s.length = 1) || (encLookup e.table s).isSome

/-- `EncCodeOf(s)` (R139). Of a sequence R139 does not define it for, a free value (log 5). -/
def Encoder.codeOf (e : Encoder) (s : List Nat) : Nat :=
  match s with
  | [i] => i
  | s => (encLookup e.table s).getD (Config.freeCode s)

/-- The width after the encoder's growth check (R142, R146). -/
def Encoder.grownCs (e : Encoder) : Nat :=
  if e.count = 2 ^ e.cs ∧ e.cs < maxCodeSize then e.cs + 1 else e.cs

/-- EncAdd (R142): the growth check comes before the add. -/
def Encoder.add (e : Encoder) (s : List Nat) : Encoder :=
  { e with cs := e.grownCs, table := e.table ++ [(s, e.count)], count := e.count + 1 }

/-! ## The decoder's direction -/

/-- The sequence DEC_TABLE gives a code. -/
def decLookup : List (Nat × List Nat) → Nat → Option (List Nat)
  | [], _ => none
  | (k, s) :: rest, c => if k = c then some s else decLookup rest c

/-- DEC_TABLE with a code's sequence set, by rising code. -/
def decInsert : List (Nat × List Nat) → Nat → List Nat → List (Nat × List Nat)
  | [], c, s => [(c, s)]
  | (k, x) :: rest, c, s =>
    if c < k then (c, s) :: (k, x) :: rest
    else if c = k then (c, s) :: rest
    else (k, x) :: decInsert rest c s

/-- DecTableReset (R136). -/
def Decoder.tableReset (d : Decoder) : Decoder :=
  { d with table := [], count := d.clear + 2, cs := d.min + 1 }

/-- `DecSeqOf(c)` (R140), nothing where `c` is not in the table (R141). -/
def Decoder.seqOf (d : Decoder) (c : Nat) : Option (List Nat) :=
  if c < d.clear then some [c]
  else if d.clear + 2 ≤ c ∧ c < d.count then decLookup d.table c
  else none

/-- The width after the decoder's growth check (R143, R146). -/
def Decoder.grownCs (d : Decoder) : Nat :=
  if d.count = 2 ^ d.cs ∧ d.cs < maxCodeSize then d.cs + 1 else d.cs

/-- DecAdd (R143, R144): nothing at the limit, and the growth check comes after the add. -/
def Decoder.add (d : Decoder) (s : List Nat) : Decoder :=
  if d.count < decTableLimit then
    let d := { d with table := decInsert d.table d.count s, count := d.count + 1 }
    { d with cs := d.grownCs }
  else d

end Sys2Proof.Machine
end

