-- ==== Sys2Proof/Machine/LzwDecoder.lean ====
section
/-! DEFINITION. The LZW decoder commands (43_lzw_decoder.md). -/

namespace Sys2Proof.Machine

/-- The decoder of a session just opened (R170). -/
def Decoder.opened (d : Decoder) (m : Nat) : Decoder :=
  { ({ d with min := m } : Decoder).tableReset with prev := PrevCode.invalid, err := .ok, state := .active }

/-- DEC_BEGIN's pseudocode (R170). -/
def decBeginBody (m : Nat) (s : State) : Ending :=
  if minCodeSizeInRange m then .done (s.setDec (s.dec.opened m))
  else .decodeError .minCodeSize

/-- DEC_BEGIN m (R170). -/
def execDecBegin (m : Nat) (s : State) : Result := s.runCommand (decBeginBody m)

/-- DEC_PREV's sequence: nothing where DEC_PREV is invalid, or where its code is not in the table. -/
def Decoder.prevSeq (d : Decoder) : Option (List Nat) :=
  if d.prev.valid then d.seqOf d.prev.code.toNat else none

/-- What an ordinary code emits, and the sequence to add if there is one (R173). The sequence is checked to be
nonempty before its first index is used (R181, log 8). -/
def Decoder.emission (d : Decoder) (c : Nat) : Except ErrorCode (List Nat × Option (List Nat)) :=
  if d.prev.valid ∧ d.prevSeq = none then .error .noPrevious
  else
    match d.seqOf c, d.prevSeq with
    | some [], _ => .error .emptySequence
    | some (x :: s), none => .ok (x :: s, none)
    | some (x :: s), some p => .ok (x :: s, some (p ++ [x]))
    | none, none => .error .noPrevious
    | none, some [] => .error .emptySequence
    | none, some (y :: p) => .ok (y :: p ++ [y], some (y :: p ++ [y]))

/-- The decoder after an ordinary code: the entry added if there is one, and DEC_PREV <- (1, c) (R173). -/
def Decoder.afterCode (d : Decoder) (c : Nat) (new : Option (List Nat)) : Decoder :=
  let d := match new with
    | none => d
    | some s => d.add s
  { d with prev := { valid := true, code := BitVec.ofNat 12 c } }

/-- An ordinary code, of the width `w` it was read at (R173). -/
def decOrdinary (c w : Nat) (s : State) : Ending :=
  match s.dec.emission c with
  | .error e => .decodeError e
  | .ok (seq, new) =>
    if withinCap s.cfg.outCap (s.out.len + seq.length) then
      .done (((s.setBr (s.br.advance w)).setDec (s.dec.afterCode c new)).setOut (s.out.appendIndices seq))
    else .fault .overflow

/-- The code read by a step of an active session (R173). -/
def decCode (c w : Nat) (s : State) : Ending :=
  if c = s.dec.clear then
    .done ((s.setBr (s.br.advance w)).setDec { s.dec.tableReset with prev := PrevCode.invalid })
  else if c = s.dec.eoi then
    .done ((s.setBr (s.br.advance w)).setDec { s.dec with state := .done })
  else decOrdinary c w s

/-- A step of an active session (R173). -/
def decActiveStep (s : State) : Ending :=
  match s.br.peekBits s.dec.cs with
  | none => .decodeError .truncated
  | some c => decCode c s.dec.cs s

/-- DEC_STEP's pseudocode (R173). -/
def decStepBody (s : State) : Ending :=
  match s.dec.state with
  | .idle => .fault .state
  | .done => .done s
  | .error => .error s.dec.err
  | .active => decActiveStep s

/-- DEC_STEP (R173). -/
def execDecStep (s : State) : Result := s.runCommand decStepBody

/-- DEC_RUN's loop (R178): steps while DEC_STATE = ACTIVE and no step has faulted. Nothing where it has not ended
after `fuel` steps. -/
def decRunLoop : Nat → State → Option State
  | 0, s => if s.dec.state = .active ∧ s.fault = false then none else some s
  | fuel + 1, s =>
    if s.dec.state = .active ∧ s.fault = false then decRunLoop fuel (s.finish (decActiveStep s)) else some s

/-- LAST_RESULT after DEC_RUN's loop: the fault's code where a step faulted, DEC_ERR where the session is in ERROR,
else OK (R178). -/
def State.decRunResult (s : State) : ResultCode :=
  if s.fault then s.lastResult else if s.dec.state = .error then s.dec.err else .ok

/-- One step more than the bits that remain in BR; R180's bound is not above it (log 7). -/
def State.decRunFuel (s : State) : Nat := 8 * s.br.mem.len - s.br.bitpos + 1

/-- DEC_RUN once FAULT is known to be 0 (R178). -/
def decRunUnfaulted (s : State) : Result :=
  if s.dec.state = .idle then .next (s.raiseFault .state)
  else
    match decRunLoop s.decRunFuel s with
    | none => .fault .decRunUnending
    | some t => .next (t.setLastResult t.decRunResult)

/-- DEC_RUN (R178). -/
def execDecRun (s : State) : Result := s.unlessFaulted (decRunUnfaulted s)

end Sys2Proof.Machine
end

