-- ==== Sys2Proof/Machine/LzwEncoder.lean ====
section
/-! DEFINITION. The LZW encoder commands (42_lzw_encoder.md). -/

namespace Sys2Proof.Machine

/-- The encoder of a session just opened for a colour count (R150). -/
def Encoder.opened (e : Encoder) (cc : Nat) : Encoder :=
  { ({ e with colorCount := cc, min := minCodeSizeOf cc } : Encoder).tableReset with buf := [], state := .active }

/-- ENC_BEGIN's pseudocode (R150): the clear code is written at the width the table reset leaves. -/
def encBeginBody (cc : Nat) (s : State) : Ending :=
  if colorCountInRange cc then
    if s.bwFits (minCodeSizeOf cc + 1) then
      let e := s.enc.opened cc
      .done ((s.setEnc e).setBw (s.bw.writeBits e.clear e.cs))
    else .fault .overflow
  else .fault .colorCount

/-- ENC_BEGIN colorCount (R150). -/
def execEncBegin (cc : Nat) (s : State) : Result := s.runCommand (encBeginBody cc)

/-- The branch of ENC_PUSH that writes the old buffer's code and the clear code, and resets the table instead of
adding (R153, 41_lzw_table.md R145). -/
def encPushReset (i : Nat) (s : State) : Ending :=
  if s.bwFits (2 * s.enc.cs) then
    .done ((s.setBw ((s.bw.writeBits (s.enc.codeOf s.enc.buf) s.enc.cs).writeBits s.enc.clear s.enc.cs)).setEnc
      { s.enc.tableReset with buf := [i] })
  else .fault .overflow

/-- The branch of ENC_PUSH that writes the old buffer's code and adds the extended sequence (R153). -/
def encPushAdd (i : Nat) (s : State) : Ending :=
  if s.bwFits s.enc.cs then
    .done ((s.setBw (s.bw.writeBits (s.enc.codeOf s.enc.buf) s.enc.cs)).setEnc
      { s.enc.add (s.enc.buf ++ [i]) with buf := [i] })
  else .fault .overflow

/-- ENC_PUSH's pseudocode (R153). -/
def encPushBody (i : Nat) (s : State) : Ending :=
  if s.enc.state = .active then
    if i < s.enc.clear then
      if s.enc.knows (s.enc.buf ++ [i]) then .done (s.setEnc { s.enc with buf := s.enc.buf ++ [i] })
      else if encResetCount ≤ s.enc.count then encPushReset i s
      else encPushAdd i s
    else .fault .index
  else .fault .state

/-- ENC_PUSH index (R153). -/
def execEncPush (i : Nat) (s : State) : Result := s.runCommand (encPushBody i)

/-- The width ENC_FINISH writes the end-of-information code at (R157). -/
def finishCs (cfg : Config) (e : Encoder) : Nat := if cfg.finishGrowth then e.grownCs else e.cs

/-- The writer after ENC_FINISH's final code, if the buffer holds one (R157). -/
def writeFinalCode (e : Encoder) (w : BitWriter) : BitWriter :=
  if e.buf = [] then w else w.writeBits (e.codeOf e.buf) e.cs

/-- ENC_FINISH's pseudocode (R157). -/
def encFinishBody (s : State) : Ending :=
  if s.enc.state = .active then
    let b := if s.enc.buf = [] then 0 else s.enc.cs
    let e := finishCs s.cfg s.enc
    if s.bwFits (b + e) then
      .done ((s.setBw ((writeFinalCode s.enc s.bw).writeBits s.enc.eoi e)).setEnc
        { s.enc with cs := e, buf := [], state := .finished })
    else .fault .overflow
  else .fault .state

/-- ENC_FINISH (R157). -/
def execEncFinish (s : State) : Result := s.runCommand encFinishBody

end Sys2Proof.Machine
end

