-- ==== Sys2Proof/Machine/Dispatch.lean ====
section
/-! DEFINITION. One arm per command, each a direct call of its meaning. -/

namespace Sys2Proof.Machine

def exec (i : Instr) (s : State) : Host.Outcome State Fault Refusal :=
  match i with
  | .nop => Sys2Proof.Machine.execNop s
  | .softReset => Sys2Proof.Machine.execSoftReset s
  | .bwClear => Sys2Proof.Machine.execBwClear s
  | .bwWrite n v => Sys2Proof.Machine.execBwWrite n v s
  | .brClear => Sys2Proof.Machine.execBrClear s
  | .brAppend b => Sys2Proof.Machine.execBrAppend b s
  | .brAtHead => Sys2Proof.Machine.execBrAtHead s
  | .brRead n => Sys2Proof.Machine.execBrRead n s
  | .encBegin cc => Sys2Proof.Machine.execEncBegin cc s
  | .encPush index => Sys2Proof.Machine.execEncPush index s
  | .encFinish => Sys2Proof.Machine.execEncFinish s
  | .decBegin m => Sys2Proof.Machine.execDecBegin m s
  | .decStep => Sys2Proof.Machine.execDecStep s
  | .decRun => Sys2Proof.Machine.execDecRun s
  | .outClear => Sys2Proof.Machine.execOutClear s

end Sys2Proof.Machine
end

