-- ==== Sys2Proof/Machine/Fetch.lean ====
section
/-! DEFINITION. How the core takes a command from the command port (30_encoding.md R86, R93, R94). -/

namespace Sys2Proof.Machine

/-- The words of the partly received command. -/
def PartCommand.words : PartCommand → List Word
  | .none => []
  | .header h => [h]
  | .headerData h w1 => [h, w1]

/-- The partly received command that holds these words: none of them, a header, or a header and a data word. -/
def PartCommand.ofWords : List Word → PartCommand
  | [] => .none
  | [h] => .header h
  | h :: w1 :: _ => .headerData h w1

/-- Every word the core has received but not consumed, or will receive next: the partly received command, then the
words sent. -/
def State.pendingWords (s : State) : List Word := s.partCmd.words ++ s.cmdPort

/-- What the core finds on the command port. -/
inductive Fetched where
  /-- A complete legal command, and the state with CP advanced past it. -/
  | command (i : Instr) (s : State)
  /-- A complete command whose header is illegal, and the state with CP advanced past it. -/
  | illegal (s : State)
  /-- No complete command: the words sent so far are received and held. -/
  | waiting (s : State)
  deriving DecidableEq, Repr

/-- A complete command is consumed and CP advanced by its length before it executes (R94); the words of an incomplete
one are held, and CP does not advance for them (R93). -/
def fetch (s : State) : Fetched :=
  match splitCommand s.pendingWords with
  | none => .waiting (s.setPort [] (PartCommand.ofWords s.pendingWords))
  | some ((h, w1, w2), rest) =>
    let t := (s.setPort rest .none).advanceCp (commandLen h)
    match decode h w1 w2 with
    | .ok i => .command i t
    | .error _ => .illegal t

/-- Words put at the front of the command port, with no command partly received: the very next step takes them. -/
def State.withNextWords (s : State) (ws : List Word) : State := s.setPort (ws ++ s.cmdPort) .none

end Sys2Proof.Machine
end

