-- ==== Sys2Proof/Machine/Step.lean ====
section
/-! DEFINITION. One step: one complete command (00_scope.md R5, 60_exceptions.md R214). -/

namespace Sys2Proof.Machine

/-- The core takes the next complete command and executes it. With no complete command on the port it waits: nothing
changes but that the words sent so far are received (log 1). -/
def step (s : State) : Host.Outcome State Fault Refusal :=
  match fetch s with
  | .command i t => exec i t
  | .illegal t => t.illegalCommand
  | .waiting t => .next t

/-- `s` with the instruction of the opcode table's bits `w` at the front of the command port (log 3). -/
def State.withFetchWord (s : State) (nbits w : Nat) : State := s.withNextWords (tableWords nbits w)

end Sys2Proof.Machine
end

