-- ==== Sys2Proof/Machine/Flags.lean ====
section
/-! DEFINITION. The flag-like registers as the read port shows them: the values of the result codes
(60_exceptions.md R211) and the STATUS word (10_state.md R23). -/

namespace Sys2Proof.Machine

/-- The values of the fault codes (60_exceptions.md R211). -/
def FaultCode.byte : FaultCode → Byte
  | .illegal => 0x10
  | .width => 0x11
  | .state => 0x12
  | .colorCount => 0x13
  | .index => 0x14
  | .overflow => 0x15

/-- The values of the error codes (60_exceptions.md R211). -/
def ErrorCode.byte : ErrorCode → Byte
  | .truncated => 0x20
  | .noPrevious => 0x21
  | .emptySequence => 0x22
  | .minCodeSize => 0x23

/-- The values of the result codes (60_exceptions.md R211, 10_state.md R25). -/
def ResultCode.byte : ResultCode → Byte
  | .ok => 0x00
  | .fault f => f.byte
  | .error e => e.byte
  | .faulted => 0x30

/-- ENC_STATE's values (10_state.md R26). -/
def EncState.bits : EncState → BitVec 2
  | .idle => 0
  | .active => 1
  | .finished => 2

/-- DEC_STATE's values (10_state.md R26). -/
def DecState.bits : DecState → BitVec 2
  | .idle => 0
  | .active => 1
  | .done => 2
  | .error => 3

/-- STATUS: [0] FAULT, [2:1] ENC_STATE, [4:3] DEC_STATE, [31:5] zero (10_state.md R23). -/
def State.status (s : State) : Word :=
  ((s.dec.state.bits ++ s.enc.state.bits) ++ BitVec.ofBool s.fault).setWidth 32

end Sys2Proof.Machine
end

