-- ==== Sys2Proof/Machine/HostPort.lean ====
section
/-! DEFINITION. The host's side (60_exceptions.md R226): what the registers and memories show in a state (10_state.md
R22, 20_memory.md R68), the host's reads of them, the command port and the reset input. None of these is a step of the
core. -/

namespace Sys2Proof.Machine

/-! ## What a state shows -/

/-- A natural number's low bits in a port field of the given width; the bits outside the field read as 0 (R22). -/
def portField (width v : Nat) : Word := (BitVec.ofNat width v).setWidth 32

/-- DEC_PREV as the port shows it: `valid << 16 | code` (R34). -/
def PrevCode.word (p : PrevCode) : Word :=
  ((BitVec.ofBool p.valid).setWidth 32 <<< 16) ||| p.code.setWidth 32

/-- What the register at an address of REG shows in a state; an address not in the table of R22 shows 0. The host's
read is `hostReadReg`. -/
def State.readReg (s : State) (addr : Byte) : Word :=
  match addr.toNat with
  | 0x00 => s.status
  | 0x01 => s.lastResult.byte.setWidth 32
  | 0x02 => s.faultCode.byte.setWidth 32
  | 0x03 => s.dec.err.byte.setWidth 32
  | 0x04 => s.result.extractLsb' 0 32
  | 0x05 => s.result.extractLsb' 32 32
  | 0x06 => s.cp
  | 0x10 => portField 32 s.bw.mem.len
  | 0x11 => portField 32 s.bw.bitpos
  | 0x20 => portField 32 s.br.mem.len
  | 0x21 => portField 32 s.br.bitpos
  | 0x30 => portField 9 s.enc.colorCount
  | 0x31 => portField 4 s.enc.min
  | 0x32 => portField 10 s.enc.clear
  | 0x33 => portField 10 s.enc.eoi
  | 0x34 => portField 4 s.enc.cs
  | 0x35 => portField 13 s.enc.count
  | 0x36 => portField 32 s.enc.buf.length
  | 0x40 => portField 4 s.dec.min
  | 0x41 => portField 10 s.dec.clear
  | 0x42 => portField 10 s.dec.eoi
  | 0x43 => portField 4 s.dec.cs
  | 0x44 => portField 13 s.dec.count
  | 0x45 => s.dec.prev.word
  | 0x50 => portField 32 s.out.len
  | _ => 0

/-- The three memory spaces (20_memory.md R68). -/
inductive MemSpace where
  | bwMem
  | brMem
  | outMem
  deriving DecidableEq, Repr

/-- The memory of a space. -/
def State.memory (s : State) : MemSpace → Memory
  | .bwMem => s.bw.mem
  | .brMem => s.br.mem
  | .outMem => s.out

/-- What a memory shows at an offset in a state: the byte below the length, and 0 otherwise (20_memory.md R68). The
host's read is `hostReadMem`. -/
def State.readMem (s : State) (m : MemSpace) (a : Nat) : Byte := (s.memory m).read a

/-! ## The host's reads (60_exceptions.md R226, 20_memory.md R70) -/

/-- Whether no complete command is on the port: every complete command issued so far has executed. -/
def State.caughtUp (s : State) : Bool := (splitCommand s.pendingWords).isNone

/-- The complete commands on the port executed in order, `fuel` of them at most; nothing where one stops or some are
left. -/
def completeIssued : Nat → State → Option State
  | 0, s => if s.caughtUp then some s else none
  | fuel + 1, s =>
    if s.caughtUp then some s
    else
      match step s with
      | .next t => completeIssued fuel t
      | .fault _ => none
      | .refused _ => none

/-- The state after every complete command issued before now (R226). A command has at least one word, so the words on
the port are fuel enough. -/
def State.completed (s : State) : Option State := completeIssued s.pendingWords.length s

/-- A read by the host: it happens only between commands, and observes the state after every complete command issued
before it (R226, R70). Where the last words issued are an incomplete command there is no read (log 13). It changes
nothing (20_memory.md R67): the commands it counts as executed stay on the port of `s`. DESIGN CHOICE (log 10): a
hardware reset of `s` after the read keeps them, and they run after it. -/
def State.hostRead {α : Type} (s : State) (shows : State → α) : Option α :=
  s.completed.bind fun t => if t.pendingWords = [] then some (shows t) else none

/-- The host reads a register by address. -/
def State.hostReadReg (s : State) (addr : Byte) : Option Word := s.hostRead (·.readReg addr)

/-- The host reads a byte of a memory by offset, `MemRead(M, a, 1)`. -/
def State.hostReadMem (s : State) (m : MemSpace) (a : Nat) : Option Byte := s.hostRead (·.readMem m a)

/-! ## The command port and the reset input -/

/-- What the outside can do that changes the state. A read changes nothing (20_memory.md R67). -/
inductive HostMove where
  /-- A word is sent on the command port (60_exceptions.md R226). -/
  | send (w : Word)
  /-- The reset input is asserted, or power returns (70_reset_and_hazards.md R240, 60_exceptions.md R225). -/
  | reset
  deriving DecidableEq, Repr

/-- The state after hardware reset (70_reset_and_hazards.md R240). The parameters are not state. DESIGN CHOICE (log
10): the words the core has not taken stay on the port, those of commands that an earlier read counted as executed
(`State.hostRead`) among them. -/
def State.hardReset (s : State) : State := { State.resetWith s.cfg with cmdPort := s.cmdPort }

/-- The state after a move of the host. -/
def State.hostMove (s : State) : HostMove → State
  | .send w => { s with cmdPort := s.cmdPort ++ [w] }
  | .reset => s.hardReset

/-- Words sent one after another. -/
def State.sendAll (s : State) (ws : List Word) : State := { s with cmdPort := s.cmdPort ++ ws }

end Sys2Proof.Machine
end

