-- ==== Sys2Proof/Machine/Platform.lean ====
section
/-! DEFINITION. A platform of several codec instances that share nothing (00_scope.md R13, 60_exceptions.md R223).
Which instance acts next is the caller's choice: any interleaving may occur (log 14). -/

namespace Sys2Proof.Machine

/-- The instances of a platform; N_INSTANCES is the list's length (R13). -/
abbrev Platform := List State

/-- `n` instances right after reset. -/
def Platform.reset (n : Nat) (cfg : Config) : Platform := List.replicate n (State.resetWith cfg)

/-- The platform after one step of instance `k`; nothing where there is no such instance or its step stops. -/
def Platform.step (p : Platform) (k : Nat) : Option Platform :=
  match p[k]? with
  | none => none
  | some s =>
    match Sys2Proof.Machine.step s with
    | .next t => some (p.set k t)
    | .fault _ => none
    | .refused _ => none

/-- The platform after a move of the host at instance `k`. -/
def Platform.hostMove (p : Platform) (k : Nat) (m : HostMove) : Platform := p.modify k (·.hostMove m)

end Sys2Proof.Machine
end

