-- ==== Sys2Proof/Safety.lean ====
section
/-! DEFINITION. The invariants the spec states of the block's state after every command, reachability, and the terms
claims about runs use. -/

namespace Sys2Proof.Machine

/-! ## The memories and cursors -/

/-- 10_state.md R29 and 20_memory.md R69, R77: BW_LEN = ceil_div(BW_BITPOS, 8), every bit at or past BW_BITPOS is 0,
the capacity is kept, and BW_MEM is in canonical form. -/
structure BitWriter.Inv (cfg : Config) (w : BitWriter) : Prop where
  canonical : w.mem.wf = true
  length : w.mem.len = ceilDiv w.bitpos 8
  padding : ∀ p, w.bitpos ≤ p → w.mem.bit p = false
  capacity : withinCap cfg.bwCap w.mem.len = true

/-- 10_state.md R30 and 20_memory.md R69: BR_BITPOS ≤ 8 · BR_LEN, and the capacity is kept. -/
structure BitReader.Inv (cfg : Config) (r : BitReader) : Prop where
  canonical : r.mem.wf = true
  cursor : r.bitpos ≤ 8 * r.mem.len
  capacity : withinCap cfg.brCap r.mem.len = true

/-- OUT_MEM is in canonical form and keeps its capacity (20_memory.md R69). -/
structure OutInv (cfg : Config) (m : Memory) : Prop where
  canonical : m.wf = true
  capacity : withinCap cfg.outCap m.len = true

/-! ## The encoder -/

/-- ENC_TABLE's keys. -/
def Encoder.keys (e : Encoder) : List (List Nat) := e.table.map Prod.fst

/-- A one-index sequence below the clear code (41_lzw_table.md R134). -/
def isLiteral (clear : Nat) (s : List Nat) : Prop := ∃ i, s = [i] ∧ i < clear

/-- A sequence that has a code: a literal or a key (41_lzw_table.md R139). -/
def Encoder.HasCode (e : Encoder) (s : List Nat) : Prop := isLiteral e.clear s ∨ s ∈ e.keys

/-- The encoder while ACTIVE or FINISHED: the ranges of 10_state.md R31, the table of 41_lzw_table.md R135, the bound
of R133, and the buffer of 10_state.md R39. -/
structure Encoder.OpenInv (e : Encoder) : Prop where
  colorCount : 1 ≤ e.colorCount ∧ e.colorCount ≤ 256
  min : e.min = minCodeSizeOf e.colorCount
  minRange : 2 ≤ e.min ∧ e.min ≤ 8
  width : e.min + 1 ≤ e.cs ∧ e.cs ≤ maxCodeSize
  count : e.clear + 2 ≤ e.count ∧ e.count ≤ encResetCount
  fits : e.count ≤ 2 ^ e.cs
  /-- R135 items 2 and 3: the codes are those from `clear + 2` to `count - 1`, each once. -/
  codes : e.table.map Prod.snd = List.range' (e.clear + 2) (e.count - (e.clear + 2))
  keysDistinct : e.keys.Nodup
  keysLong : ∀ k ∈ e.keys, 2 ≤ k.length
  keysPrefixed : ∀ k ∈ e.keys, e.HasCode k.dropLast
  keysBounded : ∀ k ∈ e.keys, ∀ i ∈ k, i < e.clear
  buffer : e.buf = [] ∨ e.HasCode e.buf
  finished : e.state = .finished → e.buf = []
  /-- With an empty buffer an ACTIVE session has pushed nothing (42_lzw_encoder.md R157). -/
  fresh : e.state = .active → e.buf = [] → e.count = e.clear + 2 ∧ e.cs = e.min + 1

/-- The encoder in every state: as reset while IDLE (10_state.md R26). -/
structure Encoder.Inv (e : Encoder) : Prop where
  idle : e.state = .idle → e = Encoder.reset
  opened : e.state ≠ .idle → e.OpenInv

/-! ## The decoder -/

/-- The decoder after a successful DEC_BEGIN: the ranges of 10_state.md R33 and the table of 41_lzw_table.md R137. -/
structure Decoder.OpenInv (d : Decoder) : Prop where
  minRange : 2 ≤ d.min ∧ d.min ≤ 8
  width : d.min + 1 ≤ d.cs ∧ d.cs ≤ maxCodeSize
  count : d.clear + 2 ≤ d.count ∧ d.count ≤ decTableLimit
  fits : d.count ≤ 2 ^ d.cs
  /-- Below the ceiling the width has already grown for a full range of codes (R143). -/
  grown : d.cs < maxCodeSize → d.count < 2 ^ d.cs
  /-- R137 item 1: the domain is exactly `clear + 2 .. count - 1`. -/
  domain : d.table.map Prod.fst = List.range' (d.clear + 2) (d.count - (d.clear + 2))
  long : ∀ e ∈ d.table, 2 ≤ e.2.length
  /-- R137 item 3: each value is a literal or the value of an earlier code, followed by one more index. -/
  chained : ∀ e ∈ d.table, isLiteral d.clear e.2.dropLast ∨ ∃ e' ∈ d.table, e'.1 < e.1 ∧ e.2.dropLast = e'.2
  bounded : ∀ e ∈ d.table, ∀ i ∈ e.2, i < d.clear

/-- The decoder in every state (10_state.md R26, R33, R34). -/
structure Decoder.Inv (d : Decoder) : Prop where
  idle : d.state = .idle → d = Decoder.reset
  /-- The minimum code size is 0 only before a successful DEC_BEGIN (R24): then all but DEC_STATE and DEC_ERR is as
  reset. -/
  unopened : d.min = 0 → (d.state = .idle ∨ d.state = .error) ∧ d.cs = 0 ∧ d.count = 0 ∧ d.table = [] ∧
    d.prev = PrevCode.invalid
  opened : d.min ≠ 0 → d.OpenInv
  /-- The held error is never E_EMPTY_SEQUENCE (43_lzw_decoder.md R181). -/
  errorCode : d.state = .error → ∃ e, e ≠ ErrorCode.emptySequence ∧ d.err = .error e
  noError : d.state ≠ .error → d.err = .ok
  prevInvalid : d.prev.valid = false → d.prev = PrevCode.invalid

/-! ## Faults and results -/

/-- FAULT, FAULT_CODE and LAST_RESULT (10_state.md R27, 60_exceptions.md R212 to R214). -/
structure State.FaultInv (s : State) : Prop where
  pending : s.fault = true →
    ∃ f, s.faultCode = .fault f ∧ (s.lastResult = .fault f ∨ s.lastResult = .faulted)
  clear : s.fault = false → s.faultCode = .ok ∧
    (s.lastResult = .ok ∨ ∃ e, e ≠ ErrorCode.emptySequence ∧ s.lastResult = .error e)

/-- Only a 3-word command is ever partly received (10_state.md R40, 30_encoding.md R93). -/
def PartCommand.Inv : PartCommand → Prop
  | .none => True
  | .header h => commandLen h = 3
  | .headerData h _ => commandLen h = 3

/-- The invariant of the block: what the spec says holds after every command. -/
structure State.Inv (s : State) : Prop where
  part : s.partCmd.Inv
  faults : s.FaultInv
  bw : s.bw.Inv s.cfg
  br : s.br.Inv s.cfg
  out : OutInv s.cfg s.out
  enc : s.enc.Inv
  dec : s.dec.Inv

/-! ## Illegal headers -/

/-- The illegal headers: those with a reserved OP value (30_encoding.md R82), and those with a nonzero field that must
be zero (R83). -/
def IllegalHeader (h : Word) : Prop :=
  (opField h ∉ [0x00, 0x01, 0x10, 0x11, 0x20, 0x21, 0x22, 0x23, 0x30, 0x31, 0x32, 0x40, 0x41, 0x42, 0x50]) ∨
    (opField h ∈ [0x00, 0x01, 0x10, 0x20, 0x22, 0x32, 0x41, 0x42, 0x50] ∧ (nField h ≠ 0 ∨ immField h ≠ 0)) ∨
    (opField h ∈ [0x11, 0x23, 0x40] ∧ immField h ≠ 0) ∨
    (opField h ∈ [0x30, 0x31] ∧ nField h ≠ 0) ∨
    (opField h = 0x21 ∧ (nField h ≠ 0 ∨ immHighField h ≠ 0))

/-- The words of one complete command, three where OP is 0x11 (30_encoding.md R86). -/
def commandWords (h w1 w2 : Word) : List Word := if opField h = 0x11 then [h, w1, w2] else [h]

/-- `s` with one complete command consumed, whose words the port held before `rest`: CP has advanced by its length
(30_encoding.md R94). -/
def State.consumed (s : State) (h : Word) (rest : List Word) : State :=
  { s with cmdPort := rest, partCmd := .none, cp := s.cp + (if opField h = 0x11 then 3 else 1) }

/-- The header `OP | n << 8 | imm << 16` of 30_encoding.md R91. -/
def asmHeader (op n imm : Nat) : Word :=
  BitVec.ofNat 32 op ||| (BitVec.ofNat 32 n <<< 8) ||| (BitVec.ofNat 32 imm <<< 16)

/-! ## Runs -/

/-- `Steps n s t`: `n` steps of the core, one after another, lead from `s` to `t`. -/
inductive Steps : Nat → State → State → Prop where
  | refl (s : State) : Steps 0 s s
  | step {n : Nat} {s t u : State} : Machine.step s = .next t → Steps n t u → Steps (n + 1) s u

/-- The states a block with the given parameters reaches from reset by moves of the host and steps of the core, in
any order (60_exceptions.md R226). -/
inductive Reachable (cfg : Config) : State → Prop where
  | reset : Reachable cfg (State.resetWith cfg)
  | host {s : State} (m : HostMove) : Reachable cfg s → Reachable cfg (s.hostMove m)
  | step {s t : State} : Reachable cfg s → Machine.step s = .next t → Reachable cfg t

/-- Commands executed one after another, in order (20_memory.md R70); nothing where one stops. -/
def execAll : List Instr → State → Option State
  | [], s => some s
  | i :: rest, s =>
    match exec i s with
    | .next t => execAll rest t
    | .fault _ => none
    | .refused _ => none

/-- Commands executed one after another, with the LAST_RESULT and RESULT each leaves. -/
def execTrace : List Instr → State → Option (State × List (ResultCode × BitVec 64))
  | [], s => some (s, [])
  | i :: rest, s =>
    match exec i s with
    | .next t => (execTrace rest t).map fun (u, l) => (u, (t.lastResult, t.result) :: l)
    | .fault _ => none
    | .refused _ => none

/-! ## What a command did -/

/-- `w'` is `w` with the `n` low bits of `v` appended, least significant first (20_memory.md R61): the cursor and the
length move on, every bit before the cursor stays, the next `n` are the value's, every later one is 0, and every byte
that holds none of the `n` bits reads as before. -/
structure BitWriter.Appended (w w' : BitWriter) (v n : Nat) : Prop where
  cursor : w'.bitpos = w.bitpos + n
  length : w'.mem.len = ceilDiv (w.bitpos + n) 8
  bits : ∀ p, w'.mem.bit p =
    if p < w.bitpos then w.mem.bit p else if p < w.bitpos + n then v.testBit (p - w.bitpos) else false
  frame : ∀ a, 8 * a + 8 ≤ w.bitpos ∨ w.bitpos + n ≤ 8 * a → w'.mem.read a = w.mem.read a

/-- `m'` is `m` with a sequence of indices appended, element 0 first (20_memory.md R76): every element already there
stays, and past the end everything reads 0. -/
structure Memory.Extended (m m' : Memory) (is : List Nat) : Prop where
  length : m'.len = m.len + is.length
  reads : ∀ a, m'.read a = if a < m.len then m.read a else BitVec.ofNat 8 (is.getD (a - m.len) 0)

/-- The next `n` bits of the reader are there and are the value `c`, the first one lowest (20_memory.md R62). -/
structure BitReader.Holds (r : BitReader) (n c : Nat) : Prop where
  enough : r.bitpos + n ≤ 8 * r.mem.len
  bits : ∀ j, c.testBit j = (decide (j < n) && r.mem.bit (r.bitpos + j))

/-- `d'` is `d` after DecAdd of the sequence `n` (41_lzw_table.md R143, R144), whatever DEC_PREV is: below the limit
the code `d.count` gets `n`, every other code keeps its sequence, the count goes up by one and the width grows when
the new count is `2^cs`; at the limit nothing changes. -/
structure Decoder.Gained (d d' : Decoder) (n : List Nat) : Prop where
  same : d'.state = d.state ∧ d'.err = d.err ∧ d'.min = d.min
  below : d.count < 4096 → d'.count = d.count + 1 ∧ d'.seqOf d.count = some n ∧
    (∀ k, k ≠ d.count → d'.seqOf k = d.seqOf k) ∧
    d'.cs = if d.count + 1 = 2 ^ d.cs ∧ d.cs < 12 then d.cs + 1 else d.cs
  full : 4096 ≤ d.count → d'.count = d.count ∧ d'.cs = d.cs ∧ d'.table = d.table

/-- `DecSteps n s u`: `n` DEC_STEPs lead from `s` to `u`, the session ACTIVE before each and none of them faulting
(43_lzw_decoder.md R178). -/
inductive DecSteps : Nat → State → State → Prop where
  | refl (s : State) : DecSteps 0 s s
  | step {n : Nat} {s t u : State} : s.dec.state = .active → exec .decStep s = .next t → t.fault = false →
      DecSteps n t u → DecSteps (n + 1) s u

end Sys2Proof.Machine
end

