-- ==== Sys2Proof/Certificates/Slice0/Obligations.lean ====
section
/-! DEFINITION. The statements for the provers, from the numbered rules of spec/. -/

open Sys2Proof Sys2Proof.Machine

/-! ## Encoding -/

/-- Every well-formed command decodes from its own words, whatever follows them (30_encoding.md R81 to R86, R91). -/
def Obligations.DecodeEncodeRoundTrip : Prop :=
  ∀ (i : Instr) (rest : List Word), i.wellFormed = true → decodeWords (encode i ++ rest) = .ok (i, rest)

/-- The same over the byte-wide transport, least significant byte first (R80). -/
def Obligations.BytesDecodeEncodeRoundTrip : Prop :=
  ∀ i : Instr, i.wellFormed = true → decodeBytes (encodeBytes i) = .ok i

/-- Each word sequence that decodes is the encoding of the command it decodes to. -/
def Obligations.EncodeDecodeRoundTrip : Prop :=
  ∀ (h w1 w2 : Word) (i : Instr), decode h w1 w2 = .ok i →
    i.wellFormed = true ∧ encode i = if commandLen h = 3 then [h, w1, w2] else [h]

/-- A header decodes to the mnemonic whose OP is H[7:0], exactly where a row of the table matches it; at most one row
does, the rows' OP values are distinct, and every mask covers bits [7:0] (R85). -/
def Obligations.DecodeAgreesWithOpcodeTable : Prop :=
  (∀ (h w1 w2 : Word) (i : Instr), decode h w1 w2 = .ok i →
    i.opcode = opField h ∧ ∃ r ∈ opcodeRows, r.matchesWord h = true ∧ r.mnemonic = i.mnemonic) ∧
  (∀ (h w1 w2 : Word), (∃ r ∈ opcodeRows, r.matchesWord h = true) → ∃ i, decode h w1 w2 = .ok i) ∧
  (∀ (h : Word), ∀ r ∈ opcodeRows, ∀ r' ∈ opcodeRows, r.matchesWord h = true → r'.matchesWord h = true → r = r') ∧
  (opcodeRows.map fun r => opField r.pattern).Nodup ∧ ∀ r ∈ opcodeRows, opField r.mask = 0xFF

/-- The headers that decode to no command are the illegal ones, whatever the data words hold (R83, with the OP values
of R82). -/
def Obligations.IllegalHeadersCharacterised : Prop :=
  ∀ h w1 w2 : Word, (∃ e, decode h w1 w2 = .error e) ↔ IllegalHeader h

/-- The worked encodings of R90: each command has the words the table gives and decodes from them, and the listed
headers are illegal. -/
def Obligations.WorkedEncodingsDecode : Prop :=
  (∀ p ∈ ([(.nop, [0x00000000]), (.softReset, [0x00000001]), (.bwClear, [0x00000010]),
      (.bwWrite 3 5, [0x00000311, 0x00000005, 0x00000000]),
      (.bwWrite 64 0xABCDEF0123456789, [0x00004011, 0x23456789, 0xABCDEF01]),
      (.brClear, [0x00000020]), (.brAppend 0xA5, [0x00A50021]), (.brAtHead, [0x00000022]),
      (.brRead 12, [0x00000C23]), (.encBegin 4, [0x00040030]), (.encBegin 256, [0x01000030]),
      (.encPush 1, [0x00010031]), (.encFinish, [0x00000032]), (.decBegin 2, [0x00000240]),
      (.decStep, [0x00000041]), (.decRun, [0x00000042]), (.outClear, [0x00000050])] : List (Instr × List Word)),
    encode p.1 = p.2 ∧ decodeWords p.2 = .ok (p.1, [])) ∧
  (∀ h ∈ ([0x000000FF, 0x00010000, 0x00000100, 0x01000021, 0x00010311] : List Word),
    (decode h 0 0).toOption = none) ∧ commandLen 0x00010311 = 3

/-- The assembler emits for each line the header `OP | n << 8 | imm << 16` with the line's OP value and operands, and
for BW_WRITE then `value mod 2^32` and `value >> 32`; it refuses exactly the operands that do not fit their field, and
no line without operands (R91, for lines already parsed: log 15). -/
def Obligations.AssemblerEmitsWords : Prop :=
  (∀ p ∈ ([(.nop, 0x00), (.softReset, 0x01), (.bwClear, 0x10), (.brClear, 0x20), (.brAtHead, 0x22),
      (.encFinish, 0x32), (.decStep, 0x41), (.decRun, 0x42), (.outClear, 0x50)] : List (AsmLine × Nat)),
    p.1.assemble = some [asmHeader p.2 0 0]) ∧
  (∀ n value : Nat, (AsmLine.bwWrite n value).assemble = if n ≤ 255 ∧ value < 2 ^ 64 then
    some [asmHeader 0x11 n 0, BitVec.ofNat 32 (value % 2 ^ 32), BitVec.ofNat 32 (value >>> 32)] else none) ∧
  (∀ b : Nat, (AsmLine.brAppend b).assemble = if b ≤ 255 then some [asmHeader 0x21 0 b] else none) ∧
  (∀ n : Nat, (AsmLine.brRead n).assemble = if n ≤ 255 then some [asmHeader 0x23 n 0] else none) ∧
  (∀ cc : Nat, (AsmLine.encBegin cc).assemble = if cc ≤ 65535 then some [asmHeader 0x30 0 cc] else none) ∧
  (∀ i : Nat, (AsmLine.encPush i).assemble = if i ≤ 65535 then some [asmHeader 0x31 0 i] else none) ∧
  (∀ m : Nat, (AsmLine.decBegin m).assemble = if m ≤ 255 then some [asmHeader 0x40 m 0] else none) ∧
  (∀ i : Instr, i.wellFormed = true →
    encode i = asmHeader i.opcode.toNat i.nOperand i.immOperand :: i.dataWords)

/-- Each pseudo-command assembles to the lines of its expansion, one after another, and is refused when one of them
is (R92, for lines already parsed: log 15). That BR_LOAD with no bytes and ENC_ALL with no indices are allowed is the
model's choice (log 18). -/
def Obligations.AssemblerExpandsPseudoCommands : Prop :=
  (∀ bytes : List Nat, (AsmLine.brLoad bytes).assemble =
    (allSome ((AsmLine.brClear :: bytes.map .brAppend).map AsmLine.assemble)).map List.flatten) ∧
  (∀ (cc : Nat) (is : List Nat), (AsmLine.encAll cc is).assemble =
    (allSome ((AsmLine.encBegin cc :: is.map AsmLine.encPush ++ [AsmLine.encFinish]).map AsmLine.assemble)).map List.flatten) ∧
  (∀ m : Nat, (AsmLine.decodeAll m).assemble =
    (allSome ([AsmLine.outClear, .decBegin m, .decRun].map AsmLine.assemble)).map List.flatten)

/-! ## Steps -/

/-- A STEP RUNS THE DECODED COMMAND: when the next words on the command port are those of a well-formed command, the
step consumes them, advances CP by their number, and is `exec` of the command (R94). -/
def Obligations.StepRunsDecodedCommand : Prop :=
  ∀ (s : State) (i : Instr) (rest : List Word), i.wellFormed = true → s.pendingWords = encode i ++ rest →
    step s = exec i { s with
      cmdPort := rest, partCmd := .none, cp := s.cp + BitVec.ofNat 32 (encode i).length }

/-- With no complete command on the port nothing executes and CP does not advance, and words that arrive later complete
the command (R93). That the waiting core answers a next state, which holds the words received, is the model's choice
(log 1). -/
def Obligations.StepWaitsForWholeCommand : Prop :=
  (∀ s : State, (s.pendingWords = [] ∨ ∃ h, opField h = 0x11 ∧
      (s.pendingWords = [h] ∨ ∃ w1, s.pendingWords = [h, w1])) →
    ∃ part, step s = .next { s with cmdPort := [], partCmd := part } ∧
      ∀ more, (State.sendAll { s with cmdPort := [], partCmd := part } more).pendingWords = s.pendingWords ++ more) ∧
  (∀ (s t u : State) (n : Nat) (v : BitVec 64) (h w1 w2 : Word), n < 256 → encode (.bwWrite n v) = [h, w1, w2] →
    s.pendingWords = [h] → step s = .next t → step (t.sendAll [w1]) = .next u →
    step (u.sendAll [w2]) = exec (.bwWrite n v) { s with cmdPort := [], partCmd := .none, cp := s.cp + 3 })

/-- A complete command with an illegal header raises F_ILLEGAL and has no other effect; the data words of an illegal
BW_WRITE are consumed with it (R88). -/
def Obligations.IllegalHeaderFaults : Prop :=
  ∀ (s : State) (h w1 w2 : Word) (rest : List Word), s.fault = false → IllegalHeader h →
    s.pendingWords = commandWords h w1 w2 ++ rest →
    step s = .next { s.consumed h rest with
      fault := true, faultCode := .fault .illegal, lastResult := .fault .illegal }

/-- CP advances by the command's length before the command executes, and no command changes it after that: legal or
illegal, successful, erroring, faulting or rejected (R94). -/
def Obligations.CpCountsCommandWords : Prop :=
  ∀ (s : State) (h w1 w2 : Word) (rest : List Word), s.pendingWords = commandWords h w1 w2 ++ rest →
    (∀ i, decode h w1 w2 = .ok i → step s = exec i (s.consumed h rest)) ∧
    (∀ t, step s = .next t → t.cp = s.cp + (if opField h = 0x11 then 3 else 1))

/-! ## Faults and results -/

/-- While FAULT = 1 every complete command but the word 00000001 changes LAST_RESULT alone, besides being consumed:
legal and illegal headers alike. While FAULT = 0 an illegal header faults, a legal command executes, and either
LAST_RESULT is OK or the command raised (60_exceptions.md R214). -/
def Obligations.FaultPendingRejectsCommands : Prop :=
  ∀ (s : State) (h w1 w2 : Word) (rest : List Word), s.pendingWords = commandWords h w1 w2 ++ rest →
    (s.fault = true → h ≠ 1 → step s = .next { s.consumed h rest with lastResult := .faulted }) ∧
    (s.fault = true → h = 1 → step s = exec .softReset (s.consumed h rest)) ∧
    (s.fault = false → IllegalHeader h → step s = .next { s.consumed h rest with
      fault := true, faultCode := .fault .illegal, lastResult := .fault .illegal }) ∧
    (s.fault = false → ∀ i, decode h w1 w2 = .ok i → step s = exec i (s.consumed h rest)) ∧
    (s.fault = false → s.Inv → ∃ t, step s = .next t ∧ (t.lastResult = .ok ∨
      (∃ f, t.lastResult = .fault f ∧ t.faultCode = .fault f ∧ t.fault = true) ∨ ∃ e, t.lastResult = .error e))

/-- FAULT ENTRY: the state after a faulting command is the state before it but for FAULT, FAULT_CODE and LAST_RESULT;
in DEC_RUN the state before the step that faulted, which is the DEC_STEP at that state, earlier steps having had their
effect (R213). -/
def Obligations.FaultEntryChangesNothingElse : Prop :=
  ∀ (i : Instr) (s t : State), s.fault = false → exec i s = .next t → t.fault = true →
    ∃ f, (i ≠ .decRun → t = { s with fault := true, faultCode := .fault f, lastResult := .fault f }) ∧
      (i = .decRun → ∃ n u, DecSteps n s u ∧ exec .decStep u = .next t ∧
        t = { u with fault := true, faultCode := .fault f, lastResult := .fault f })

/-- Only SOFT_RESET, as the word 00000001, and hardware reset clear FAULT, and both return all other state to its
reset values (R215). -/
def Obligations.OnlyResetsClearFault : Prop :=
  (∀ s t : State, s.fault = true → step s = .next t → t.fault = false →
    s.pendingWords = 1 :: t.cmdPort ∧
      t = { State.resetWith s.cfg with cp := s.cp + 1, cmdPort := t.cmdPort }) ∧
  (∀ (s : State) (m : HostMove), s.fault = true → (s.hostMove m).fault = false →
    m = .reset ∧ { s.hostMove m with cmdPort := [] } = State.resetWith s.cfg)

/-- The results each command can end with while no fault is pending (R211; R163 for the encoder, 43_lzw_decoder.md
R181 for E_EMPTY_SEQUENCE, R217 for the error a session in ERROR repeats). -/
def Obligations.CommandResultCodes : Prop :=
  ∀ (i : Instr) (s t : State), s.Inv → s.fault = false → exec i s = .next t →
    match i with
    | .nop | .softReset | .bwClear | .brClear | .outClear => t.lastResult = .ok
    | .bwWrite _ _ => t.lastResult ∈ [.ok, .fault .width, .fault .overflow]
    | .brAppend _ | .brAtHead => t.lastResult ∈ [.ok, .fault .overflow]
    | .brRead _ => t.lastResult ∈ [.ok, .fault .width, .error .truncated]
    | .encBegin _ => t.lastResult ∈ [.ok, .fault .colorCount, .fault .overflow]
    | .encPush _ => t.lastResult ∈ [.ok, .fault .state, .fault .index, .fault .overflow]
    | .encFinish => t.lastResult ∈ [.ok, .fault .state, .fault .overflow]
    | .decBegin _ => t.lastResult ∈ [.ok, .error .minCodeSize]
    | .decStep | .decRun =>
      t.lastResult ∈ [.ok, .fault .state, .fault .overflow, .error .truncated, .error .noPrevious] ∨
        s.dec.state = .error ∧ t.lastResult = s.dec.err

/-! ## Control and reset -/

/-- NOP, OUT_CLEAR, BW_CLEAR and BR_CLEAR complete in every state without a pending fault, and change nothing but
what they empty and LAST_RESULT (44_control.md R200, R202; 40_bitstream.md R100, R104). -/
def Obligations.NopAndClearsComplete : Prop :=
  ∀ s : State, s.fault = false →
    exec .nop s = .next { s with lastResult := .ok } ∧
    exec .outClear s = .next { s with out := { len := 0, cells := [] }, lastResult := .ok } ∧
    exec .bwClear s = .next { s with bw := { mem := { len := 0, cells := [] }, bitpos := 0 }, lastResult := .ok } ∧
    exec .brClear s = .next { s with br := { mem := { len := 0, cells := [] }, bitpos := 0 }, lastResult := .ok }

/-- SOFT_RESET returns every piece of state but CP to its reset value, whatever FAULT is, and is the only command that
runs while FAULT = 1 (44_control.md R201). The parameters and the words still to come are no state of the block. -/
def Obligations.SoftResetRestoresAllButCp : Prop :=
  ∀ s : State,
    (∃ t, exec .softReset s = .next t ∧
      { t with cmdPort := [] } = { State.resetWith s.cfg with cp := s.cp, lastResult := .ok }) ∧
    (s.fault = true → ∀ i, i ≠ .softReset → exec i s = .next { s with lastResult := .faulted })

/-- The reset state (70_reset_and_hazards.md R240), for every choice of the parameters, after power-on and after the
reset input. -/
def Obligations.ResetState : Prop :=
  ∀ (cfg : Config) (s : State), (s = State.resetWith cfg ∨ ∃ r : State, r.cfg = cfg ∧ s = r.hostMove .reset) →
    s.cfg = cfg ∧
    s.cp = 0 ∧ s.fault = false ∧ s.enc.state = .idle ∧ s.dec.state = .idle ∧ s.lastResult = .ok ∧
    s.faultCode = .ok ∧ s.dec.err = .ok ∧ s.result = 0 ∧ s.bw.mem.toList = [] ∧ s.bw.bitpos = 0 ∧
    s.br.mem.toList = [] ∧ s.br.bitpos = 0 ∧ s.out.toList = [] ∧ s.enc.colorCount = 0 ∧ s.enc.min = 0 ∧
    s.enc.cs = 0 ∧ s.enc.count = 0 ∧ s.enc.clear = 0 ∧ s.enc.eoi = 0 ∧ s.enc.table = [] ∧ s.enc.buf = [] ∧
    s.dec.min = 0 ∧ s.dec.cs = 0 ∧ s.dec.count = 0 ∧ s.dec.clear = 0 ∧ s.dec.eoi = 0 ∧ s.dec.table = [] ∧
    s.dec.prev = { valid := false, code := 0 } ∧ s.partCmd = .none ∧
    (∀ a, s.readReg a = 0) ∧ (∀ m a, s.readMem m a = 0)

/-! ## Bit writer and bit reader -/

/-- BW_WRITE n, V (40_bitstream.md R101): F_WIDTH above 64 bits, then F_OVERFLOW past the capacity, else the n low
bits of V are appended and nothing else but LAST_RESULT changes; n = 0 changes nothing in the writer. -/
def Obligations.BwWriteAppendsLowBits : Prop :=
  ∀ (s : State) (n : Nat) (v : BitVec 64), s.fault = false → s.bw.Inv s.cfg →
    (64 < n → exec (.bwWrite n v) s =
      .next { s with fault := true, faultCode := .fault .width, lastResult := .fault .width }) ∧
    (n ≤ 64 → withinCap s.cfg.bwCap (ceilDiv (s.bw.bitpos + n) 8) = false → exec (.bwWrite n v) s =
      .next { s with fault := true, faultCode := .fault .overflow, lastResult := .fault .overflow }) ∧
    (n ≤ 64 → withinCap s.cfg.bwCap (ceilDiv (s.bw.bitpos + n) 8) = true →
      ∃ w, exec (.bwWrite n v) s = .next { s with bw := w, lastResult := .ok } ∧
        s.bw.Appended w v.toNat n ∧ (n = 0 → w = s.bw))

/-- BR_APPEND b (40_bitstream.md R106): the byte is appended at BR_LEN, every other byte and BR_BITPOS stay;
F_OVERFLOW past the capacity. -/
def Obligations.BrAppendStoresByte : Prop :=
  ∀ (s : State) (b : Byte), s.fault = false → s.br.Inv s.cfg →
    (withinCap s.cfg.brCap (s.br.mem.len + 1) = true →
      ∃ m, exec (.brAppend b) s = .next { s with br := { mem := m, bitpos := s.br.bitpos }, lastResult := .ok } ∧
        m.len = s.br.mem.len + 1 ∧ ∀ a, m.read a = if a = s.br.mem.len then b else s.br.mem.read a) ∧
    (withinCap s.cfg.brCap (s.br.mem.len + 1) = false → exec (.brAppend b) s =
      .next { s with fault := true, faultCode := .fault .overflow, lastResult := .fault .overflow })

/-- BR_AT_HEAD (40_bitstream.md R108): the reader gets the writer's bytes and cursor 0, the writer stays, and a
command on the writer afterwards does not show in the reader; F_OVERFLOW past the capacity. -/
def Obligations.BrAtHeadTakesSnapshot : Prop :=
  (∀ s : State, s.fault = false →
    (withinCap s.cfg.brCap s.bw.mem.len = true →
      exec .brAtHead s = .next { s with br := { mem := s.bw.mem, bitpos := 0 }, lastResult := .ok }) ∧
    (withinCap s.cfg.brCap s.bw.mem.len = false → exec .brAtHead s =
      .next { s with fault := true, faultCode := .fault .overflow, lastResult := .fault .overflow })) ∧
  (∀ (s t u : State) (i : Instr), exec .brAtHead s = .next t → exec i t = .next u →
    (i = .bwClear ∨ (∃ n v, i = .bwWrite n v) ∨ (∃ cc, i = .encBegin cc) ∨ (∃ k, i = .encPush k) ∨ i = .encFinish) →
    u.br = t.br)

/-- BR_READ n (40_bitstream.md R110): F_WIDTH above 64 bits; E_TRUNCATED, with RESULT and BR_BITPOS unchanged, when
fewer than n bits remain; else RESULT gets the next n bits, least significant first, and BR_BITPOS advances. -/
def Obligations.BrReadReturnsNextBits : Prop :=
  ∀ (s : State) (n : Nat), s.fault = false →
    (64 < n → exec (.brRead n) s =
      .next { s with fault := true, faultCode := .fault .width, lastResult := .fault .width }) ∧
    (n ≤ 64 → 8 * s.br.mem.len < s.br.bitpos + n →
      exec (.brRead n) s = .next { s with lastResult := .error .truncated }) ∧
    (n ≤ 64 → s.br.bitpos + n ≤ 8 * s.br.mem.len →
      ∃ v : BitVec 64, exec (.brRead n) s =
          .next { s with result := v, br := { s.br with bitpos := s.br.bitpos + n }, lastResult := .ok } ∧
        ∀ j, v.getLsbD j = (decide (j < n) && s.br.mem.bit (s.br.bitpos + j)))

/-- A value written with WriteBits and read back with PeekBits at the same position is `v mod 2^n` (20_memory.md
R63). -/
def Obligations.PeekReturnsWrittenValue : Prop :=
  ∀ (cfg : Config) (w : BitWriter) (v n : Nat), w.Inv cfg →
    BitReader.peekBits { mem := (w.writeBits v n).mem, bitpos := w.bitpos } n = some (v % 2 ^ n)

/-- The bit stream inverse law (40_bitstream.md R112), where the capacities hold the stream. -/
def Obligations.BitStreamInverseLaw : Prop :=
  ∀ (s : State) (ps : List (Nat × BitVec 64)), s.fault = false →
    (∀ p ∈ ps, p.1 ≤ 64 ∧ p.2.toNat < 2 ^ p.1) →
    withinCap s.cfg.bwCap (ceilDiv (ps.map Prod.fst).sum 8) = true →
    withinCap s.cfg.brCap (ceilDiv (ps.map Prod.fst).sum 8) = true →
    ∃ u t, execAll (.bwClear :: ps.map (fun p => .bwWrite p.1 p.2) ++ [.brAtHead]) s = some u ∧
      execTrace (ps.map fun p => .brRead p.1) u = some (t, ps.map fun p => (.ok, p.2))

/-- The source's literal vector, from every state without a pending fault whose capacity holds two bytes
(40_bitstream.md R113). -/
def Obligations.SourceBitVector : Prop :=
  ∀ s : State, s.fault = false → withinCap s.cfg.bwCap 2 = true →
    ∃ t, execAll [.bwClear, .bwWrite 2 0b11, .bwWrite 1 0b0, .bwWrite 4 0b0101, .bwWrite 3 0b101] s = some t ∧
      t.bw.mem.toList = [0b10101011, 0b00000010] ∧ t.bw.bitpos = 10

/-! ## Encoder -/

/-- The minimum code size of a colour count is the least width of at least 2 that holds that many values
(41_lzw_table.md R130), and its table for the eight ranges. -/
def Obligations.MinCodeSizeIsLeastWidth : Prop :=
  ∀ cc : Nat, 1 ≤ cc → cc ≤ 256 →
    2 ≤ minCodeSizeOf cc ∧ cc ≤ 2 ^ minCodeSizeOf cc ∧ (∀ w, 2 ≤ w → cc ≤ 2 ^ w → minCodeSizeOf cc ≤ w) ∧
    minCodeSizeOf cc = if cc ≤ 4 then 2 else if cc ≤ 8 then 3 else if cc ≤ 16 then 4 else if cc ≤ 32 then 5
      else if cc ≤ 64 then 6 else if cc ≤ 128 then 7 else 8

/-- ENC_BEGIN cc (42_lzw_encoder.md R150): F_COLOR_COUNT outside 1 to 256, then F_OVERFLOW past the capacity, else
the session is open with a fresh table and the clear code is appended at width ENC_MIN + 1, in every encoder state. -/
def Obligations.EncBeginOpensSession : Prop :=
  ∀ (s : State) (cc : Nat), s.fault = false → s.bw.Inv s.cfg →
    (cc = 0 ∨ 256 < cc → exec (.encBegin cc) s =
      .next { s with fault := true, faultCode := .fault .colorCount, lastResult := .fault .colorCount }) ∧
    (1 ≤ cc → cc ≤ 256 → ∀ m, m = max 2 (ceilLog2 cc) →
      (withinCap s.cfg.bwCap (ceilDiv (s.bw.bitpos + (m + 1)) 8) = false → exec (.encBegin cc) s =
        .next { s with fault := true, faultCode := .fault .overflow, lastResult := .fault .overflow }) ∧
      (withinCap s.cfg.bwCap (ceilDiv (s.bw.bitpos + (m + 1)) 8) = true →
        ∃ w, s.bw.Appended w (2 ^ m) (m + 1) ∧
          exec (.encBegin cc) s = .next { s with
            bw := w, lastResult := .ok,
            enc := { state := .active, colorCount := cc, min := m, cs := m + 1, count := 2 ^ m + 2, table := [],
                     buf := [] } }))

/-- ENC_PUSH i where the extended buffer has length 1 or is a key of ENC_TABLE: only ENC_BUF changes (R153). -/
def Obligations.EncPushKeepsAccumulating : Prop :=
  ∀ (s : State) (i : Nat), s.fault = false → s.enc.state = .active → i < s.enc.clear →
    (s.enc.buf = [] ∨ s.enc.buf ++ [i] ∈ s.enc.keys) →
    exec (.encPush i) s = .next { s with enc := { s.enc with buf := s.enc.buf ++ [i] }, lastResult := .ok }

/-- ENC_PUSH i where the extended buffer is new and ENC_COUNT is below 4095: the old buffer's code is appended at
width ENC_CS, the extended buffer gets the code ENC_COUNT, every other key keeps its code, the width grows when the
count was `2^ENC_CS`, and the buffer restarts (R153, 41_lzw_table.md R142); F_OVERFLOW past the capacity. -/
def Obligations.EncPushWritesCodeAndAdds : Prop :=
  ∀ (s : State) (i : Nat), s.fault = false → s.bw.Inv s.cfg → s.enc.Inv → s.enc.state = .active → i < s.enc.clear →
    s.enc.buf ≠ [] → s.enc.buf ++ [i] ∉ s.enc.keys → s.enc.count < 4095 →
    (withinCap s.cfg.bwCap (ceilDiv (s.bw.bitpos + s.enc.cs) 8) = false → exec (.encPush i) s =
      .next { s with fault := true, faultCode := .fault .overflow, lastResult := .fault .overflow }) ∧
    (withinCap s.cfg.bwCap (ceilDiv (s.bw.bitpos + s.enc.cs) 8) = true →
      ∃ w table, s.bw.Appended w (s.enc.codeOf s.enc.buf) s.enc.cs ∧
        encLookup table (s.enc.buf ++ [i]) = some s.enc.count ∧
        (∀ k, k ≠ s.enc.buf ++ [i] → encLookup table k = encLookup s.enc.table k) ∧
        exec (.encPush i) s = .next { s with
          bw := w, lastResult := .ok,
          enc := { s.enc with
            cs := if s.enc.count = 2 ^ s.enc.cs ∧ s.enc.cs < 12 then s.enc.cs + 1 else s.enc.cs,
            count := s.enc.count + 1, table := table, buf := [i] } })

/-- ENC_PUSH i where the extended buffer is new and ENC_COUNT has reached 4095: nothing is added, the old buffer's
code and the clear code are appended at the current width, which is 12, and the table is reset (R153, 41_lzw_table.md
R145); F_OVERFLOW past the capacity. No sequence has a code above 4094. -/
def Obligations.EncPushResetsAtThreshold : Prop :=
  ∀ (s : State) (i : Nat), s.fault = false → s.bw.Inv s.cfg → s.enc.Inv → s.enc.state = .active → i < s.enc.clear →
    s.enc.buf ≠ [] → s.enc.buf ++ [i] ∉ s.enc.keys → 4095 ≤ s.enc.count →
    s.enc.cs = 12 ∧ (∀ k c, encLookup s.enc.table k = some c → c ≤ 4094) ∧
    (withinCap s.cfg.bwCap (ceilDiv (s.bw.bitpos + 24) 8) = false → exec (.encPush i) s =
      .next { s with fault := true, faultCode := .fault .overflow, lastResult := .fault .overflow }) ∧
    (withinCap s.cfg.bwCap (ceilDiv (s.bw.bitpos + 24) 8) = true →
      ∃ w w', s.bw.Appended w (s.enc.codeOf s.enc.buf) 12 ∧ w.Appended w' (2 ^ s.enc.min) 12 ∧
        exec (.encPush i) s = .next { s with
          bw := w', lastResult := .ok,
          enc := { s.enc with cs := s.enc.min + 1, count := 2 ^ s.enc.min + 2, table := [], buf := [i] } })

/-- ENC_PUSH outside an ACTIVE session faults with F_STATE whatever the index, and inside one with F_INDEX for an
index with no literal code (R153, 60_exceptions.md R218). -/
def Obligations.EncPushFaults : Prop :=
  ∀ (s : State) (i : Nat), s.fault = false →
    (s.enc.state ≠ .active → exec (.encPush i) s =
      .next { s with fault := true, faultCode := .fault .state, lastResult := .fault .state }) ∧
    (s.enc.state = .active → s.enc.clear ≤ i → exec (.encPush i) s =
      .next { s with fault := true, faultCode := .fault .index, lastResult := .fault .index })

/-- ENC_FINISH (42_lzw_encoder.md R157): F_STATE outside ACTIVE, F_OVERFLOW past the capacity, else the buffer's code
is appended if there is one, the width grows under P_FINISH_GROWTH when the count is `2^ENC_CS`, the end-of-information
code is appended at that width, and the session is FINISHED. -/
def Obligations.EncFinishWritesFinalCodeAndEoi : Prop :=
  ∀ s : State, s.fault = false → s.bw.Inv s.cfg → s.enc.Inv →
    (s.enc.state ≠ .active → exec .encFinish s =
      .next { s with fault := true, faultCode := .fault .state, lastResult := .fault .state }) ∧
    (s.enc.state = .active → ∀ b e,
      b = (if s.enc.buf = [] then 0 else s.enc.cs) →
      e = (if s.cfg.finishGrowth = true ∧ s.enc.count = 2 ^ s.enc.cs ∧ s.enc.cs < 12 then s.enc.cs + 1
        else s.enc.cs) →
      (withinCap s.cfg.bwCap (ceilDiv (s.bw.bitpos + (b + e)) 8) = false → exec .encFinish s =
        .next { s with fault := true, faultCode := .fault .overflow, lastResult := .fault .overflow }) ∧
      (withinCap s.cfg.bwCap (ceilDiv (s.bw.bitpos + (b + e)) 8) = true →
        ∃ w w', (s.enc.buf = [] → w = s.bw ∧ e = s.enc.cs) ∧
          s.bw.Appended w (s.enc.codeOf s.enc.buf) b ∧ w.Appended w' (2 ^ s.enc.min + 1) e ∧
          exec .encFinish s = .next { s with
            bw := w', enc := { s.enc with cs := e, buf := [], state := .finished }, lastResult := .ok }))

/-- The code of a one-index sequence is its index, and of a key of ENC_TABLE the code the table gives it
(41_lzw_table.md R139). Every code the encoder writes fits the width it is written at: the clear and
end-of-information codes, and the code of every sequence that has one; the count is at most `2^ENC_CS`, and at most
4095 at width 12 (R133). -/
def Obligations.EncoderCodesFitTheirWidth : Prop :=
  ∀ s : State, s.Inv → s.enc.state ≠ .idle →
    (∀ i, s.enc.codeOf [i] = i) ∧ (∀ k c, (k, c) ∈ s.enc.table → s.enc.codeOf k = c) ∧
    s.enc.clear < 2 ^ (s.enc.min + 1) ∧ s.enc.eoi < 2 ^ (s.enc.min + 1) ∧ 2 ^ (s.enc.min + 1) ≤ 2 ^ s.enc.cs ∧
    (∀ q, (∃ i, q = [i] ∧ i < s.enc.clear) ∨ q ∈ s.enc.keys →
      s.enc.codeOf q < 2 ^ s.enc.cs ∧ s.enc.codeOf q ≤ s.enc.count - 1) ∧
    s.enc.count ≤ 2 ^ s.enc.cs ∧ (s.enc.cs = 12 → s.enc.count ≤ 4095)

/-! ## Decoder -/

/-- DEC_BEGIN m (43_lzw_decoder.md R170): for m from 2 to 8 the session is open with a fresh table, in every decoder
state; for any other m the decode error E_MIN_CODE_SIZE is held and the decoder's other registers keep their values. -/
def Obligations.DecBeginOpensSession : Prop :=
  ∀ (s : State) (m : Nat), s.fault = false →
    (2 ≤ m ∧ m ≤ 8 → exec (.decBegin m) s = .next { s with
      dec := { state := .active, err := .ok, min := m, cs := m + 1, count := 2 ^ m + 2, table := [],
               prev := { valid := false, code := 0 } },
      lastResult := .ok }) ∧
    (m < 2 ∨ 8 < m → exec (.decBegin m) s = .next { s with
      dec := { s.dec with state := .error, err := .error .minCodeSize }, lastResult := .error .minCodeSize })

/-- DEC_STEP on the two control codes (43_lzw_decoder.md R173): the clear code resets the table and invalidates
DEC_PREV, the end-of-information code ends the session; both consume DEC_CS bits, and nothing else changes. -/
def Obligations.DecStepControlCodes : Prop :=
  ∀ (s : State) (c : Nat), s.fault = false → s.dec.Inv → s.dec.state = .active → s.br.Holds s.dec.cs c →
    (c = 2 ^ s.dec.min → exec .decStep s = .next { s with
      br := { s.br with bitpos := s.br.bitpos + s.dec.cs },
      dec := { s.dec with
        table := [], count := 2 ^ s.dec.min + 2, cs := s.dec.min + 1, prev := { valid := false, code := 0 } },
      lastResult := .ok }) ∧
    (c = 2 ^ s.dec.min + 1 → exec .decStep s = .next { s with
      br := { s.br with bitpos := s.br.bitpos + s.dec.cs }, dec := { s.dec with state := .done },
      lastResult := .ok })

/-- DEC_STEP on an ordinary code that is in the table: its sequence is appended to OUT_MEM, the code is consumed and
becomes DEC_PREV, and where DEC_PREV was valid its sequence followed by the first index emitted is added (R173). -/
def Obligations.DecStepEmitsKnownCode : Prop :=
  ∀ (s : State) (c x : Nat) (xs : List Nat), s.fault = false → s.dec.Inv → s.out.wf = true →
    s.dec.state = .active → s.br.Holds s.dec.cs c → c ≠ s.dec.clear → c ≠ s.dec.eoi →
    s.dec.seqOf c = some (x :: xs) → (s.dec.prev.valid = true → s.dec.seqOf s.dec.prev.code.toNat ≠ none) →
    withinCap s.cfg.outCap (s.out.len + (x :: xs).length) = true →
    ∃ d m, exec .decStep s = .next { s with
        br := { s.br with bitpos := s.br.bitpos + s.dec.cs }, dec := d, out := m, lastResult := .ok } ∧
      s.out.Extended m (x :: xs) ∧ d.prev = { valid := true, code := BitVec.ofNat 12 c } ∧
      (s.dec.prev.valid = false → d = { s.dec with prev := { valid := true, code := BitVec.ofNat 12 c } }) ∧
      ∀ p, s.dec.prev.valid = true → s.dec.seqOf s.dec.prev.code.toNat = some p → s.dec.Gained d (p ++ [x])

/-- DEC_STEP on a code that is not yet in the table, at or above DEC_COUNT: DEC_PREV's sequence followed by its own
first index is appended and added (R173, 41_lzw_table.md R141). -/
def Obligations.DecStepSynthesizesUnknownCode : Prop :=
  ∀ (s : State) (c y : Nat) (ys : List Nat), s.fault = false → s.dec.Inv → s.out.wf = true →
    s.dec.state = .active → s.br.Holds s.dec.cs c → s.dec.count ≤ c → s.dec.prev.valid = true →
    s.dec.seqOf s.dec.prev.code.toNat = some (y :: ys) →
    withinCap s.cfg.outCap (s.out.len + (y :: ys ++ [y]).length) = true →
    ∃ d m, exec .decStep s = .next { s with
        br := { s.br with bitpos := s.br.bitpos + s.dec.cs }, dec := d, out := m, lastResult := .ok } ∧
      s.out.Extended m (y :: ys ++ [y]) ∧ d.prev = { valid := true, code := BitVec.ofNat 12 c } ∧
      s.dec.Gained d (y :: ys ++ [y])

/-- The failures of a step of an ACTIVE session (R173): E_TRUNCATED when fewer than DEC_CS bits remain,
E_NO_PREVIOUS when the previous code's sequence is wanted and absent, each holding the session in ERROR with nothing
consumed or appended; F_OVERFLOW when OUT_MEM would pass its capacity, with the session still ACTIVE. -/
def Obligations.DecStepFailures : Prop :=
  ∀ s : State, s.fault = false → s.dec.Inv → s.dec.state = .active →
    (8 * s.br.mem.len < s.br.bitpos + s.dec.cs → exec .decStep s = .next { s with
      dec := { s.dec with state := .error, err := .error .truncated }, lastResult := .error .truncated }) ∧
    (∀ c, s.br.Holds s.dec.cs c → c ≠ s.dec.clear → c ≠ s.dec.eoi →
      (s.dec.prev.valid = true ∧ s.dec.seqOf s.dec.prev.code.toNat = none) ∨
        (s.dec.prev.valid = false ∧ s.dec.count ≤ c) →
      exec .decStep s = .next { s with
        dec := { s.dec with state := .error, err := .error .noPrevious }, lastResult := .error .noPrevious }) ∧
    (∀ c q, s.br.Holds s.dec.cs c → c ≠ s.dec.clear → c ≠ s.dec.eoi → s.dec.seqOf c = some q →
      (s.dec.prev.valid = true → s.dec.seqOf s.dec.prev.code.toNat ≠ none) →
      withinCap s.cfg.outCap (s.out.len + q.length) = false → exec .decStep s =
        .next { s with fault := true, faultCode := .fault .overflow, lastResult := .fault .overflow }) ∧
    (∀ c p, s.br.Holds s.dec.cs c → s.dec.count ≤ c → s.dec.prev.valid = true →
      s.dec.seqOf s.dec.prev.code.toNat = some p →
      withinCap s.cfg.outCap (s.out.len + (p.length + 1)) = false → exec .decStep s =
        .next { s with fault := true, faultCode := .fault .overflow, lastResult := .fault .overflow })

/-- DEC_STEP outside an ACTIVE session: F_STATE in IDLE, OK and no other change in DONE, DEC_ERR and no other change
in ERROR (R173). -/
def Obligations.DecStepOutsideActive : Prop :=
  ∀ s : State, s.fault = false →
    (s.dec.state = .idle → exec .decStep s =
      .next { s with fault := true, faultCode := .fault .state, lastResult := .fault .state }) ∧
    (s.dec.state = .done → exec .decStep s = .next { s with lastResult := .ok }) ∧
    (s.dec.state = .error → exec .decStep s = .next { s with lastResult := s.dec.err })

/-- DEC_RUN repeats DEC_STEP while the session is ACTIVE (43_lzw_decoder.md R178): it is DEC_STEP and then DEC_RUN
where that step does not fault, and it is that step where it does; outside ACTIVE it answers like DEC_STEP. -/
def Obligations.DecRunRepeatsDecStep : Prop :=
  ∀ s : State, s.Inv → s.fault = false →
    (s.dec.state = .idle → exec .decRun s =
      .next { s with fault := true, faultCode := .fault .state, lastResult := .fault .state }) ∧
    (s.dec.state = .done → exec .decRun s = .next { s with lastResult := .ok }) ∧
    (s.dec.state = .error → exec .decRun s = .next { s with lastResult := s.dec.err }) ∧
    (s.dec.state = .active → ∃ t, exec .decStep s = .next t ∧
      (t.fault = false → exec .decRun s = exec .decRun t) ∧ (t.fault = true → exec .decRun s = .next t))

/-- DEC_RUN terminates (43_lzw_decoder.md R180): a step that leaves the session ACTIVE consumes DEC_CS ≥ 3 bits, and a
run ends in DONE or ERROR, or faults, after at most `floor((8 · BR_LEN - BR_BITPOS) / 3) + 1` steps; it does not fault
where OUT_MEM is unbounded. -/
def Obligations.DecRunTerminates : Prop :=
  (∀ s t : State, s.Inv → s.fault = false → s.dec.state = .active → exec .decStep s = .next t → t.fault = false →
    t.dec.state = .active → 3 ≤ s.dec.cs ∧ t.br.bitpos = s.br.bitpos + s.dec.cs ∧ t.br.bitpos ≤ 8 * s.br.mem.len) ∧
  (∀ s : State, s.Inv → s.fault = false → s.dec.state ≠ .idle →
    ∃ n u t, DecSteps n s u ∧ exec .decRun s = .next t ∧ (s.cfg.outCap = none → t.fault = false) ∧
      ((u.dec.state = .done ∧ t = { u with lastResult := .ok } ∧
          n ≤ (8 * s.br.mem.len - s.br.bitpos) / 3 + 1) ∨
        (u.dec.state = .error ∧ t = { u with lastResult := u.dec.err } ∧
          n ≤ (8 * s.br.mem.len - s.br.bitpos) / 3 + 1) ∨
        (u.dec.state = .active ∧ exec .decStep u = .next t ∧ t.fault = true ∧
          n + 1 ≤ (8 * s.br.mem.len - s.br.bitpos) / 3 + 1)))

/-- A code below DEC_CLEAR has the sequence of itself, one from DEC_CLEAR + 2 to DEC_COUNT - 1 the sequence DEC_TABLE
gives it, and no other code has any (41_lzw_table.md R140). Every sequence DecSeqOf gives is nonempty, a literal's of length 1, an entry's and a not-yet-in-table code's of
length at least 2; what a step or a run appends are indices below DEC_CLEAR ≤ 256; and E_EMPTY_SEQUENCE is never
reported (43_lzw_decoder.md R181). -/
def Obligations.DecodedIndicesBelowClear : Prop :=
  ∀ s : State, s.Inv →
    s.dec.clear ≤ 256 ∧
    (∀ c, c < s.dec.clear → s.dec.seqOf c = some [c]) ∧
    (∀ c, s.dec.clear + 2 ≤ c → c < s.dec.count → ∃ q, (c, q) ∈ s.dec.table ∧ s.dec.seqOf c = some q) ∧
    (∀ c q, (c, q) ∈ s.dec.table → s.dec.seqOf c = some q) ∧
    (∀ c, s.dec.clear ≤ c → (c < s.dec.clear + 2 ∨ s.dec.count ≤ c) → s.dec.seqOf c = none) ∧
    (∀ c q, s.dec.seqOf c = some q → 1 ≤ q.length ∧ (c < s.dec.clear → q.length = 1) ∧
      (s.dec.clear ≤ c → 2 ≤ q.length) ∧ ∀ x, 2 ≤ (q ++ [x]).length) ∧
    (∀ i t, exec i s = .next t → t.lastResult ≠ .error .emptySequence ∧ t.dec.err ≠ .error .emptySequence) ∧
    (∀ i t, i = .decStep ∨ i = .decRun → exec i s = .next t →
      ∃ q, s.out.Extended t.out q ∧ ∀ x ∈ q, x < s.dec.clear)

/-! ## Rules over every command -/

/-- THE FRAME: which commands may write which state (10_state.md R28, R36, R41; 40_bitstream.md R114). No command
changes the parameters, the words still to come, or CP, which the step advances. -/
def Obligations.StateWrittenOnlyByItsCommands : Prop :=
  ∀ (i : Instr) (s t : State), exec i s = .next t →
    t.cfg = s.cfg ∧ t.cmdPort = s.cmdPort ∧ t.cp = s.cp ∧ (t.partCmd ≠ s.partCmd → i = .softReset) ∧
    (t.bw ≠ s.bw → i = .bwClear ∨ (∃ n v, i = .bwWrite n v) ∨ (∃ c, i = .encBegin c) ∨ (∃ k, i = .encPush k) ∨
      i = .encFinish ∨ i = .softReset) ∧
    (t.br.mem ≠ s.br.mem → i = .brClear ∨ (∃ b, i = .brAppend b) ∨ i = .brAtHead ∨ i = .softReset) ∧
    (t.br.bitpos ≠ s.br.bitpos → i = .brClear ∨ i = .brAtHead ∨ (∃ n, i = .brRead n) ∨ i = .decStep ∨ i = .decRun ∨
      i = .softReset) ∧
    (t.out ≠ s.out → i = .decStep ∨ i = .decRun ∨ i = .outClear ∨ i = .softReset) ∧
    (t.result ≠ s.result → (∃ n, i = .brRead n) ∨ i = .softReset) ∧
    (t.enc ≠ s.enc → (∃ c, i = .encBegin c) ∨ (∃ k, i = .encPush k) ∨ i = .encFinish ∨ i = .softReset) ∧
    (t.dec ≠ s.dec → (∃ m, i = .decBegin m) ∨ i = .decStep ∨ i = .decRun ∨ i = .softReset)

/-- How the session states move (10_state.md R26, R41). -/
def Obligations.SessionStateTransitions : Prop :=
  ∀ (i : Instr) (s t : State), exec i s = .next t →
    (t.enc.state ≠ s.enc.state →
      ((∃ c, i = .encBegin c) ∧ t.enc.state = .active) ∨
      (i = .encFinish ∧ s.enc.state = .active ∧ t.enc.state = .finished) ∨
      (i = .softReset ∧ t.enc.state = .idle)) ∧
    (t.dec.state ≠ s.dec.state →
      ((∃ m, i = .decBegin m) ∧ (t.dec.state = .active ∨ t.dec.state = .error)) ∨
      ((i = .decStep ∨ i = .decRun) ∧ s.dec.state = .active ∧ (t.dec.state = .done ∨ t.dec.state = .error)) ∨
      (i = .softReset ∧ t.dec.state = .idle))

/-- Bits below BW_BITPOS change only through BW_CLEAR or reset; every other command at most appends (40_bitstream.md
R102). -/
def Obligations.WrittenBitsStay : Prop :=
  ∀ (i : Instr) (s t : State), s.bw.Inv s.cfg → exec i s = .next t → i ≠ .bwClear → i ≠ .softReset →
    s.bw.bitpos ≤ t.bw.bitpos ∧ ∀ p, p < s.bw.bitpos → t.bw.mem.bit p = s.bw.mem.bit p

/-- OUT_MEM only grows by appends at its end, by DEC_STEP and DEC_RUN; OUT_CLEAR empties it (20_memory.md R76). -/
def Obligations.OutputOnlyGrows : Prop :=
  (∀ (i : Instr) (s t : State), s.out.wf = true → exec i s = .next t → i ≠ .outClear → i ≠ .softReset →
    ∃ q, s.out.Extended t.out q ∧ (i ≠ .decStep → i ≠ .decRun → q = [])) ∧
  (∀ s t : State, s.fault = false → exec .outClear s = .next t → t.out.toList = [])

/-- An encoder and a decoder session do not interact (42_lzw_encoder.md R164). The encoder reads no reader, output or
decoder state and writes none: two states that agree on the parameters, FAULT, the encoder and the writer give the same
encoder, writer and result. The decoder reads no encoder or writer state and writes none: two states that agree on the
parameters, FAULT, the decoder, the reader and the output give the same decoder, reader, output and result. -/
def Obligations.EncoderAndDecoderDoNotInteract : Prop :=
  (∀ (i : Instr) (s s' t : State), ((∃ c, i = .encBegin c) ∨ (∃ k, i = .encPush k) ∨ i = .encFinish) →
    s'.cfg = s.cfg → s'.fault = s.fault → s'.enc = s.enc → s'.bw = s.bw → exec i s = .next t →
    t.br = s.br ∧ t.out = s.out ∧ t.dec = s.dec ∧
    ∃ t', exec i s' = .next t' ∧ t'.enc = t.enc ∧ t'.bw = t.bw ∧ t'.fault = t.fault ∧ t'.lastResult = t.lastResult) ∧
  (∀ (i : Instr) (s s' t : State), ((∃ m, i = .decBegin m) ∨ i = .decStep ∨ i = .decRun) →
    s'.cfg = s.cfg → s'.fault = s.fault → s'.dec = s.dec → s'.br = s.br → s'.out = s.out → exec i s = .next t →
    t.enc = s.enc ∧ t.bw = s.bw ∧
    ∃ t', exec i s' = .next t' ∧ t'.dec = t.dec ∧ t'.br = t.br ∧ t'.out = t.out ∧ t'.fault = t.fault ∧
      t'.lastResult = t.lastResult)

/-- A session in ERROR stays there, whatever is appended to the reader, until DEC_BEGIN or SOFT_RESET; DEC_STEP and
DEC_RUN only report DEC_ERR again (60_exceptions.md R217, 43_lzw_decoder.md R183). -/
def Obligations.DecoderErrorPersists : Prop :=
  ∀ s : State, s.dec.state = .error →
    (∀ i t, exec i s = .next t → i ≠ .softReset → (∀ m, i ≠ .decBegin m) → t.dec = s.dec) ∧
    (s.fault = false → exec .decStep s = .next { s with lastResult := s.dec.err } ∧
      exec .decRun s = .next { s with lastResult := s.dec.err })

/-- Commands and host moves at one instance never affect another (60_exceptions.md R223). -/
def Obligations.InstancesShareNothing : Prop :=
  (∀ (p q : Platform) (k : Nat), p.step k = some q →
    q.length = p.length ∧ (∀ j, j ≠ k → q[j]? = p[j]?) ∧
      ∃ s t, p[k]? = some s ∧ q[k]? = some t ∧ Machine.step s = .next t) ∧
  (∀ (p : Platform) (k : Nat) (m : HostMove), ∀ j, j ≠ k → (p.hostMove k m)[j]? = p[j]?)

/-! ## The read port -/

/-- STATUS[0] = FAULT, STATUS[2:1] = ENC_STATE, STATUS[4:3] = DEC_STATE, STATUS[31:5] reads 0; 0 at reset (10_state.md R23). -/
def Obligations.StatusWordLayout : Prop :=
  (∀ cfg : Config, (State.resetWith cfg).readReg 0x00 = 0) ∧ ∀ s : State,
    (s.readReg 0x00).getLsbD 0 = s.fault ∧
    (s.readReg 0x00).extractLsb' 1 2 = (match s.enc.state with | .idle => 0 | .active => 1 | .finished => 2) ∧
    (s.readReg 0x00).extractLsb' 3 2 =
      (match s.dec.state with | .idle => 0 | .active => 1 | .done => 2 | .error => 3) ∧
    (s.readReg 0x00).extractLsb' 5 27 = 0

/-- What the read port shows of a state: the register map of 10_state.md R22 and every other address, each memory
under its own space, and 0 past its end (20_memory.md R68). -/
def Obligations.ReadPortRegisterMap : Prop :=
  ∀ s : State,
    s.readReg 0x01 = s.lastResult.byte.setWidth 32 ∧ s.readReg 0x02 = s.faultCode.byte.setWidth 32 ∧
    s.readReg 0x03 = s.dec.err.byte.setWidth 32 ∧ s.readReg 0x05 ++ s.readReg 0x04 = s.result ∧
    s.readReg 0x06 = s.cp ∧
    (s.readReg 0x10).toNat = s.bw.mem.len % 2 ^ 32 ∧ (s.readReg 0x11).toNat = s.bw.bitpos % 2 ^ 32 ∧
    (s.readReg 0x20).toNat = s.br.mem.len % 2 ^ 32 ∧ (s.readReg 0x21).toNat = s.br.bitpos % 2 ^ 32 ∧
    (s.readReg 0x30).toNat = s.enc.colorCount % 2 ^ 9 ∧ (s.readReg 0x31).toNat = s.enc.min % 2 ^ 4 ∧
    (s.readReg 0x32).toNat = s.enc.clear % 2 ^ 10 ∧ (s.readReg 0x33).toNat = s.enc.eoi % 2 ^ 10 ∧
    (s.readReg 0x34).toNat = s.enc.cs % 2 ^ 4 ∧ (s.readReg 0x35).toNat = s.enc.count % 2 ^ 13 ∧
    (s.readReg 0x36).toNat = s.enc.buf.length % 2 ^ 32 ∧ (s.readReg 0x40).toNat = s.dec.min % 2 ^ 4 ∧
    (s.readReg 0x41).toNat = s.dec.clear % 2 ^ 10 ∧ (s.readReg 0x42).toNat = s.dec.eoi % 2 ^ 10 ∧
    (s.readReg 0x43).toNat = s.dec.cs % 2 ^ 4 ∧ (s.readReg 0x44).toNat = s.dec.count % 2 ^ 13 ∧
    (s.readReg 0x45).toNat = (if s.dec.prev.valid then 2 ^ 16 else 0) + s.dec.prev.code.toNat ∧
    (s.readReg 0x50).toNat = s.out.len % 2 ^ 32 ∧
    (∀ a : Byte, a ∉ [0x00, 0x01, 0x02, 0x03, 0x04, 0x05, 0x06, 0x10, 0x11, 0x20, 0x21, 0x30, 0x31, 0x32, 0x33, 0x34,
      0x35, 0x36, 0x40, 0x41, 0x42, 0x43, 0x44, 0x45, 0x50] → s.readReg a = 0) ∧
    (∀ a, s.readMem .bwMem a = s.bw.mem.read a ∧ s.readMem .brMem a = s.br.mem.read a ∧
      s.readMem .outMem a = s.out.read a) ∧
    (∀ m a, (s.memory m).len ≤ a → s.readMem m a = 0)

/-- The result codes' values, all different (60_exceptions.md R211). -/
def Obligations.ResultCodeValues : Prop :=
  ([.ok, .fault .illegal, .fault .width, .fault .state, .fault .colorCount, .fault .index, .fault .overflow,
    .error .truncated, .error .noPrevious, .error .emptySequence, .error .minCodeSize, .faulted].map ResultCode.byte =
    [0x00, 0x10, 0x11, 0x12, 0x13, 0x14, 0x15, 0x20, 0x21, 0x22, 0x23, 0x30]) ∧
  ∀ r r' : ResultCode, r.byte = r'.byte → r = r'

/-- With the invariant no value of a register of ENC or DEC is cut off by its port field (10_state.md R22, R31, R33,
R39). The cursors and lengths of BW, BR and OUT have no bound, and the port shows their low 32 bits (log 12). -/
def Obligations.EncDecRegistersFitTheirPortFields : Prop :=
  ∀ s : State, s.Inv →
    (s.readReg 0x30).toNat = s.enc.colorCount ∧ (s.readReg 0x31).toNat = s.enc.min ∧
    (s.readReg 0x32).toNat = s.enc.clear ∧ (s.readReg 0x33).toNat = s.enc.eoi ∧ (s.readReg 0x34).toNat = s.enc.cs ∧
    (s.readReg 0x35).toNat = s.enc.count ∧ (s.readReg 0x36).toNat = s.enc.buf.length ∧
    (s.readReg 0x40).toNat = s.dec.min ∧
    (s.readReg 0x41).toNat = s.dec.clear ∧ (s.readReg 0x42).toNat = s.dec.eoi ∧
    (s.readReg 0x43).toNat = s.dec.cs ∧ (s.readReg 0x44).toNat = s.dec.count ∧
    (s.readReg 0x45).toNat = (if s.dec.prev.valid then 2 ^ 16 else 0) + s.dec.prev.code.toNat

/-- Commands take effect one at a time in the order of the stream, and a host read observes exactly the state after
every complete command issued before it: with nothing pending the state itself, with a complete command next what a
read after that command observes (20_memory.md R70, 60_exceptions.md R226). The third clause, that there is no read
inside an incomplete command, is the model's choice: DEDUCED from R226 (log 13). -/
def Obligations.HostReadsSeeCompletedCommands : Prop :=
  (∀ s : State, s.pendingWords = [] →
    (∀ a, s.hostReadReg a = some (s.readReg a)) ∧ ∀ m a, s.hostReadMem m a = some (s.readMem m a)) ∧
  (∀ (s : State) (h w1 w2 : Word) (rest : List Word), s.pendingWords = commandWords h w1 w2 ++ rest →
    (∀ i, decode h w1 w2 = .ok i → step s = exec i (s.consumed h rest)) ∧
    ∀ t, step s = .next t → t.pendingWords = rest ∧
      (∀ a, s.hostReadReg a = t.hostReadReg a) ∧ ∀ m a, s.hostReadMem m a = t.hostReadMem m a) ∧
  (∀ (s : State) (h w1 : Word), opField h = 0x11 → (s.pendingWords = [h] ∨ s.pendingWords = [h, w1]) →
    (∀ a, s.hostReadReg a = none) ∧ ∀ m a, s.hostReadMem m a = none) ∧
  (∀ (s : State) (cs : List (Word × Word × Word)), s.Inv →
    s.pendingWords = cs.flatMap (fun c => commandWords c.1 c.2.1 c.2.2) →
    ∃ t, Steps cs.length s t ∧ t.pendingWords = [] ∧
      (∀ a, s.hostReadReg a = some (t.readReg a)) ∧ ∀ m a, s.hostReadMem m a = some (t.readMem m a))

/-! ## The invariant -/

/-- The invariant holds at reset, for every choice of the parameters. -/
def Obligations.InvariantAtReset : Prop := ∀ cfg : Config, (State.resetWith cfg).Inv

/-- Nothing the host can do breaks the invariant. -/
def Obligations.HostMovesKeepInvariant : Prop := ∀ (s : State) (m : HostMove), s.Inv → (s.hostMove m).Inv

/-- EVERY STEP KEEPS THE INVARIANT: the memories' canonical form, padding and capacities, both cursors, both tables,
the ranges of the registers, and the fault registers (10_state.md R29 to R33; 41_lzw_table.md R133, R135, R137). -/
def Obligations.StepKeepsInvariant : Prop := ∀ s t : State, s.Inv → step s = .next t → t.Inv

/-- No state that meets the invariant is stuck: its next step answers a next state that meets it, whatever the host has
sent (93_implementation_defined.md: every command in every state has a rule). So no reachable state is stuck. That a
state with no complete command on the port answers a next state, too, is the model's choice (log 1). -/
def Obligations.ReachableStatesNeverStop : Prop :=
  (∀ s : State, s.Inv → ∃ t, step s = .next t ∧ t.Inv) ∧
  ∀ (cfg : Config) (s : State), Reachable cfg s → s.Inv ∧ ∃ t, step s = .next t ∧ Reachable cfg t ∧ t.Inv

/-! ## The LZW inverse law -/

/-- The LZW inverse law (42_lzw_encoder.md R162), from every state with no fault pending: encoding a sequence of
indices that have literal codes and decoding the stream gives the sequence back, with P_FINISH_GROWTH = 1 and unbounded
capacities. -/
def Obligations.LzwInverseLaw : Prop :=
  ∀ (s : State) (cc : Nat) (is : List Nat), s.fault = false → s.cfg.finishGrowth = true →
    s.cfg.bwCap = none → s.cfg.brCap = none → s.cfg.outCap = none → 1 ≤ cc → cc ≤ 256 →
    (∀ i ∈ is, i < 2 ^ max 2 (ceilLog2 cc)) →
    ∃ t, execAll ([.bwClear, .encBegin cc] ++ is.map .encPush ++
        [.encFinish, .brAtHead, .outClear, .decBegin (max 2 (ceilLog2 cc)), .decRun]) s = some t ∧
      t.fault = false ∧ t.dec.state = .done ∧ t.out.toList = is.map (BitVec.ofNat 8)
end

