-- ==== Sys2Proof/Laws/Memory.lean ====
section
/-! SUPPORT. The memories: reading after writing, that every operation keeps the canonical form, and that two
memories in that form with the same length and the same bytes are equal (20_memory.md R68). -/

namespace Sys2Proof.Machine

/-! ## Cells -/

theorem cellsWf_mono {lo lo' len len' : Nat} {cs : List Host.Cell} (h : cellsWf lo len cs = true) (hlo : lo' ≤ lo)
    (hlen : len ≤ len') : cellsWf lo' len' cs = true := by
  induction cs generalizing lo lo' with
  | nil => rfl
  | cons c rest ih =>
    obtain ⟨k, b⟩ := c
    simp only [cellsWf, Bool.and_eq_true, decide_eq_true_eq] at h ⊢
    obtain ⟨⟨⟨h1, h2⟩, h3⟩, h4⟩ := h
    exact ⟨⟨⟨by omega, by omega⟩, h3⟩, ih h4 le_rfl⟩

/-- An address below the first possible one, or past the end, is not listed. -/
theorem cellsRead_outside {lo len : Nat} {cs : List Host.Cell} (h : cellsWf lo len cs = true) {a : Nat}
    (ha : a < lo ∨ len ≤ a) : cellsRead cs a = Memory.unlisted := by
  induction cs generalizing lo with
  | nil => rfl
  | cons c rest ih =>
    obtain ⟨k, b⟩ := c
    simp only [cellsWf, Bool.and_eq_true, decide_eq_true_eq] at h
    obtain ⟨⟨⟨h1, h2⟩, h3⟩, h4⟩ := h
    rw [cellsRead, if_neg (by omega), ih h4 (by omega)]

theorem cellsWf_cellsWrite {lo len : Nat} {cs : List Host.Cell} (h : cellsWf lo len cs = true) {a : Nat} (b : Byte)
    (h1 : lo ≤ a) (h2 : a < len) : cellsWf lo len (cellsWrite cs a b) = true := by
  induction cs generalizing lo with
  | nil =>
    rw [cellsWrite]
    split
    · rfl
    · simp [cellsWf, *]
  | cons c rest ih =>
    obtain ⟨k, c⟩ := c
    simp only [cellsWf, Bool.and_eq_true, decide_eq_true_eq] at h
    obtain ⟨⟨⟨hk, hk'⟩, hc⟩, hrest⟩ := h
    rw [cellsWrite]
    split
    · split
      · simp [cellsWf, *]
      · simp only [cellsWf, Bool.and_eq_true, decide_eq_true_eq]
        exact ⟨⟨⟨h1, h2⟩, ‹_›⟩, ⟨⟨by omega, hk'⟩, hc⟩, hrest⟩
    · split
      · split
        · exact cellsWf_mono hrest (by omega) le_rfl
        · subst a
          simp [cellsWf, *]
      · simp only [cellsWf, Bool.and_eq_true, decide_eq_true_eq]
        exact ⟨⟨⟨hk, hk'⟩, hc⟩, ih hrest (by omega)⟩

theorem cellsRead_cellsWrite {lo len : Nat} {cs : List Host.Cell} (h : cellsWf lo len cs = true) (a : Nat) (b : Byte)
    (a' : Nat) : cellsRead (cellsWrite cs a b) a' = if a' = a then b else cellsRead cs a' := by
  induction cs generalizing lo with
  | nil =>
    rw [cellsWrite]
    split
    · subst b; simp [cellsRead]
    · simp [cellsRead, eq_comm]
  | cons c rest ih =>
    obtain ⟨k, c⟩ := c
    simp only [cellsWf, Bool.and_eq_true, decide_eq_true_eq] at h
    obtain ⟨⟨⟨hk, hk'⟩, hc⟩, hrest⟩ := h
    rw [cellsWrite]
    split
    · split
      · rcases eq_or_ne a' a with rfl | hne
        · subst b
          rw [if_pos rfl, cellsRead, if_neg (by omega), cellsRead_outside hrest (by omega)]
        · rw [if_neg hne]
      · rw [cellsRead]
        simp [eq_comm]
    · split
      · subst k
        split
        · rcases eq_or_ne a' a with rfl | hne
          · subst b
            rw [if_pos rfl, cellsRead_outside hrest (by omega)]
          · rw [if_neg hne, cellsRead, if_neg (Ne.symm hne)]
        · rcases eq_or_ne a' a with rfl | hne
          · simp [cellsRead]
          · simp [cellsRead, hne, Ne.symm hne]
      · rw [cellsRead, ih hrest]
        rcases eq_or_ne k a' with rfl | hne
        · simp only [if_true]
          rw [if_neg (by omega), cellsRead, if_pos rfl]
        · simp [cellsRead, hne]

theorem cells_eq_of_reads {lo len : Nat} {cs cs' : List Host.Cell} (h : cellsWf lo len cs = true)
    (h' : cellsWf lo len cs' = true) (hr : ∀ a, cellsRead cs a = cellsRead cs' a) : cs = cs' := by
  induction cs generalizing lo cs' with
  | nil =>
    cases cs' with
    | nil => rfl
    | cons c rest =>
      obtain ⟨k, b⟩ := c
      simp only [cellsWf, Bool.and_eq_true, decide_eq_true_eq] at h'
      have := hr k
      simp [cellsRead] at this
      exact absurd this.symm h'.1.2
  | cons c rest ih =>
    obtain ⟨k, b⟩ := c
    simp only [cellsWf, Bool.and_eq_true, decide_eq_true_eq] at h
    obtain ⟨⟨⟨hk, hk'⟩, hc⟩, hrest⟩ := h
    cases cs' with
    | nil =>
      have := hr k
      simp [cellsRead] at this
      exact absurd this hc
    | cons c' rest' =>
      obtain ⟨j, d⟩ := c'
      simp only [cellsWf, Bool.and_eq_true, decide_eq_true_eq] at h'
      obtain ⟨⟨⟨hj, hj'⟩, hd⟩, hrest'⟩ := h'
      have hkj : k = j := by
        by_contra hne
        rcases Nat.lt_or_gt_of_ne hne with hlt | hlt
        · have := hr k
          rw [cellsRead, if_pos rfl, cellsRead, if_neg (Ne.symm hne), cellsRead_outside hrest' (by omega)] at this
          exact hc this
        · have := hr j
          rw [cellsRead, if_neg hne, cellsRead, if_pos rfl, cellsRead_outside hrest (by omega)] at this
          exact hd this.symm
      subst hkj
      have hbd : b = d := by simpa [cellsRead] using hr k
      subst hbd
      congr 1
      refine ih hrest hrest' fun a => ?_
      rcases eq_or_ne k a with rfl | hne
      · rw [cellsRead_outside hrest (by omega), cellsRead_outside hrest' (by omega)]
      · simpa [cellsRead, hne] using hr a

/-! ## Memories -/

@[simp] theorem Memory.wf_empty : Memory.empty.wf = true := rfl

@[simp] theorem Memory.len_empty : Memory.empty.len = 0 := rfl

@[simp] theorem Memory.read_empty (a : Nat) : Memory.empty.read a = 0 := rfl

@[simp] theorem Memory.len_append (m : Memory) (b : Byte) : (m.append b).len = m.len + 1 := rfl

@[simp] theorem Memory.len_write (m : Memory) (a : Nat) (b : Byte) : (m.write a b).len = m.len := by
  unfold Memory.write
  split <;> rfl

theorem Memory.read_outside (m : Memory) {a : Nat} (h : m.len ≤ a) : m.read a = 0 := by
  rw [Memory.read, if_neg (by omega)]

/-- In canonical form a read is the listed byte, whatever the address. -/
theorem Memory.read_of_wf {m : Memory} (h : m.wf = true) (a : Nat) : m.read a = cellsRead m.cells a := by
  rw [Memory.read]
  split
  · rfl
  · rw [cellsRead_outside h (by omega)]
    rfl

theorem Memory.wf_append {m : Memory} (h : m.wf = true) (b : Byte) : (m.append b).wf = true :=
  cellsWf_cellsWrite (cellsWf_mono h le_rfl (Nat.le_succ _)) b (Nat.zero_le _) (Nat.lt_succ_self _)

theorem Memory.wf_write {m : Memory} (h : m.wf = true) (a : Nat) (b : Byte) : (m.write a b).wf = true := by
  unfold Memory.write
  split
  · exact cellsWf_cellsWrite h b (Nat.zero_le _) ‹_›
  · exact h

theorem Memory.read_append {m : Memory} (h : m.wf = true) (b : Byte) (a : Nat) :
    (m.append b).read a = if a = m.len then b else m.read a := by
  rw [Memory.read_of_wf (Memory.wf_append h b), Memory.read_of_wf h]
  exact cellsRead_cellsWrite h _ _ _

theorem Memory.read_write {m : Memory} (h : m.wf = true) {a : Nat} (ha : a < m.len) (b : Byte) (a' : Nat) :
    (m.write a b).read a' = if a' = a then b else m.read a' := by
  rw [Memory.read_of_wf (Memory.wf_write h a b), Memory.read_of_wf h, Memory.write, if_pos ha]
  exact cellsRead_cellsWrite h _ _ _

/-- Equal memories are equal data. -/
theorem Memory.eq_of_reads {m m' : Memory} (h : m.wf = true) (h' : m'.wf = true) (hl : m.len = m'.len)
    (hr : ∀ a, m.read a = m'.read a) : m = m' := by
  obtain ⟨len, cs⟩ := m
  obtain ⟨len', cs'⟩ := m'
  obtain rfl : len = len' := hl
  congr 1
  refine cells_eq_of_reads h h' fun a => ?_
  have := hr a
  rwa [Memory.read_of_wf h, Memory.read_of_wf h'] at this

/-! ## Appending a sequence -/

@[simp] theorem Memory.appendIndices_nil (m : Memory) : m.appendIndices [] = m := rfl

theorem Memory.appendIndices_cons (m : Memory) (i : Nat) (is : List Nat) :
    m.appendIndices (i :: is) = (m.append (BitVec.ofNat 8 i)).appendIndices is := rfl

theorem Memory.appendIndices_append (m : Memory) (is js : List Nat) :
    m.appendIndices (is ++ js) = (m.appendIndices is).appendIndices js := by
  induction is generalizing m with
  | nil => rfl
  | cons i is ih => exact ih _

@[simp] theorem Memory.len_appendIndices (m : Memory) (is : List Nat) :
    (m.appendIndices is).len = m.len + is.length := by
  induction is generalizing m with
  | nil => rfl
  | cons i is ih =>
    rw [Memory.appendIndices_cons, ih, Memory.len_append, List.length_cons]
    omega

theorem Memory.wf_appendIndices {m : Memory} (h : m.wf = true) (is : List Nat) : (m.appendIndices is).wf = true := by
  induction is generalizing m with
  | nil => exact h
  | cons i is ih => exact ih (Memory.wf_append h _)

/-- What is there stays, the sequence follows in order, and past it everything reads 0. -/
theorem Memory.read_appendIndices {m : Memory} (h : m.wf = true) (is : List Nat) (a : Nat) :
    (m.appendIndices is).read a =
      if a < m.len then m.read a else BitVec.ofNat 8 (is.getD (a - m.len) 0) := by
  induction is generalizing m with
  | nil =>
    rw [Memory.appendIndices_nil]
    split
    · rfl
    · rw [Memory.read_outside _ (by omega)]
      simp
  | cons i is ih =>
    rw [Memory.appendIndices_cons, ih (Memory.wf_append h _), Memory.read_append h, Memory.len_append]
    rcases Nat.lt_trichotomy a m.len with hlt | rfl | hgt
    · rw [if_pos (by omega), if_neg (by omega), if_pos hlt]
    · simp
    · rw [if_neg (by omega), if_neg (by omega)]
      obtain ⟨d, rfl⟩ : ∃ d, a = m.len + 1 + d := ⟨a - (m.len + 1), by omega⟩
      have h1 : m.len + 1 + d - (m.len + 1) = d := by omega
      have h2 : m.len + 1 + d - m.len = d + 1 := by omega
      rw [h1, h2, List.getD_cons_succ]

end Sys2Proof.Machine
end

