-- ==== Sys2Proof/Laws/Bits.lean ====
section
/-! SUPPORT. The bit primitives (20_memory.md R60 to R63, R77): where a written bit goes, what stays, what a peek
reads, and that a value written and read back at the same position is `v mod 2^n`. -/

namespace Sys2Proof.Machine

/-! ## Bits and bytes -/

@[simp] theorem Memory.bit_empty (p : Nat) : Memory.empty.bit p = false := by simp [Memory.bit]

theorem Memory.bit_outside (m : Memory) {p : Nat} (h : 8 * m.len ≤ p) : m.bit p = false := by
  rw [Memory.bit, m.read_outside (by omega)]
  simp

/-- A byte is its eight bits. -/
theorem Memory.read_eq_of_bits {m m' : Memory} {a : Nat} (h : ∀ i < 8, m.bit (8 * a + i) = m'.bit (8 * a + i)) :
    m.read a = m'.read a := by
  apply BitVec.eq_of_getLsbD_eq
  intro i hi
  have := h i hi
  have h1 : (8 * a + i) / 8 = a := by omega
  have h2 : (8 * a + i) % 8 = i := by omega
  rwa [Memory.bit, Memory.bit, h1, h2] at this

/-- Memories in canonical form with the same length and the same bits are equal. -/
theorem Memory.eq_of_bits {m m' : Memory} (h : m.wf = true) (h' : m'.wf = true) (hl : m.len = m'.len)
    (hb : ∀ p, m.bit p = m'.bit p) : m = m' :=
  Memory.eq_of_reads h h' hl fun _ => Memory.read_eq_of_bits fun _ _ => hb _

theorem Memory.bit_append {m : Memory} (h : m.wf = true) (p : Nat) : (m.append 0).bit p = m.bit p := by
  rw [Memory.bit, Memory.bit, Memory.read_append h]
  split
  · rw [m.read_outside (by omega)]
  · rfl

/-! ## One bit -/

theorem Memory.wf_orBit {m : Memory} (h : m.wf = true) (p : Nat) (b : Bool) : (m.orBit p b).wf = true := by
  unfold Memory.orBit
  split
  · exact Memory.wf_write (Memory.wf_append h _) _ _
  · exact Memory.wf_write h _ _

/-- A position in the byte after the last grows the memory by that byte. -/
theorem Memory.len_orBit (m : Memory) (p : Nat) (b : Bool) :
    (m.orBit p b).len = if p / 8 = m.len then m.len + 1 else m.len := by
  unfold Memory.orBit
  split <;> simp [*]

/-- ORing a bit into a byte that exists. -/
theorem Memory.bit_write_or {m : Memory} (h : m.wf = true) {p : Nat} (hp : p / 8 < m.len) (b : Bool) (q : Nat) :
    (m.write (p / 8) (m.read (p / 8) ||| ((BitVec.ofBool b).setWidth 8 <<< (p % 8)))).bit q =
      if q = p then (m.bit p || b) else m.bit q := by
  rw [Memory.bit, Memory.read_write h hp, Memory.bit, Memory.bit]
  have hq : q % 8 < 8 := Nat.mod_lt _ (by omega)
  have hp8 : p % 8 < 8 := Nat.mod_lt _ (by omega)
  by_cases hbyte : q / 8 = p / 8
  · rw [if_pos hbyte, hbyte]
    simp only [BitVec.getLsbD_or, BitVec.getLsbD_shiftLeft, BitVec.getLsbD_setWidth, hq, decide_true, Bool.true_and]
    by_cases hqp : q = p
    · subst hqp
      simp
    · rw [if_neg hqp]
      rcases Nat.lt_or_ge (q % 8) (p % 8) with hlt | hge
      · simp [hlt]
      · have : 1 ≤ q % 8 - p % 8 := by omega
        simp [BitVec.getLsbD_of_ge _ _ this]
  · rw [if_neg hbyte, if_neg (by rintro rfl; exact hbyte rfl)]

theorem Memory.bit_orBit {m : Memory} (h : m.wf = true) {p : Nat} (hp : p / 8 ≤ m.len) (b : Bool) (q : Nat) :
    (m.orBit p b).bit q = if q = p then (m.bit p || b) else m.bit q := by
  unfold Memory.orBit
  split
  · rw [Memory.bit_write_or (Memory.wf_append h _) (by rw [Memory.len_append]; omega)]
    simp only [Memory.bit_append h]
  · exact Memory.bit_write_or h (by omega) b q

/-! ## WriteBits -/

theorem ceilDiv_eight (a : Nat) : ceilDiv a 8 = (a + 7) / 8 := rfl

theorem Memory.wf_orBits {m : Memory} (h : m.wf = true) (p v n : Nat) : (m.orBits p v n).wf = true := by
  induction n with
  | zero => exact h
  | succ n ih => exact Memory.wf_orBit ih _ _

/-- Written at its end, a memory keeps the length its bit count needs. -/
theorem Memory.len_orBits {m : Memory} {p : Nat} (hl : m.len = ceilDiv p 8) (v n : Nat) :
    (m.orBits p v n).len = ceilDiv (p + n) 8 := by
  induction n with
  | zero => exact hl
  | succ n ih =>
    rw [Memory.orBits, Memory.len_orBit, ih]
    split
    · rename_i hb
      rw [ceilDiv_eight] at hb ⊢
      rw [ceilDiv_eight]
      omega
    · rename_i hb
      rw [ceilDiv_eight] at hb ⊢
      rw [ceilDiv_eight]
      omega

theorem Memory.bit_orBits {m : Memory} (h : m.wf = true) {p : Nat} (hl : m.len = ceilDiv p 8) (v n q : Nat) :
    (m.orBits p v n).bit q = if p ≤ q ∧ q < p + n then (m.bit q || v.testBit (q - p)) else m.bit q := by
  induction n with
  | zero => simp [Memory.orBits]
  | succ n ih =>
    rw [Memory.orBits, Memory.bit_orBit (Memory.wf_orBits h _ _ _)
      (by rw [Memory.len_orBits hl, ceilDiv_eight]; omega), ih]
    by_cases hq : q = p + n
    · subst hq
      rw [if_pos rfl, if_pos (by omega), ih, if_neg (by omega)]
      simp
    · rw [if_neg hq]
      by_cases hr : p ≤ q ∧ q < p + n
      · rw [if_pos hr, if_pos (by omega)]
      · rw [if_neg hr, if_neg (by omega)]

@[simp] theorem BitWriter.writeBits_bitpos (w : BitWriter) (v n : Nat) :
    (w.writeBits v n).bitpos = w.bitpos + n := rfl

@[simp] theorem BitWriter.writeBits_zero (w : BitWriter) (v : Nat) : w.writeBits v 0 = w := rfl

theorem BitWriter.wf_writeBits {w : BitWriter} (h : w.mem.wf = true) (v n : Nat) : (w.writeBits v n).mem.wf = true :=
  Memory.wf_orBits h _ _ _

theorem BitWriter.len_writeBits {w : BitWriter} (hl : w.mem.len = ceilDiv w.bitpos 8) (v n : Nat) :
    (w.writeBits v n).mem.len = ceilDiv (w.bitpos + n) 8 :=
  Memory.len_orBits hl v n

/-- WriteBits, where the writer's length and padding are as 10_state.md R29 says: the bits before the cursor stay,
the next `n` are the value's, and the rest are 0. -/
theorem BitWriter.bit_writeBits {w : BitWriter} (h : w.mem.wf = true) (hl : w.mem.len = ceilDiv w.bitpos 8)
    (hpad : ∀ p, w.bitpos ≤ p → w.mem.bit p = false) (v n q : Nat) :
    (w.writeBits v n).mem.bit q =
      if q < w.bitpos then w.mem.bit q else if q < w.bitpos + n then v.testBit (q - w.bitpos) else false := by
  rw [BitWriter.writeBits, Memory.bit_orBits h hl]
  by_cases hq : q < w.bitpos
  · rw [if_pos hq, if_neg (by omega)]
  · rw [if_neg hq, hpad q (by omega)]
    by_cases hn : q < w.bitpos + n
    · rw [if_pos hn, if_pos (by omega), Bool.false_or]
    · rw [if_neg hn, if_neg (by omega)]

/-! ## PeekBits -/

theorem Memory.testBit_bitsAt (m : Memory) (p n j : Nat) :
    (m.bitsAt p n).testBit j = (decide (j < n) && m.bit (p + j)) := by
  induction n with
  | zero => simp [Memory.bitsAt]
  | succ n ih =>
    rw [Memory.bitsAt, Nat.testBit_or, ih, Nat.testBit_shiftLeft]
    rcases Nat.lt_trichotomy j n with hlt | rfl | hgt
    · have : ¬ n ≤ j := by omega
      simp [hlt, this, Nat.lt_succ_of_lt hlt]
    · cases hb : m.bit (p + j) <;> simp
    · have h1 : ¬ j < n := by omega
      have h2 : ¬ j < n + 1 := by omega
      obtain ⟨d, hd⟩ : ∃ d, j - n = d + 1 := ⟨j - n - 1, by omega⟩
      cases m.bit (p + n) <;> simp [h1, h2, hd, Nat.testBit_succ]

theorem Memory.bitsAt_lt (m : Memory) (p n : Nat) : m.bitsAt p n < 2 ^ n := by
  apply Nat.lt_pow_two_of_testBit
  intro j hj
  rw [Memory.testBit_bitsAt]
  have : ¬ j < n := by omega
  simp [this]

/-- A peek gives a value exactly when enough bits remain. -/
theorem BitReader.peekBits_eq_some {r : BitReader} {n v : Nat} :
    r.peekBits n = some v ↔ r.bitpos + n ≤ 8 * r.mem.len ∧ r.mem.bitsAt r.bitpos n = v := by
  rw [BitReader.peekBits]
  split
  · simp only [reduceCtorEq, false_iff, not_and]; omega
  · simp only [Option.some.injEq]
    constructor
    · intro h; exact ⟨by omega, h⟩
    · exact fun h => h.2

theorem BitReader.peekBits_eq_none {r : BitReader} {n : Nat} :
    r.peekBits n = none ↔ 8 * r.mem.len < r.bitpos + n := by
  rw [BitReader.peekBits]
  split
  · simp only [true_iff]; omega
  · simp only [reduceCtorEq, false_iff]; omega

/-- Two memories with the same bits from `p` to `p + n` peek the same there. -/
theorem Memory.bitsAt_congr {m m' : Memory} {p p' n : Nat} (h : ∀ j < n, m.bit (p + j) = m'.bit (p' + j)) :
    m.bitsAt p n = m'.bitsAt p' n := by
  apply Nat.eq_of_testBit_eq
  intro j
  rw [Memory.testBit_bitsAt, Memory.testBit_bitsAt]
  by_cases hj : j < n
  · simp [hj, h j hj]
  · simp [hj]

/-- A field of a memory whose bits are those of a value reads as that value, modulo `2^n`. -/
theorem Memory.bitsAt_eq_mod {m : Memory} {p n v : Nat} (h : ∀ j < n, m.bit (p + j) = v.testBit j) :
    m.bitsAt p n = v % 2 ^ n := by
  apply Nat.eq_of_testBit_eq
  intro j
  rw [Memory.testBit_bitsAt, Nat.testBit_mod_two_pow]
  by_cases hj : j < n
  · simp [hj, h j hj]
  · simp [hj]

end Sys2Proof.Machine
end

