-- ==== Sys2Proof/Laws/State.lean ====
section
/-! SUPPORT. What each update of State leaves in each field: one lemma per field per update, each true by rfl. -/

namespace Sys2Proof.Machine

variable (s : State)

/-! ## setLastResult -/

@[simp] theorem State.setLastResult_cfg (r : ResultCode) : (s.setLastResult r).cfg = s.cfg := rfl
@[simp] theorem State.setLastResult_cmdPort (r : ResultCode) : (s.setLastResult r).cmdPort = s.cmdPort := rfl
@[simp] theorem State.setLastResult_partCmd (r : ResultCode) : (s.setLastResult r).partCmd = s.partCmd := rfl
@[simp] theorem State.setLastResult_cp (r : ResultCode) : (s.setLastResult r).cp = s.cp := rfl
@[simp] theorem State.setLastResult_fault (r : ResultCode) : (s.setLastResult r).fault = s.fault := rfl
@[simp] theorem State.setLastResult_faultCode (r : ResultCode) : (s.setLastResult r).faultCode = s.faultCode := rfl
@[simp] theorem State.setLastResult_lastResult (r : ResultCode) : (s.setLastResult r).lastResult = r := rfl
@[simp] theorem State.setLastResult_result (r : ResultCode) : (s.setLastResult r).result = s.result := rfl
@[simp] theorem State.setLastResult_bw (r : ResultCode) : (s.setLastResult r).bw = s.bw := rfl
@[simp] theorem State.setLastResult_br (r : ResultCode) : (s.setLastResult r).br = s.br := rfl
@[simp] theorem State.setLastResult_enc (r : ResultCode) : (s.setLastResult r).enc = s.enc := rfl
@[simp] theorem State.setLastResult_dec (r : ResultCode) : (s.setLastResult r).dec = s.dec := rfl
@[simp] theorem State.setLastResult_out (r : ResultCode) : (s.setLastResult r).out = s.out := rfl

/-! ## setResult -/

@[simp] theorem State.setResult_cfg (v : BitVec 64) : (s.setResult v).cfg = s.cfg := rfl
@[simp] theorem State.setResult_cmdPort (v : BitVec 64) : (s.setResult v).cmdPort = s.cmdPort := rfl
@[simp] theorem State.setResult_partCmd (v : BitVec 64) : (s.setResult v).partCmd = s.partCmd := rfl
@[simp] theorem State.setResult_cp (v : BitVec 64) : (s.setResult v).cp = s.cp := rfl
@[simp] theorem State.setResult_fault (v : BitVec 64) : (s.setResult v).fault = s.fault := rfl
@[simp] theorem State.setResult_faultCode (v : BitVec 64) : (s.setResult v).faultCode = s.faultCode := rfl
@[simp] theorem State.setResult_lastResult (v : BitVec 64) : (s.setResult v).lastResult = s.lastResult := rfl
@[simp] theorem State.setResult_result (v : BitVec 64) : (s.setResult v).result = v := rfl
@[simp] theorem State.setResult_bw (v : BitVec 64) : (s.setResult v).bw = s.bw := rfl
@[simp] theorem State.setResult_br (v : BitVec 64) : (s.setResult v).br = s.br := rfl
@[simp] theorem State.setResult_enc (v : BitVec 64) : (s.setResult v).enc = s.enc := rfl
@[simp] theorem State.setResult_dec (v : BitVec 64) : (s.setResult v).dec = s.dec := rfl
@[simp] theorem State.setResult_out (v : BitVec 64) : (s.setResult v).out = s.out := rfl

/-! ## setBw -/

@[simp] theorem State.setBw_cfg (w : BitWriter) : (s.setBw w).cfg = s.cfg := rfl
@[simp] theorem State.setBw_cmdPort (w : BitWriter) : (s.setBw w).cmdPort = s.cmdPort := rfl
@[simp] theorem State.setBw_partCmd (w : BitWriter) : (s.setBw w).partCmd = s.partCmd := rfl
@[simp] theorem State.setBw_cp (w : BitWriter) : (s.setBw w).cp = s.cp := rfl
@[simp] theorem State.setBw_fault (w : BitWriter) : (s.setBw w).fault = s.fault := rfl
@[simp] theorem State.setBw_faultCode (w : BitWriter) : (s.setBw w).faultCode = s.faultCode := rfl
@[simp] theorem State.setBw_lastResult (w : BitWriter) : (s.setBw w).lastResult = s.lastResult := rfl
@[simp] theorem State.setBw_result (w : BitWriter) : (s.setBw w).result = s.result := rfl
@[simp] theorem State.setBw_bw (w : BitWriter) : (s.setBw w).bw = w := rfl
@[simp] theorem State.setBw_br (w : BitWriter) : (s.setBw w).br = s.br := rfl
@[simp] theorem State.setBw_enc (w : BitWriter) : (s.setBw w).enc = s.enc := rfl
@[simp] theorem State.setBw_dec (w : BitWriter) : (s.setBw w).dec = s.dec := rfl
@[simp] theorem State.setBw_out (w : BitWriter) : (s.setBw w).out = s.out := rfl

/-! ## setBr -/

@[simp] theorem State.setBr_cfg (r : BitReader) : (s.setBr r).cfg = s.cfg := rfl
@[simp] theorem State.setBr_cmdPort (r : BitReader) : (s.setBr r).cmdPort = s.cmdPort := rfl
@[simp] theorem State.setBr_partCmd (r : BitReader) : (s.setBr r).partCmd = s.partCmd := rfl
@[simp] theorem State.setBr_cp (r : BitReader) : (s.setBr r).cp = s.cp := rfl
@[simp] theorem State.setBr_fault (r : BitReader) : (s.setBr r).fault = s.fault := rfl
@[simp] theorem State.setBr_faultCode (r : BitReader) : (s.setBr r).faultCode = s.faultCode := rfl
@[simp] theorem State.setBr_lastResult (r : BitReader) : (s.setBr r).lastResult = s.lastResult := rfl
@[simp] theorem State.setBr_result (r : BitReader) : (s.setBr r).result = s.result := rfl
@[simp] theorem State.setBr_bw (r : BitReader) : (s.setBr r).bw = s.bw := rfl
@[simp] theorem State.setBr_br (r : BitReader) : (s.setBr r).br = r := rfl
@[simp] theorem State.setBr_enc (r : BitReader) : (s.setBr r).enc = s.enc := rfl
@[simp] theorem State.setBr_dec (r : BitReader) : (s.setBr r).dec = s.dec := rfl
@[simp] theorem State.setBr_out (r : BitReader) : (s.setBr r).out = s.out := rfl

/-! ## setEnc -/

@[simp] theorem State.setEnc_cfg (e : Encoder) : (s.setEnc e).cfg = s.cfg := rfl
@[simp] theorem State.setEnc_cmdPort (e : Encoder) : (s.setEnc e).cmdPort = s.cmdPort := rfl
@[simp] theorem State.setEnc_partCmd (e : Encoder) : (s.setEnc e).partCmd = s.partCmd := rfl
@[simp] theorem State.setEnc_cp (e : Encoder) : (s.setEnc e).cp = s.cp := rfl
@[simp] theorem State.setEnc_fault (e : Encoder) : (s.setEnc e).fault = s.fault := rfl
@[simp] theorem State.setEnc_faultCode (e : Encoder) : (s.setEnc e).faultCode = s.faultCode := rfl
@[simp] theorem State.setEnc_lastResult (e : Encoder) : (s.setEnc e).lastResult = s.lastResult := rfl
@[simp] theorem State.setEnc_result (e : Encoder) : (s.setEnc e).result = s.result := rfl
@[simp] theorem State.setEnc_bw (e : Encoder) : (s.setEnc e).bw = s.bw := rfl
@[simp] theorem State.setEnc_br (e : Encoder) : (s.setEnc e).br = s.br := rfl
@[simp] theorem State.setEnc_enc (e : Encoder) : (s.setEnc e).enc = e := rfl
@[simp] theorem State.setEnc_dec (e : Encoder) : (s.setEnc e).dec = s.dec := rfl
@[simp] theorem State.setEnc_out (e : Encoder) : (s.setEnc e).out = s.out := rfl

/-! ## setDec -/

@[simp] theorem State.setDec_cfg (d : Decoder) : (s.setDec d).cfg = s.cfg := rfl
@[simp] theorem State.setDec_cmdPort (d : Decoder) : (s.setDec d).cmdPort = s.cmdPort := rfl
@[simp] theorem State.setDec_partCmd (d : Decoder) : (s.setDec d).partCmd = s.partCmd := rfl
@[simp] theorem State.setDec_cp (d : Decoder) : (s.setDec d).cp = s.cp := rfl
@[simp] theorem State.setDec_fault (d : Decoder) : (s.setDec d).fault = s.fault := rfl
@[simp] theorem State.setDec_faultCode (d : Decoder) : (s.setDec d).faultCode = s.faultCode := rfl
@[simp] theorem State.setDec_lastResult (d : Decoder) : (s.setDec d).lastResult = s.lastResult := rfl
@[simp] theorem State.setDec_result (d : Decoder) : (s.setDec d).result = s.result := rfl
@[simp] theorem State.setDec_bw (d : Decoder) : (s.setDec d).bw = s.bw := rfl
@[simp] theorem State.setDec_br (d : Decoder) : (s.setDec d).br = s.br := rfl
@[simp] theorem State.setDec_enc (d : Decoder) : (s.setDec d).enc = s.enc := rfl
@[simp] theorem State.setDec_dec (d : Decoder) : (s.setDec d).dec = d := rfl
@[simp] theorem State.setDec_out (d : Decoder) : (s.setDec d).out = s.out := rfl

/-! ## setOut -/

@[simp] theorem State.setOut_cfg (m : Memory) : (s.setOut m).cfg = s.cfg := rfl
@[simp] theorem State.setOut_cmdPort (m : Memory) : (s.setOut m).cmdPort = s.cmdPort := rfl
@[simp] theorem State.setOut_partCmd (m : Memory) : (s.setOut m).partCmd = s.partCmd := rfl
@[simp] theorem State.setOut_cp (m : Memory) : (s.setOut m).cp = s.cp := rfl
@[simp] theorem State.setOut_fault (m : Memory) : (s.setOut m).fault = s.fault := rfl
@[simp] theorem State.setOut_faultCode (m : Memory) : (s.setOut m).faultCode = s.faultCode := rfl
@[simp] theorem State.setOut_lastResult (m : Memory) : (s.setOut m).lastResult = s.lastResult := rfl
@[simp] theorem State.setOut_result (m : Memory) : (s.setOut m).result = s.result := rfl
@[simp] theorem State.setOut_bw (m : Memory) : (s.setOut m).bw = s.bw := rfl
@[simp] theorem State.setOut_br (m : Memory) : (s.setOut m).br = s.br := rfl
@[simp] theorem State.setOut_enc (m : Memory) : (s.setOut m).enc = s.enc := rfl
@[simp] theorem State.setOut_dec (m : Memory) : (s.setOut m).dec = s.dec := rfl
@[simp] theorem State.setOut_out (m : Memory) : (s.setOut m).out = m := rfl

/-! ## advanceCp -/

@[simp] theorem State.advanceCp_cfg (n : Nat) : (s.advanceCp n).cfg = s.cfg := rfl
@[simp] theorem State.advanceCp_cmdPort (n : Nat) : (s.advanceCp n).cmdPort = s.cmdPort := rfl
@[simp] theorem State.advanceCp_partCmd (n : Nat) : (s.advanceCp n).partCmd = s.partCmd := rfl
@[simp] theorem State.advanceCp_cp (n : Nat) : (s.advanceCp n).cp = s.cp + BitVec.ofNat 32 n := rfl
@[simp] theorem State.advanceCp_fault (n : Nat) : (s.advanceCp n).fault = s.fault := rfl
@[simp] theorem State.advanceCp_faultCode (n : Nat) : (s.advanceCp n).faultCode = s.faultCode := rfl
@[simp] theorem State.advanceCp_lastResult (n : Nat) : (s.advanceCp n).lastResult = s.lastResult := rfl
@[simp] theorem State.advanceCp_result (n : Nat) : (s.advanceCp n).result = s.result := rfl
@[simp] theorem State.advanceCp_bw (n : Nat) : (s.advanceCp n).bw = s.bw := rfl
@[simp] theorem State.advanceCp_br (n : Nat) : (s.advanceCp n).br = s.br := rfl
@[simp] theorem State.advanceCp_enc (n : Nat) : (s.advanceCp n).enc = s.enc := rfl
@[simp] theorem State.advanceCp_dec (n : Nat) : (s.advanceCp n).dec = s.dec := rfl
@[simp] theorem State.advanceCp_out (n : Nat) : (s.advanceCp n).out = s.out := rfl

/-! ## setPort -/

@[simp] theorem State.setPort_cfg (ws : List Word) (p : PartCommand) : (s.setPort ws p).cfg = s.cfg := rfl
@[simp] theorem State.setPort_cmdPort (ws : List Word) (p : PartCommand) : (s.setPort ws p).cmdPort = ws := rfl
@[simp] theorem State.setPort_partCmd (ws : List Word) (p : PartCommand) : (s.setPort ws p).partCmd = p := rfl
@[simp] theorem State.setPort_cp (ws : List Word) (p : PartCommand) : (s.setPort ws p).cp = s.cp := rfl
@[simp] theorem State.setPort_fault (ws : List Word) (p : PartCommand) : (s.setPort ws p).fault = s.fault := rfl
@[simp] theorem State.setPort_faultCode (ws : List Word) (p : PartCommand) : (s.setPort ws p).faultCode = s.faultCode := rfl
@[simp] theorem State.setPort_lastResult (ws : List Word) (p : PartCommand) : (s.setPort ws p).lastResult = s.lastResult := rfl
@[simp] theorem State.setPort_result (ws : List Word) (p : PartCommand) : (s.setPort ws p).result = s.result := rfl
@[simp] theorem State.setPort_bw (ws : List Word) (p : PartCommand) : (s.setPort ws p).bw = s.bw := rfl
@[simp] theorem State.setPort_br (ws : List Word) (p : PartCommand) : (s.setPort ws p).br = s.br := rfl
@[simp] theorem State.setPort_enc (ws : List Word) (p : PartCommand) : (s.setPort ws p).enc = s.enc := rfl
@[simp] theorem State.setPort_dec (ws : List Word) (p : PartCommand) : (s.setPort ws p).dec = s.dec := rfl
@[simp] theorem State.setPort_out (ws : List Word) (p : PartCommand) : (s.setPort ws p).out = s.out := rfl

/-! ## raiseFault -/

@[simp] theorem State.raiseFault_cfg (f : FaultCode) : (s.raiseFault f).cfg = s.cfg := rfl
@[simp] theorem State.raiseFault_cmdPort (f : FaultCode) : (s.raiseFault f).cmdPort = s.cmdPort := rfl
@[simp] theorem State.raiseFault_partCmd (f : FaultCode) : (s.raiseFault f).partCmd = s.partCmd := rfl
@[simp] theorem State.raiseFault_cp (f : FaultCode) : (s.raiseFault f).cp = s.cp := rfl
@[simp] theorem State.raiseFault_fault (f : FaultCode) : (s.raiseFault f).fault = true := rfl
@[simp] theorem State.raiseFault_faultCode (f : FaultCode) : (s.raiseFault f).faultCode = .fault f := rfl
@[simp] theorem State.raiseFault_lastResult (f : FaultCode) : (s.raiseFault f).lastResult = .fault f := rfl
@[simp] theorem State.raiseFault_result (f : FaultCode) : (s.raiseFault f).result = s.result := rfl
@[simp] theorem State.raiseFault_bw (f : FaultCode) : (s.raiseFault f).bw = s.bw := rfl
@[simp] theorem State.raiseFault_br (f : FaultCode) : (s.raiseFault f).br = s.br := rfl
@[simp] theorem State.raiseFault_enc (f : FaultCode) : (s.raiseFault f).enc = s.enc := rfl
@[simp] theorem State.raiseFault_dec (f : FaultCode) : (s.raiseFault f).dec = s.dec := rfl
@[simp] theorem State.raiseFault_out (f : FaultCode) : (s.raiseFault f).out = s.out := rfl

/-! ## raiseError -/

@[simp] theorem State.raiseError_cfg (e : ResultCode) : (s.raiseError e).cfg = s.cfg := rfl
@[simp] theorem State.raiseError_cmdPort (e : ResultCode) : (s.raiseError e).cmdPort = s.cmdPort := rfl
@[simp] theorem State.raiseError_partCmd (e : ResultCode) : (s.raiseError e).partCmd = s.partCmd := rfl
@[simp] theorem State.raiseError_cp (e : ResultCode) : (s.raiseError e).cp = s.cp := rfl
@[simp] theorem State.raiseError_fault (e : ResultCode) : (s.raiseError e).fault = s.fault := rfl
@[simp] theorem State.raiseError_faultCode (e : ResultCode) : (s.raiseError e).faultCode = s.faultCode := rfl
@[simp] theorem State.raiseError_lastResult (e : ResultCode) : (s.raiseError e).lastResult = e := rfl
@[simp] theorem State.raiseError_result (e : ResultCode) : (s.raiseError e).result = s.result := rfl
@[simp] theorem State.raiseError_bw (e : ResultCode) : (s.raiseError e).bw = s.bw := rfl
@[simp] theorem State.raiseError_br (e : ResultCode) : (s.raiseError e).br = s.br := rfl
@[simp] theorem State.raiseError_enc (e : ResultCode) : (s.raiseError e).enc = s.enc := rfl
@[simp] theorem State.raiseError_dec (e : ResultCode) : (s.raiseError e).dec = s.dec := rfl
@[simp] theorem State.raiseError_out (e : ResultCode) : (s.raiseError e).out = s.out := rfl

/-! ## raiseDecodeError -/

@[simp] theorem State.raiseDecodeError_cfg (e : ErrorCode) : (s.raiseDecodeError e).cfg = s.cfg := rfl
@[simp] theorem State.raiseDecodeError_cmdPort (e : ErrorCode) : (s.raiseDecodeError e).cmdPort = s.cmdPort := rfl
@[simp] theorem State.raiseDecodeError_partCmd (e : ErrorCode) : (s.raiseDecodeError e).partCmd = s.partCmd := rfl
@[simp] theorem State.raiseDecodeError_cp (e : ErrorCode) : (s.raiseDecodeError e).cp = s.cp := rfl
@[simp] theorem State.raiseDecodeError_fault (e : ErrorCode) : (s.raiseDecodeError e).fault = s.fault := rfl
@[simp] theorem State.raiseDecodeError_faultCode (e : ErrorCode) : (s.raiseDecodeError e).faultCode = s.faultCode := rfl
@[simp] theorem State.raiseDecodeError_lastResult (e : ErrorCode) : (s.raiseDecodeError e).lastResult = .error e := rfl
@[simp] theorem State.raiseDecodeError_result (e : ErrorCode) : (s.raiseDecodeError e).result = s.result := rfl
@[simp] theorem State.raiseDecodeError_bw (e : ErrorCode) : (s.raiseDecodeError e).bw = s.bw := rfl
@[simp] theorem State.raiseDecodeError_br (e : ErrorCode) : (s.raiseDecodeError e).br = s.br := rfl
@[simp] theorem State.raiseDecodeError_enc (e : ErrorCode) : (s.raiseDecodeError e).enc = s.enc := rfl
@[simp] theorem State.raiseDecodeError_dec (e : ErrorCode) : (s.raiseDecodeError e).dec = { s.dec with state := .error, err := .error e } := rfl
@[simp] theorem State.raiseDecodeError_out (e : ErrorCode) : (s.raiseDecodeError e).out = s.out := rfl

/-! ## reject -/

@[simp] theorem State.reject_cfg : (s.reject).cfg = s.cfg := rfl
@[simp] theorem State.reject_cmdPort : (s.reject).cmdPort = s.cmdPort := rfl
@[simp] theorem State.reject_partCmd : (s.reject).partCmd = s.partCmd := rfl
@[simp] theorem State.reject_cp : (s.reject).cp = s.cp := rfl
@[simp] theorem State.reject_fault : (s.reject).fault = s.fault := rfl
@[simp] theorem State.reject_faultCode : (s.reject).faultCode = s.faultCode := rfl
@[simp] theorem State.reject_lastResult : (s.reject).lastResult = .faulted := rfl
@[simp] theorem State.reject_result : (s.reject).result = s.result := rfl
@[simp] theorem State.reject_bw : (s.reject).bw = s.bw := rfl
@[simp] theorem State.reject_br : (s.reject).br = s.br := rfl
@[simp] theorem State.reject_enc : (s.reject).enc = s.enc := rfl
@[simp] theorem State.reject_dec : (s.reject).dec = s.dec := rfl
@[simp] theorem State.reject_out : (s.reject).out = s.out := rfl

/-! ## softReset -/

@[simp] theorem State.softReset_cfg : s.softReset.cfg = s.cfg := rfl
@[simp] theorem State.softReset_cmdPort : s.softReset.cmdPort = s.cmdPort := rfl
@[simp] theorem State.softReset_partCmd : s.softReset.partCmd = .none := rfl
@[simp] theorem State.softReset_cp : s.softReset.cp = s.cp := rfl
@[simp] theorem State.softReset_fault : s.softReset.fault = false := rfl
@[simp] theorem State.softReset_faultCode : s.softReset.faultCode = .ok := rfl
@[simp] theorem State.softReset_lastResult : s.softReset.lastResult = .ok := rfl
@[simp] theorem State.softReset_result : s.softReset.result = 0 := rfl
@[simp] theorem State.softReset_bw : s.softReset.bw = BitWriter.reset := rfl
@[simp] theorem State.softReset_br : s.softReset.br = BitReader.reset := rfl
@[simp] theorem State.softReset_enc : s.softReset.enc = Encoder.reset := rfl
@[simp] theorem State.softReset_dec : s.softReset.dec = Decoder.reset := rfl
@[simp] theorem State.softReset_out : s.softReset.out = Memory.empty := rfl

/-! ## resetWith -/

@[simp] theorem State.resetWith_cfg (cfg : Config) : (State.resetWith cfg).cfg = cfg := rfl
@[simp] theorem State.resetWith_cmdPort (cfg : Config) : (State.resetWith cfg).cmdPort = [] := rfl
@[simp] theorem State.resetWith_partCmd (cfg : Config) : (State.resetWith cfg).partCmd = .none := rfl
@[simp] theorem State.resetWith_cp (cfg : Config) : (State.resetWith cfg).cp = 0 := rfl
@[simp] theorem State.resetWith_fault (cfg : Config) : (State.resetWith cfg).fault = false := rfl
@[simp] theorem State.resetWith_faultCode (cfg : Config) : (State.resetWith cfg).faultCode = .ok := rfl
@[simp] theorem State.resetWith_lastResult (cfg : Config) : (State.resetWith cfg).lastResult = .ok := rfl
@[simp] theorem State.resetWith_result (cfg : Config) : (State.resetWith cfg).result = 0 := rfl
@[simp] theorem State.resetWith_bw (cfg : Config) : (State.resetWith cfg).bw = BitWriter.reset := rfl
@[simp] theorem State.resetWith_br (cfg : Config) : (State.resetWith cfg).br = BitReader.reset := rfl
@[simp] theorem State.resetWith_enc (cfg : Config) : (State.resetWith cfg).enc = Encoder.reset := rfl
@[simp] theorem State.resetWith_dec (cfg : Config) : (State.resetWith cfg).dec = Decoder.reset := rfl
@[simp] theorem State.resetWith_out (cfg : Config) : (State.resetWith cfg).out = Memory.empty := rfl

end Sys2Proof.Machine
end

