-- ==== Sys2Proof/Laws/Units.lean ====
section
/-! SUPPORT. The invariants of the bit writer, the bit reader and OUT_MEM are kept by every operation on them, and
the arithmetic of code sizes (41_lzw_table.md R130, R131). -/

namespace Sys2Proof.Machine

/-! ## The constants -/

@[simp] theorem wordBits_eq : wordBits = 64 := rfl
@[simp] theorem maxCodeSize_eq : maxCodeSize = 12 := rfl
@[simp] theorem encResetCount_eq : encResetCount = 4095 := rfl
@[simp] theorem decTableLimit_eq : decTableLimit = 4096 := rfl

/-! ## Operand ranges (30_encoding.md R87) -/

theorem bitCountInRange_iff {n : Nat} : bitCountInRange n = true ↔ n ≤ 64 := decide_eq_true_iff

theorem colorCountInRange_iff {cc : Nat} : colorCountInRange cc = true ↔ 1 ≤ cc ∧ cc ≤ 256 := by
  simp [colorCountInRange]

theorem minCodeSizeInRange_iff {m : Nat} : minCodeSizeInRange m = true ↔ 2 ≤ m ∧ m ≤ 8 := by
  simp [minCodeSizeInRange]

/-! ## Bit writer -/

theorem BitWriter.Inv.writeBits {cfg : Config} {w : BitWriter} (h : w.Inv cfg) (v n : Nat)
    (hc : withinCap cfg.bwCap (ceilDiv (w.bitpos + n) 8) = true) : (w.writeBits v n).Inv cfg where
  canonical := BitWriter.wf_writeBits h.canonical v n
  length := BitWriter.len_writeBits h.length v n
  padding := fun p hp => by
    rw [BitWriter.bit_writeBits h.canonical h.length h.padding, if_neg, if_neg]
    · rw [BitWriter.writeBits_bitpos] at hp; omega
    · rw [BitWriter.writeBits_bitpos] at hp; omega
  capacity := by rw [BitWriter.len_writeBits h.length]; exact hc

/-- A smaller memory keeps the capacity a larger one keeps. -/
theorem withinCap_mono {cap : Option Nat} {a b : Nat} (h : withinCap cap b = true) (hab : a ≤ b) :
    withinCap cap a = true := by
  cases cap with
  | none => rfl
  | some c => simp only [withinCap, decide_eq_true_eq] at h ⊢; omega

@[simp] theorem withinCap_zero (cap : Option Nat) : withinCap cap 0 = true := by cases cap <;> simp [withinCap]

@[simp] theorem withinCap_none (n : Nat) : withinCap none n = true := rfl

theorem BitWriter.inv_empty (cfg : Config) : BitWriter.Inv cfg { mem := Memory.empty, bitpos := 0 } where
  canonical := rfl
  length := rfl
  padding := fun p _ => by simp
  capacity := by simp

/-- WriteBits appends the low bits of its value (20_memory.md R61). -/
theorem BitWriter.Inv.appended {cfg : Config} {w : BitWriter} (h : w.Inv cfg) (v n : Nat) :
    w.Appended (w.writeBits v n) v n where
  cursor := rfl
  length := BitWriter.len_writeBits h.length v n
  bits := BitWriter.bit_writeBits h.canonical h.length h.padding v n
  frame := fun a ha => by
    apply Memory.read_eq_of_bits
    intro i hi
    rw [BitWriter.bit_writeBits h.canonical h.length h.padding]
    split
    · rfl
    · rw [if_neg (by omega), h.padding]
      omega

/-- WriteBits keeps the bits already written. -/
theorem BitWriter.Inv.bit_writeBits_of_lt {cfg : Config} {w : BitWriter} (h : w.Inv cfg) (v n : Nat) {p : Nat}
    (hp : p < w.bitpos) : (w.writeBits v n).mem.bit p = w.mem.bit p := by
  rw [BitWriter.bit_writeBits h.canonical h.length h.padding, if_pos hp]

/-! ## Bit reader -/

/-- The value PeekBits finds where the reader holds it (20_memory.md R62). -/
theorem BitReader.Holds.peekBits {r : BitReader} {n c : Nat} (h : r.Holds n c) : r.peekBits n = some c := by
  rw [BitReader.peekBits_eq_some]
  refine ⟨h.enough, Nat.eq_of_testBit_eq fun j => ?_⟩
  rw [Memory.testBit_bitsAt, h.bits]

/-- The reader holds the value PeekBits finds (20_memory.md R62). -/
theorem BitReader.holds_of_peekBits {r : BitReader} {n c : Nat} (h : r.peekBits n = some c) : r.Holds n c := by
  rw [BitReader.peekBits_eq_some] at h
  exact ⟨h.1, fun j => by rw [← h.2, Memory.testBit_bitsAt]⟩

theorem BitReader.inv_empty (cfg : Config) : BitReader.Inv cfg { mem := Memory.empty, bitpos := 0 } where
  canonical := rfl
  cursor := by simp
  capacity := by simp

theorem BitReader.Inv.append {cfg : Config} {r : BitReader} (h : r.Inv cfg) (b : Byte)
    (hc : withinCap cfg.brCap (r.mem.len + 1) = true) : BitReader.Inv cfg { r with mem := r.mem.append b } where
  canonical := Memory.wf_append h.canonical b
  cursor := by have := h.cursor; simp only [Memory.len_append]; omega
  capacity := hc

theorem BitReader.Inv.advance {cfg : Config} {r : BitReader} (h : r.Inv cfg) {n : Nat}
    (hn : r.bitpos + n ≤ 8 * r.mem.len) : (r.advance n).Inv cfg where
  canonical := h.canonical
  cursor := hn
  capacity := h.capacity

/-- BR_AT_HEAD's snapshot (40_bitstream.md R108). -/
theorem BitReader.inv_atHead {cfg : Config} {m : Memory} (h : m.wf = true) (hc : withinCap cfg.brCap m.len = true) :
    BitReader.Inv cfg { mem := m, bitpos := 0 } where
  canonical := h
  cursor := Nat.zero_le _
  capacity := hc

/-! ## OUT_MEM -/

theorem outInv_empty (cfg : Config) : OutInv cfg Memory.empty where
  canonical := rfl
  capacity := by simp

theorem OutInv.appendIndices {cfg : Config} {m : Memory} (h : OutInv cfg m) (is : List Nat)
    (hc : withinCap cfg.outCap (m.len + is.length) = true) : OutInv cfg (m.appendIndices is) where
  canonical := Memory.wf_appendIndices h.canonical is
  capacity := by rw [Memory.len_appendIndices]; exact hc

theorem Memory.extended_appendIndices {m : Memory} (h : m.wf = true) (is : List Nat) :
    m.Extended (m.appendIndices is) is where
  length := Memory.len_appendIndices m is
  reads := Memory.read_appendIndices h is

/-- The elements of a memory that was filled from empty. -/
theorem Memory.toList_appendIndices (is : List Nat) :
    (Memory.empty.appendIndices is).toList = is.map (BitVec.ofNat 8) := by
  have hw : Memory.empty.wf = true := rfl
  apply List.ext_getElem
  · simp [Memory.toList]
  · intro a h1 h2
    have h3 : a < is.length := by simpa using h2
    simp [Memory.toList, Memory.read_appendIndices hw, h3]

/-! ## Code sizes -/

theorem le_two_pow_ceilLog2From {x fuel w : Nat} (h : x ≤ 2 ^ (w + fuel)) : x ≤ 2 ^ ceilLog2From x fuel w := by
  induction fuel generalizing w with
  | zero => simpa [ceilLog2From] using h
  | succ fuel ih =>
    rw [ceilLog2From]
    split
    · assumption
    · exact ih (by rwa [Nat.add_right_comm, Nat.add_assoc])

theorem ceilLog2From_le {x fuel w b : Nat} (hb : x ≤ 2 ^ b) (hw : w ≤ b) : ceilLog2From x fuel w ≤ b := by
  induction fuel generalizing w with
  | zero => simpa [ceilLog2From] using hw
  | succ fuel ih =>
    rw [ceilLog2From]
    split
    · exact hw
    · refine ih (Nat.lt_of_le_of_ne hw ?_)
      rintro rfl
      contradiction

theorem le_two_pow_ceilLog2 (x : Nat) : x ≤ 2 ^ ceilLog2 x :=
  le_two_pow_ceilLog2From (by rw [Nat.zero_add]; exact Nat.le_of_lt Nat.lt_two_pow_self)

/-- `ceil_log2(x)` is the least such width (00_scope.md R14). -/
theorem ceilLog2_le_iff {x w : Nat} : ceilLog2 x ≤ w ↔ x ≤ 2 ^ w :=
  ⟨fun h => (le_two_pow_ceilLog2 x).trans (Nat.pow_le_pow_right (by omega) h),
    fun h => ceilLog2From_le h (Nat.zero_le _)⟩

theorem two_le_minCodeSizeOf (cc : Nat) : 2 ≤ minCodeSizeOf cc := le_max_left _ _

theorem minCodeSizeOf_le {cc : Nat} (h : cc ≤ 256) : minCodeSizeOf cc ≤ 8 :=
  max_le (by omega) (ceilLog2_le_iff.2 h)

/-- Every index below the colour count has a literal code. -/
theorem le_two_pow_minCodeSizeOf (cc : Nat) : cc ≤ 2 ^ minCodeSizeOf cc :=
  ceilLog2_le_iff.1 (le_max_right _ _)

theorem clearCodeOf_eq {m : Nat} (h : m ≠ 0) : clearCodeOf m = 2 ^ m := if_neg h

theorem eoiCodeOf_eq {m : Nat} (h : m ≠ 0) : eoiCodeOf m = 2 ^ m + 1 := if_neg h

@[simp] theorem clearCodeOf_zero : clearCodeOf 0 = 0 := rfl

@[simp] theorem eoiCodeOf_zero : eoiCodeOf 0 = 0 := rfl

/-- The control codes and the first free code fit the first width: `2^m + 2 < 2^(m+1)`. -/
theorem clear_add_two_lt {m : Nat} (h : 2 ≤ m) : 2 ^ m + 2 < 2 ^ (m + 1) := by
  have : 2 ^ 2 ≤ 2 ^ m := Nat.pow_le_pow_right (by omega) h
  rw [Nat.pow_succ]
  omega

end Sys2Proof.Machine
end

