-- ==== Sys2Proof/Laws/Tables.lean ====
section
/-! SUPPORT. The two tables of 41_lzw_table.md: lookups against the table's entries, and that every operation on an
encoder or a decoder keeps the invariants of R133, R135 and R137. -/

namespace Sys2Proof.Machine

/-! ## ENC_TABLE lookups -/

theorem encLookup_isSome {t : List (List Nat × Nat)} {s : List Nat} :
    (encLookup t s).isSome = true ↔ s ∈ t.map Prod.fst := by
  induction t with
  | nil => simp [encLookup]
  | cons e t ih =>
    obtain ⟨k, c⟩ := e
    by_cases h : k = s
    · subst h; simp [encLookup]
    · have h' : s ≠ k := fun hh => h hh.symm
      simp [encLookup, h, ih, h']

theorem encLookup_mem {t : List (List Nat × Nat)} {s : List Nat} {c : Nat} (h : encLookup t s = some c) :
    (s, c) ∈ t := by
  induction t with
  | nil => simp [encLookup] at h
  | cons e t ih =>
    obtain ⟨k, d⟩ := e
    rw [encLookup] at h
    split at h
    · rename_i hk
      cases h
      subst hk
      exact List.mem_cons_self
    · exact List.mem_cons_of_mem _ (ih h)

/-- Extending the table by a fresh key: that key gets the new code, and every other keeps its own. -/
theorem encLookup_append {t : List (List Nat × Nat)} {k : List Nat} {c : Nat} (hk : k ∉ t.map Prod.fst)
    (s : List Nat) : encLookup (t ++ [(k, c)]) s = if s = k then some c else encLookup t s := by
  induction t with
  | nil => simp [encLookup, eq_comm]
  | cons e t ih =>
    obtain ⟨k', d⟩ := e
    simp only [List.map_cons, List.mem_cons, not_or] at hk
    rw [List.cons_append, encLookup, encLookup]
    split
    · rename_i h
      subst h
      rw [if_neg (Ne.symm hk.1)]
    · exact ih hk.2

theorem Encoder.knows_iff {e : Encoder} {s : List Nat} :
    e.knows s = true ↔ s.length = 1 ∨ s ∈ e.keys := by
  simp [Encoder.knows, Encoder.keys, encLookup_isSome]

theorem Encoder.codeOf_literal (e : Encoder) (i : Nat) : e.codeOf [i] = i := rfl

theorem Encoder.codeOf_key {e : Encoder} {s : List Nat} {c : Nat} (hs : s.length ≠ 1)
    (h : encLookup e.table s = some c) : e.codeOf s = c := by
  unfold Encoder.codeOf
  split
  · simp at hs
  · simp [h]

/-! ## The encoder's invariant -/

theorem Encoder.inv_reset : Encoder.reset.Inv where
  idle := fun _ => rfl
  opened := fun h => absurd rfl h

theorem Encoder.OpenInv.clear_eq {e : Encoder} (h : e.OpenInv) : e.clear = 2 ^ e.min :=
  clearCodeOf_eq (by have := h.minRange; omega)

theorem Encoder.OpenInv.eoi_eq {e : Encoder} (h : e.OpenInv) : e.eoi = 2 ^ e.min + 1 :=
  eoiCodeOf_eq (by have := h.minRange; omega)

/-- The clear code and the end-of-information code fit the width (R133). -/
theorem Encoder.OpenInv.eoi_lt {e : Encoder} (h : e.OpenInv) : e.eoi < 2 ^ e.cs ∧ e.clear < 2 ^ e.cs := by
  have h1 := h.count
  have h2 := h.fits
  rw [h.eoi_eq, h.clear_eq] at *
  omega

theorem Encoder.OpenInv.tableReset {e : Encoder} (h : e.OpenInv) (buf : List Nat) (st : EncState)
    (hbuf : buf = [] ∨ isLiteral e.clear buf) (hst : st = .finished → buf = []) :
    Encoder.OpenInv { e.tableReset with buf := buf, state := st } where
  colorCount := h.colorCount
  min := h.min
  minRange := h.minRange
  width := by
    have := h.minRange
    simp only [Encoder.tableReset, maxCodeSize_eq]; omega
  count := by
    have h1 := h.minRange
    have h2 : e.clear ≤ 256 := by
      rw [h.clear_eq]; exact Nat.pow_le_pow_right (by omega) h1.2
    simp only [Encoder.tableReset, Encoder.clear, encResetCount_eq] at *
    omega
  fits := by
    have h3 := clear_add_two_lt h.minRange.1
    have h4 := h.clear_eq
    simp only [Encoder.tableReset]
    omega
  codes := by simp [Encoder.tableReset, Encoder.clear]
  keysDistinct := by simp [Encoder.keys, Encoder.tableReset]
  keysLong := by simp [Encoder.keys, Encoder.tableReset]
  keysPrefixed := by simp [Encoder.keys, Encoder.tableReset]
  keysBounded := by simp [Encoder.keys, Encoder.tableReset]
  buffer := hbuf.imp id fun h => .inl h
  finished := hst
  fresh := fun _ _ => ⟨rfl, rfl⟩

theorem Encoder.openInv_opened (e : Encoder) {cc : Nat} (h1 : 1 ≤ cc) (h2 : cc ≤ 256) : (e.opened cc).OpenInv := by
  have hm := two_le_minCodeSizeOf cc
  have hM := minCodeSizeOf_le h2
  have hc : clearCodeOf (minCodeSizeOf cc) = 2 ^ minCodeSizeOf cc := clearCodeOf_eq (by omega)
  have hp : 2 ^ minCodeSizeOf cc ≤ 2 ^ 8 := Nat.pow_le_pow_right (by omega) hM
  have hlt := clear_add_two_lt hm
  exact {
    colorCount := ⟨h1, h2⟩
    min := rfl
    minRange := ⟨hm, hM⟩
    width := by simp only [Encoder.opened, Encoder.tableReset, maxCodeSize_eq]; omega
    count := by
      simp only [Encoder.opened, Encoder.tableReset, Encoder.clear, hc, encResetCount_eq]; omega
    fits := by simp only [Encoder.opened, Encoder.tableReset, Encoder.clear, hc]; omega
    codes := by simp [Encoder.opened, Encoder.tableReset, Encoder.clear]
    keysDistinct := by simp [Encoder.keys, Encoder.opened, Encoder.tableReset]
    keysLong := by simp [Encoder.keys, Encoder.opened, Encoder.tableReset]
    keysPrefixed := by simp [Encoder.keys, Encoder.opened, Encoder.tableReset]
    keysBounded := by simp [Encoder.keys, Encoder.opened, Encoder.tableReset]
    buffer := .inl rfl
    finished := fun _ => rfl
    fresh := fun _ _ => ⟨rfl, rfl⟩ }

/-- Pushing an index the table knows the extended buffer of. -/
theorem Encoder.OpenInv.setBuf {e : Encoder} (h : e.OpenInv) {buf : List Nat} (hne : buf ≠ [])
    (hb : e.HasCode buf) (hst : e.state ≠ .finished) : Encoder.OpenInv { e with buf := buf } where
  colorCount := h.colorCount
  min := h.min
  minRange := h.minRange
  width := h.width
  count := h.count
  fits := h.fits
  codes := h.codes
  keysDistinct := h.keysDistinct
  keysLong := h.keysLong
  keysPrefixed := h.keysPrefixed
  keysBounded := h.keysBounded
  buffer := .inr hb
  finished := fun hf => absurd hf hst
  fresh := fun _ hb => absurd hb hne

theorem Encoder.grownCs_eq (e : Encoder) :
    e.grownCs = if e.count = 2 ^ e.cs ∧ e.cs < 12 then e.cs + 1 else e.cs := rfl

/-- After the growth check the width holds one more code (R133, R142). -/
theorem Encoder.OpenInv.lt_grownCs {e : Encoder} (h : e.OpenInv) :
    e.count < 2 ^ e.grownCs ∧ e.cs ≤ e.grownCs ∧ e.grownCs ≤ 12 := by
  have h1 := h.fits
  have h2 := h.width
  have h3 := h.count
  simp only [maxCodeSize_eq, encResetCount_eq] at h2 h3
  rw [Encoder.grownCs_eq]
  split
  · rename_i hg
    rw [Nat.pow_succ]
    have : 0 < 2 ^ e.cs := Nat.two_pow_pos _
    omega
  · rename_i hg
    rw [not_and, Nat.not_lt] at hg
    refine ⟨lt_of_le_of_ne h1 fun heq => ?_, le_rfl, h2.2⟩
    have h12 : e.cs = 12 := by have := hg heq; omega
    rw [h12] at heq
    omega

theorem Encoder.OpenInv.add {e : Encoder} (h : e.OpenInv) {i : Nat} (hi : i < e.clear) (hst : e.state = .active)
    (hbuf : e.buf ≠ []) (hk : e.buf ++ [i] ∉ e.keys) (hc : e.count < encResetCount) :
    Encoder.OpenInv { e.add (e.buf ++ [i]) with buf := [i] } := by
  have hg := h.lt_grownCs
  have hb : e.HasCode e.buf := h.buffer.resolve_left hbuf
  have hkeys : ({ e.add (e.buf ++ [i]) with buf := [i] } : Encoder).keys = e.keys ++ [e.buf ++ [i]] := by
    simp [Encoder.keys, Encoder.add]
  have hmono : ∀ s, e.HasCode s → Encoder.HasCode { e.add (e.buf ++ [i]) with buf := [i] } s := fun s hs =>
    hs.imp id fun hs => by rw [hkeys]; exact List.mem_append_left _ hs
  exact {
    colorCount := h.colorCount
    min := h.min
    minRange := h.minRange
    width := ⟨h.width.1.trans hg.2.1, hg.2.2⟩
    count := ⟨h.count.1.trans (Nat.le_succ _), hc⟩
    fits := hg.1
    codes := by
      have hc1 : e.clear + 2 ≤ e.count := h.count.1
      have hlast : e.clear + 2 + (e.count - (e.clear + 2)) = e.count := by omega
      have hcnt : e.count + 1 - (e.clear + 2) = e.count - (e.clear + 2) + 1 := by omega
      show (e.table ++ [(e.buf ++ [i], e.count)]).map Prod.snd =
        List.range' (e.clear + 2) (e.count + 1 - (e.clear + 2))
      rw [hcnt, List.range'_concat, List.map_append, h.codes, Nat.one_mul, hlast]
      rfl
    keysDistinct := by
      rw [hkeys, List.nodup_append]
      refine ⟨h.keysDistinct, by simp, ?_⟩
      intro a ha b hb hab
      rw [List.mem_singleton] at hb
      subst hab
      subst hb
      exact hk ha
    keysLong := by
      rw [hkeys]
      intro k hk'
      rcases List.mem_append.1 hk' with hk' | hk'
      · exact h.keysLong k hk'
      · rw [List.mem_singleton.1 hk']
        have := List.length_pos_iff.2 hbuf
        simp; omega
    keysPrefixed := by
      rw [hkeys]
      intro k hk'
      rcases List.mem_append.1 hk' with hk' | hk'
      · exact hmono _ (h.keysPrefixed k hk')
      · rw [List.mem_singleton.1 hk', List.dropLast_concat]
        exact hmono _ hb
    keysBounded := by
      rw [hkeys]
      intro k hk' j hj
      rcases List.mem_append.1 hk' with hk' | hk'
      · exact h.keysBounded k hk' j hj
      · rw [List.mem_singleton.1 hk'] at hj
        rcases List.mem_append.1 hj with hj | hj
        · rcases hb with ⟨l, hl, hlt⟩ | hb
          · rw [hl, List.mem_singleton] at hj
            subst hj
            exact hlt
          · exact h.keysBounded _ hb j hj
        · rw [List.mem_singleton.1 hj]
          exact hi
    buffer := .inr (.inl ⟨i, rfl, hi⟩)
    finished := fun hf => by
      have : e.state = .finished := hf
      rw [hst] at this
      cases this
    fresh := fun _ hb => by cases hb }

/-- Every beginning of a key, of length at least 2, is a key (41_lzw_table.md R135). -/
theorem Encoder.OpenInv.take_mem_keys {e : Encoder} (h : e.OpenInv) {k : List Nat} (hk : k ∈ e.keys) {n : Nat}
    (hn : 2 ≤ n) (hl : n ≤ k.length) : k.take n ∈ e.keys := by
  obtain ⟨d, hd⟩ := Nat.exists_eq_add_of_le hl
  induction d generalizing k with
  | zero => rwa [List.take_of_length_le (by omega)]
  | succ d ih =>
    have hlen : k.dropLast.length = n + d := by rw [List.length_dropLast]; omega
    rcases h.keysPrefixed k hk with ⟨i, hi, -⟩ | hm
    · rw [hi] at hlen
      simp only [List.length_singleton] at hlen
      omega
    · have := ih hm (by omega) hlen
      rwa [List.dropLast_eq_take, List.take_take, Nat.min_eq_left (by omega)] at this

/-- A key is no longer than one more than the number of keys, so its length is far below `2^32`. -/
theorem Encoder.OpenInv.length_le {e : Encoder} (h : e.OpenInv) {k : List Nat} (hk : k ∈ e.keys) : k.length ≤ 4095 := by
  have hn : ((List.range' 2 (k.length - 1)).map k.take).Nodup := by
    refine List.Nodup.map_on (fun a ha b hb hab => ?_) List.nodup_range'
    have := congrArg List.length hab
    rw [List.mem_range'_1] at ha hb
    rw [List.length_take, List.length_take] at this
    omega
  have hs : ∀ x ∈ (List.range' 2 (k.length - 1)).map k.take, x ∈ e.keys := by
    intro x hx
    obtain ⟨n, hn, rfl⟩ := List.mem_map.1 hx
    rw [List.mem_range'_1] at hn
    exact h.take_mem_keys hk (by omega) (by omega)
  have h1 := (List.Nodup.subperm hn hs).length_le
  have h2 := congrArg List.length h.codes
  have h3 := h.count.2
  rw [encResetCount_eq] at h3
  simp only [List.length_map, List.length_range', Encoder.keys] at h1 h2
  omega

/-- ENC_BUF_LEN fits its port field (10_state.md R22, R39). -/
theorem Encoder.OpenInv.buf_length_le {e : Encoder} (h : e.OpenInv) : e.buf.length ≤ 4095 := by
  rcases h.buffer with hb | ⟨i, hi, -⟩ | hk
  · simp [hb]
  · simp [hi]
  · exact h.length_le hk

/-- A key's code is the one ENC_TABLE gives it (41_lzw_table.md R139). -/
theorem Encoder.OpenInv.codeOf_of_mem {e : Encoder} (h : e.OpenInv) {k : List Nat} {c : Nat} (hm : (k, c) ∈ e.table) :
    e.codeOf k = c := by
  have hk : k ∈ e.keys := List.mem_map_of_mem hm
  obtain ⟨c', hc'⟩ := Option.isSome_iff_exists.1 (encLookup_isSome.2 hk)
  have hl := h.keysLong k hk
  rw [Encoder.codeOf_key (by omega) hc']
  have := List.inj_on_of_nodup_map h.keysDistinct (encLookup_mem hc') hm rfl
  exact congrArg Prod.snd this

/-- Every code ENC_PUSH and ENC_FINISH write fits the width it is written at (R133). -/
theorem Encoder.OpenInv.codeOf_lt {e : Encoder} (h : e.OpenInv) {s : List Nat} (hs : e.HasCode s) :
    e.codeOf s < 2 ^ e.cs := by
  rcases hs with ⟨i, rfl, hi⟩ | hs
  · exact hi.trans h.eoi_lt.2
  · obtain ⟨c, hc⟩ := Option.isSome_iff_exists.1 (encLookup_isSome.2 hs)
    have hlen := h.keysLong s hs
    rw [Encoder.codeOf_key (by omega) hc]
    have hmem : c ∈ e.table.map Prod.snd := List.mem_map.2 ⟨_, encLookup_mem hc, rfl⟩
    rw [h.codes, List.mem_range'_1] at hmem
    have h1 := h.fits
    have h2 := h.count.1
    omega

/-! ## DEC_TABLE lookups -/

theorem decLookup_mem {t : List (Nat × List Nat)} {c : Nat} {s : List Nat} (h : decLookup t c = some s) :
    (c, s) ∈ t := by
  induction t with
  | nil => simp [decLookup] at h
  | cons e t ih =>
    obtain ⟨k, x⟩ := e
    rw [decLookup] at h
    split at h
    · rename_i hk
      cases h
      subst hk
      exact List.mem_cons_self
    · exact List.mem_cons_of_mem _ (ih h)

theorem decLookup_isSome {t : List (Nat × List Nat)} {c : Nat} :
    (decLookup t c).isSome = true ↔ c ∈ t.map Prod.fst := by
  induction t with
  | nil => simp [decLookup]
  | cons e t ih =>
    obtain ⟨k, x⟩ := e
    by_cases h : k = c
    · subst h; simp [decLookup]
    · have h' : c ≠ k := fun hh => h hh.symm
      simp [decLookup, h, ih, h']

/-- A code above every code of the table goes to its end. -/
theorem decInsert_above {t : List (Nat × List Nat)} {c : Nat} (h : ∀ e ∈ t, e.1 < c) (s : List Nat) :
    decInsert t c s = t ++ [(c, s)] := by
  induction t with
  | nil => rfl
  | cons e t ih =>
    obtain ⟨k, x⟩ := e
    have hk : k < c := h (k, x) List.mem_cons_self
    rw [decInsert, if_neg (by omega), if_neg (by omega), ih fun e he => h e (List.mem_cons_of_mem _ he)]
    rfl

theorem decLookup_append {t : List (Nat × List Nat)} {k : Nat} {x : List Nat} (hk : k ∉ t.map Prod.fst) (c : Nat) :
    decLookup (t ++ [(k, x)]) c = if c = k then some x else decLookup t c := by
  induction t with
  | nil => simp [decLookup, eq_comm]
  | cons e t ih =>
    obtain ⟨k', d⟩ := e
    simp only [List.map_cons, List.mem_cons, not_or] at hk
    rw [List.cons_append, decLookup, decLookup]
    split
    · rename_i h
      subst h
      rw [if_neg (Ne.symm hk.1)]
    · exact ih hk.2

/-! ## The decoder's invariant -/

theorem Decoder.inv_reset : Decoder.reset.Inv where
  idle := fun _ => rfl
  unopened := fun _ => ⟨.inl rfl, rfl, rfl, rfl, rfl⟩
  opened := fun h => absurd rfl h
  errorCode := fun h => by cases h
  noError := fun _ => rfl
  prevInvalid := fun _ => rfl

theorem Decoder.OpenInv.clear_eq {d : Decoder} (h : d.OpenInv) : d.clear = 2 ^ d.min :=
  clearCodeOf_eq (by have := h.minRange; omega)

theorem Decoder.OpenInv.eoi_eq {d : Decoder} (h : d.OpenInv) : d.eoi = 2 ^ d.min + 1 :=
  eoiCodeOf_eq (by have := h.minRange; omega)

/-- The decoder right after a table reset, whatever the state and DEC_PREV become. -/
theorem Decoder.openInv_tableReset {d : Decoder} (h1 : 2 ≤ d.min) (h2 : d.min ≤ 8) (st : DecState) (err : ResultCode)
    (prev : PrevCode) : Decoder.OpenInv { d.tableReset with state := st, err := err, prev := prev } := by
  have hc : d.clear = 2 ^ d.min := clearCodeOf_eq (by omega)
  have hp : 2 ^ d.min ≤ 2 ^ 8 := Nat.pow_le_pow_right (by omega) h2
  have hlt := clear_add_two_lt h1
  exact {
    minRange := ⟨h1, h2⟩
    width := by simp only [Decoder.tableReset, maxCodeSize_eq]; omega
    count := by simp only [Decoder.tableReset, Decoder.clear, decTableLimit_eq] at *; omega
    fits := by simp only [Decoder.tableReset]; omega
    grown := fun _ => by simp only [Decoder.tableReset]; omega
    domain := by simp [Decoder.tableReset, Decoder.clear]
    long := by simp [Decoder.tableReset]
    chained := by simp [Decoder.tableReset]
    bounded := by simp [Decoder.tableReset] }

/-- What is in the table is a nonempty sequence of indices below the clear code (43_lzw_decoder.md R181). -/
theorem Decoder.OpenInv.seqOf_spec {d : Decoder} (h : d.OpenInv) {c : Nat} {s : List Nat} (hs : d.seqOf c = some s) :
    s ≠ [] ∧ (∀ i ∈ s, i < d.clear) ∧ c < d.count ∧
      (isLiteral d.clear s ∨ ∃ e ∈ d.table, e.1 < d.count ∧ s = e.2) := by
  have hcnt := h.count.1
  rw [Decoder.seqOf] at hs
  split at hs
  · cases hs
    exact ⟨by simp, by simpa, by omega, .inl ⟨c, rfl, ‹_›⟩⟩
  · split at hs
    · rename_i hr
      have hm := decLookup_mem hs
      have hl := h.long _ hm
      exact ⟨by rintro rfl; simp at hl, h.bounded _ hm, hr.2, .inr ⟨_, hm, hr.2, rfl⟩⟩
    · cases hs

/-- Every code below the count but the two control codes is in the table (41_lzw_table.md R141). -/
theorem Decoder.OpenInv.seqOf_isSome {d : Decoder} (h : d.OpenInv) {c : Nat} :
    (d.seqOf c).isSome = true ↔ c < d.clear ∨ d.clear + 2 ≤ c ∧ c < d.count := by
  rw [Decoder.seqOf]
  split
  · simp [*]
  · split
    · rename_i hr
      rw [decLookup_isSome, h.domain, List.mem_range'_1]
      omega
    · simp only [Option.isSome_none, Bool.false_eq_true, false_iff]
      omega

/-- An entry's code has the sequence DEC_TABLE gives it (41_lzw_table.md R140). -/
theorem Decoder.OpenInv.seqOf_of_mem {d : Decoder} (h : d.OpenInv) {c : Nat} {q : List Nat} (hm : (c, q) ∈ d.table) :
    d.seqOf c = some q := by
  have hc : c ∈ d.table.map Prod.fst := List.mem_map_of_mem hm
  have hr := hc
  rw [h.domain, List.mem_range'_1] at hr
  have hcount := h.count
  rw [Decoder.seqOf, if_neg (by omega), if_pos (by omega)]
  obtain ⟨q', hq'⟩ := Option.isSome_iff_exists.1 (decLookup_isSome.2 hc)
  have hnd : (d.table.map Prod.fst).Nodup := by rw [h.domain]; exact List.nodup_range'
  rw [hq', (Prod.mk.inj (List.inj_on_of_nodup_map hnd (decLookup_mem hq') hm rfl)).2]

/-- Every code from `clear + 2` to `count - 1` has an entry (41_lzw_table.md R137). -/
theorem Decoder.OpenInv.exists_mem {d : Decoder} (h : d.OpenInv) {c : Nat} (h1 : d.clear + 2 ≤ c) (h2 : c < d.count) :
    ∃ q, (c, q) ∈ d.table := by
  have hc : c ∈ d.table.map Prod.fst := by rw [h.domain, List.mem_range'_1]; omega
  obtain ⟨⟨c', q⟩, hm, rfl⟩ := List.mem_map.1 hc
  exact ⟨q, hm⟩

theorem Decoder.OpenInv.table_lt {d : Decoder} (h : d.OpenInv) {e : Nat × List Nat} (he : e ∈ d.table) :
    d.clear + 2 ≤ e.1 ∧ e.1 < d.count := by
  have hm : e.1 ∈ d.table.map Prod.fst := List.mem_map.2 ⟨e, he, rfl⟩
  rw [h.domain, List.mem_range'_1] at hm
  have := h.count.1
  omega

theorem Decoder.OpenInv.setPrev {d : Decoder} (h : d.OpenInv) (p : PrevCode) :
    Decoder.OpenInv { d with prev := p } where
  minRange := h.minRange
  width := h.width
  count := h.count
  fits := h.fits
  grown := h.grown
  domain := h.domain
  long := h.long
  chained := h.chained
  bounded := h.bounded

theorem Decoder.OpenInv.setState {d : Decoder} (h : d.OpenInv) (st : DecState) (err : ResultCode) :
    Decoder.OpenInv { d with state := st, err := err } where
  minRange := h.minRange
  width := h.width
  count := h.count
  fits := h.fits
  grown := h.grown
  domain := h.domain
  long := h.long
  chained := h.chained
  bounded := h.bounded

theorem Decoder.add_full {d : Decoder} (h : ¬ d.count < decTableLimit) (s : List Nat) : d.add s = d := if_neg h

theorem Decoder.add_eq {d : Decoder} (h : d.OpenInv) (hc : d.count < decTableLimit) (s : List Nat) :
    d.add s = { d with
      table := d.table ++ [(d.count, s)]
      count := d.count + 1
      cs := if d.count + 1 = 2 ^ d.cs ∧ d.cs < 12 then d.cs + 1 else d.cs } := by
  rw [Decoder.add, if_pos hc, decInsert_above fun e he => (h.table_lt he).2]
  rfl

/-- Adding a sequence that extends a literal or an entry by one index (R137, R143). -/
theorem Decoder.OpenInv.add {d : Decoder} (h : d.OpenInv) {p : List Nat} {x : Nat} (hp : p ≠ [])
    (hpre : isLiteral d.clear p ∨ ∃ e ∈ d.table, e.1 < d.count ∧ p = e.2) (hx : x < d.clear) :
    (d.add (p ++ [x])).OpenInv := by
  by_cases hc : d.count < decTableLimit
  · rw [Decoder.add_eq h hc]
    have hcnt := h.count
    have hw := h.width
    have hfit := h.fits
    have hgr := h.grown
    simp only [maxCodeSize_eq, decTableLimit_eq] at hcnt hw hgr hc
    have hpos : 0 < 2 ^ d.cs := Nat.two_pow_pos _
    have hpow : 2 ^ (d.cs + 1) = 2 ^ d.cs * 2 := Nat.pow_succ ..
    have key : d.cs ≤ (if d.count + 1 = 2 ^ d.cs ∧ d.cs < 12 then d.cs + 1 else d.cs) ∧
        (if d.count + 1 = 2 ^ d.cs ∧ d.cs < 12 then d.cs + 1 else d.cs) ≤ 12 ∧
        d.count + 1 ≤ 2 ^ (if d.count + 1 = 2 ^ d.cs ∧ d.cs < 12 then d.cs + 1 else d.cs) ∧
        ((if d.count + 1 = 2 ^ d.cs ∧ d.cs < 12 then d.cs + 1 else d.cs) < 12 →
          d.count + 1 < 2 ^ (if d.count + 1 = 2 ^ d.cs ∧ d.cs < 12 then d.cs + 1 else d.cs)) := by
      split
      · omega
      · by_cases hcs : d.cs < 12
        · have := hgr hcs; omega
        · have h12 : d.cs = 12 := by omega
          rw [h12] at hfit ⊢
          omega
    have hpb : ∀ i ∈ p, i < d.clear := by
      rcases hpre with ⟨l, rfl, hl⟩ | ⟨e, he, -, rfl⟩
      · simpa using hl
      · exact h.bounded e he
    exact {
      minRange := h.minRange
      width := ⟨h.width.1.trans key.1, key.2.1⟩
      count := by
        show d.clear + 2 ≤ d.count + 1 ∧ d.count + 1 ≤ 4096
        omega
      fits := key.2.2.1
      grown := key.2.2.2
      domain := by
        have hlast : d.clear + 2 + (d.count - (d.clear + 2)) = d.count := by omega
        have hn : d.count + 1 - (d.clear + 2) = d.count - (d.clear + 2) + 1 := by omega
        show (d.table ++ [(d.count, p ++ [x])]).map Prod.fst =
          List.range' (d.clear + 2) (d.count + 1 - (d.clear + 2))
        rw [hn, List.range'_concat, List.map_append, h.domain, Nat.one_mul, hlast]
        rfl
      long := by
        intro e he
        rcases List.mem_append.1 he with he | he
        · exact h.long e he
        · rw [List.mem_singleton.1 he]
          have := List.length_pos_iff.2 hp
          simp; omega
      chained := by
        intro e he
        rcases List.mem_append.1 he with he | he
        · rcases h.chained e he with hl | ⟨e', he', hlt, heq⟩
          · exact .inl hl
          · exact .inr ⟨e', List.mem_append_left _ he', hlt, heq⟩
        · rw [List.mem_singleton.1 he, List.dropLast_concat]
          rcases hpre with hl | ⟨e', he', hlt, heq⟩
          · exact .inl hl
          · exact .inr ⟨e', List.mem_append_left _ he', hlt, heq⟩
      bounded := by
        intro e he i hi
        rcases List.mem_append.1 he with he | he
        · exact h.bounded e he i hi
        · rw [List.mem_singleton.1 he] at hi
          rcases List.mem_append.1 hi with hi | hi
          · exact hpb i hi
          · rw [List.mem_singleton.1 hi]; exact hx }
  · rw [Decoder.add_full hc]
    exact h

@[simp] theorem Decoder.add_min (d : Decoder) (s : List Nat) : (d.add s).min = d.min := by
  unfold Decoder.add; split <;> rfl
@[simp] theorem Decoder.add_state (d : Decoder) (s : List Nat) : (d.add s).state = d.state := by
  unfold Decoder.add; split <;> rfl
@[simp] theorem Decoder.add_err (d : Decoder) (s : List Nat) : (d.add s).err = d.err := by
  unfold Decoder.add; split <;> rfl
@[simp] theorem Decoder.add_clear (d : Decoder) (s : List Nat) : (d.add s).clear = d.clear := by
  simp [Decoder.clear]

/-! ## What an ordinary code emits -/

/-- Everything `emission` can answer, with the invariant: the sequence is in the table and the entry to add extends
DEC_PREV's, or the sequence is DEC_PREV's with its own first index and is also the entry to add (R173). -/
theorem Decoder.OpenInv.emission_ok {d : Decoder} (h : d.OpenInv) {c : Nat} {s : List Nat} {new : Option (List Nat)}
    (he : d.emission c = .ok (s, new)) :
    s ≠ [] ∧ (∀ i ∈ s, i < d.clear) ∧
      ∀ n, new = some n → ∃ p x, n = p ++ [x] ∧ p ≠ [] ∧ x < d.clear ∧
        (isLiteral d.clear p ∨ ∃ e ∈ d.table, e.1 < d.count ∧ p = e.2) := by
  have hprev : ∀ p, d.prevSeq = some p → p ≠ [] ∧ (∀ i ∈ p, i < d.clear) ∧
      (isLiteral d.clear p ∨ ∃ e ∈ d.table, e.1 < d.count ∧ p = e.2) := by
    intro p hp
    rw [Decoder.prevSeq] at hp
    split at hp
    · have := h.seqOf_spec hp
      exact ⟨this.1, this.2.1, this.2.2.2⟩
    · cases hp
  rw [Decoder.emission] at he
  split at he
  · cases he
  · split at he
    · cases he
    · rename_i x xs hs _
      cases he
      have := h.seqOf_spec hs
      exact ⟨this.1, this.2.1, fun n hn => by cases hn⟩
    · rename_i x xs p hs hp
      cases he
      have h1 := h.seqOf_spec hs
      have h2 := hprev p hp
      refine ⟨h1.1, h1.2.1, fun n hn => ?_⟩
      cases hn
      exact ⟨p, x, rfl, h2.1, h1.2.1 x (List.mem_cons_self), h2.2.2⟩
    · cases he
    · cases he
    · rename_i y p hs hp
      cases he
      have h2 := hprev (y :: p) hp
      have hy := h2.2.1 y List.mem_cons_self
      refine ⟨by simp, ?_, fun n hn => ?_⟩
      · intro i hi
        rcases List.mem_append.1 hi with hi | hi
        · exact h2.2.1 i hi
        · rw [List.mem_singleton.1 hi]; exact hy
      · cases hn
        exact ⟨y :: p, y, rfl, h2.1, hy, h2.2.2⟩

theorem Decoder.OpenInv.afterCode {d : Decoder} (h : d.OpenInv) {c : Nat} {s : List Nat} {new : Option (List Nat)}
    (he : d.emission c = .ok (s, new)) : (d.afterCode c new).OpenInv := by
  unfold Decoder.afterCode
  apply Decoder.OpenInv.setPrev
  cases new with
  | none => exact h
  | some n =>
    obtain ⟨p, x, rfl, hp, hx, hpre⟩ := (h.emission_ok he).2.2 n rfl
    exact h.add hp hpre hx

@[simp] theorem Decoder.afterCode_min (d : Decoder) (c : Nat) (new : Option (List Nat)) :
    (d.afterCode c new).min = d.min := by cases new <;> simp [Decoder.afterCode]
@[simp] theorem Decoder.afterCode_state (d : Decoder) (c : Nat) (new : Option (List Nat)) :
    (d.afterCode c new).state = d.state := by cases new <;> simp [Decoder.afterCode]
@[simp] theorem Decoder.afterCode_err (d : Decoder) (c : Nat) (new : Option (List Nat)) :
    (d.afterCode c new).err = d.err := by cases new <;> simp [Decoder.afterCode]
@[simp] theorem Decoder.afterCode_prev (d : Decoder) (c : Nat) (new : Option (List Nat)) :
    (d.afterCode c new).prev = { valid := true, code := BitVec.ofNat 12 c } := rfl

end Sys2Proof.Machine
end

