-- ==== Sys2Proof/Laws/Commands.lean ====
section
/-! SUPPORT. What each shared operation and each command's pseudocode can do, said once: `runCommand` and `finish`,
the bodies of 40_bitstream.md, 42_lzw_encoder.md and 43_lzw_decoder.md, DEC_RUN's loop, and the fetch. -/

namespace Sys2Proof.Machine

/-! ## How a command ends -/

theorem State.unlessFaulted_faulted {s : State} (h : s.fault = true) (o : Result) :
    s.unlessFaulted o = .next s.reject := if_pos h

theorem State.unlessFaulted_clear {s : State} (h : s.fault = false) (o : Result) : s.unlessFaulted o = o := by
  rw [State.unlessFaulted, if_neg (by simp [h])]

theorem State.runCommand_faulted {s : State} (h : s.fault = true) (body : State → Ending) :
    s.runCommand body = .next s.reject := State.unlessFaulted_faulted h _

theorem State.runCommand_clear {s : State} (h : s.fault = false) (body : State → Ending) :
    s.runCommand body = .next (s.finish (body s)) := State.unlessFaulted_clear h _

/-- A command of this form always answers a next state: rejected, or what its pseudocode ended with. -/
theorem State.runCommand_eq {s : State} (body : State → Ending) :
    s.runCommand body = .next (if s.fault then s.reject else s.finish (body s)) := by
  rw [State.runCommand, State.unlessFaulted]
  split <;> simp

@[simp] theorem State.finish_done (s t : State) : s.finish (.done t) = t.setLastResult .ok := rfl
@[simp] theorem State.finish_fault (s : State) (f : FaultCode) : s.finish (.fault f) = s.raiseFault f := rfl
@[simp] theorem State.finish_error (s : State) (e : ResultCode) : s.finish (.error e) = s.raiseError e := rfl
@[simp] theorem State.finish_decodeError (s : State) (e : ErrorCode) :
    s.finish (.decodeError e) = s.raiseDecodeError e := rfl

/-! ## Every command through `runCommand` -/

/-- The pseudocode of every command but SOFT_RESET and DEC_RUN, which `runCommand` does not run. -/
def commandBody : Instr → State → Ending
  | .nop | .softReset | .decRun => fun s => .done s
  | .bwClear => fun s => .done (s.setBw { mem := Memory.empty, bitpos := 0 })
  | .bwWrite n v => bwWriteBody n v
  | .brClear => fun s => .done (s.setBr { mem := Memory.empty, bitpos := 0 })
  | .brAppend b => brAppendBody b
  | .brAtHead => brAtHeadBody
  | .brRead n => brReadBody n
  | .encBegin cc => encBeginBody cc
  | .encPush i => encPushBody i
  | .encFinish => encFinishBody
  | .decBegin m => decBeginBody m
  | .decStep => decStepBody
  | .outClear => fun s => .done (s.setOut Memory.empty)

/-- Every command but SOFT_RESET and DEC_RUN runs its pseudocode. -/
theorem exec_eq_runCommand {i : Instr} (h1 : i ≠ .softReset) (h2 : i ≠ .decRun) (s : State) :
    exec i s = s.runCommand (commandBody i) := by
  cases i <;> first | rfl | contradiction

/-- Such a command in a state without a pending fault. -/
theorem exec_clear {i : Instr} (h1 : i ≠ .softReset) (h2 : i ≠ .decRun) {s : State} (hf : s.fault = false) :
    exec i s = .next (s.finish (commandBody i s)) := by
  rw [exec_eq_runCommand h1 h2, State.runCommand_clear hf]

/-- Any command but SOFT_RESET while a fault is pending (60_exceptions.md R214). -/
theorem exec_rejected {i : Instr} (h1 : i ≠ .softReset) {s : State} (hf : s.fault = true) :
    exec i s = .next s.reject := by
  cases i <;> first | contradiction | exact State.unlessFaulted_faulted hf _

/-! ## The decoder's step -/

/-- Everything a step of an active session can do (43_lzw_decoder.md R173). -/
theorem decActiveStep_cases (s : State) :
    (s.br.peekBits s.dec.cs = none ∧ decActiveStep s = .decodeError .truncated) ∨
    ∃ c, s.br.peekBits s.dec.cs = some c ∧
      ((c = s.dec.clear ∧ decActiveStep s = .done ((s.setBr (s.br.advance s.dec.cs)).setDec
          { s.dec.tableReset with prev := PrevCode.invalid })) ∨
        (c ≠ s.dec.clear ∧ c = s.dec.eoi ∧ decActiveStep s =
          .done ((s.setBr (s.br.advance s.dec.cs)).setDec { s.dec with state := .done })) ∨
        (c ≠ s.dec.clear ∧ c ≠ s.dec.eoi ∧
          ((∃ e, s.dec.emission c = .error e ∧ decActiveStep s = .decodeError e) ∨
            ∃ seq new, s.dec.emission c = .ok (seq, new) ∧
              ((withinCap s.cfg.outCap (s.out.len + seq.length) = true ∧ decActiveStep s =
                  .done (((s.setBr (s.br.advance s.dec.cs)).setDec (s.dec.afterCode c new)).setOut
                    (s.out.appendIndices seq))) ∨
                (withinCap s.cfg.outCap (s.out.len + seq.length) = false ∧
                  decActiveStep s = .fault .overflow))))) := by
  cases hp : s.br.peekBits s.dec.cs with
  | none => exact .inl ⟨rfl, by simp [decActiveStep, hp]⟩
  | some c =>
    refine .inr ⟨c, rfl, ?_⟩
    by_cases h1 : c = s.dec.clear
    · exact .inl ⟨h1, by simp [decActiveStep, hp, decCode, h1]⟩
    · refine .inr ?_
      by_cases h2 : c = s.dec.eoi
      · exact .inl ⟨h1, h2, by simp [decActiveStep, hp, decCode, h1, ← h2]⟩
      · refine .inr ⟨h1, h2, ?_⟩
        cases he : s.dec.emission c with
        | error e => exact .inl ⟨e, rfl, by simp [decActiveStep, hp, decCode, h1, h2, decOrdinary, he]⟩
        | ok r =>
          obtain ⟨seq, new⟩ := r
          refine .inr ⟨seq, new, rfl, ?_⟩
          cases hc : withinCap s.cfg.outCap (s.out.len + seq.length) with
          | true => exact .inl ⟨rfl, by simp [decActiveStep, hp, decCode, h1, h2, decOrdinary, he, hc]⟩
          | false => exact .inr ⟨rfl, by simp [decActiveStep, hp, decCode, h1, h2, decOrdinary, he, hc]⟩

/-- What a step of an active session leaves alone: everything but BR, DEC, OUT_MEM, the fault registers and
LAST_RESULT. -/
theorem decActiveStep_frame (s : State) :
    let t := s.finish (decActiveStep s)
    t.cfg = s.cfg ∧ t.cmdPort = s.cmdPort ∧ t.partCmd = s.partCmd ∧ t.cp = s.cp ∧ t.result = s.result ∧
      t.bw = s.bw ∧ t.enc = s.enc ∧ t.br.mem = s.br.mem := by
  rcases decActiveStep_cases s with ⟨-, h⟩ | ⟨c, -,
      ⟨-, h⟩ | ⟨-, -, h⟩ | ⟨-, -, ⟨e, -, h⟩ | ⟨seq, new, -, ⟨-, h⟩ | ⟨-, h⟩⟩⟩⟩ <;>
    simp [h, BitReader.advance]

/-- A step of an active session does not leave it IDLE. -/
theorem decActiveStep_not_idle {s : State} (ha : s.dec.state = .active) :
    (s.finish (decActiveStep s)).dec.state ≠ .idle := by
  intro h
  rcases decActiveStep_cases s with ⟨-, he⟩ | ⟨c, -,
      ⟨-, he⟩ | ⟨-, -, he⟩ | ⟨-, -, ⟨e, -, he⟩ | ⟨seq, new, -, ⟨-, he⟩ | ⟨-, he⟩⟩⟩⟩ <;>
    rw [he] at h <;> simp [State.raiseDecodeError, Decoder.tableReset, ha] at h

/-- The decoder reports E_EMPTY_SEQUENCE of no code (43_lzw_decoder.md R181). -/
theorem Decoder.OpenInv.emission_error {d : Decoder} (h : d.OpenInv) {c : Nat} {e : ErrorCode}
    (he : d.emission c = .error e) : e = .noPrevious := by
  rw [Decoder.emission] at he
  split at he
  · cases he; rfl
  · split at he
    · rename_i hs
      exact absurd rfl (h.seqOf_spec hs).1
    · cases he
    · cases he
    · cases he; rfl
    · rename_i hs hp
      rw [Decoder.prevSeq] at hp
      split at hp
      · exact absurd rfl (h.seqOf_spec hp).1
      · cases hp
    · cases he

/-- The invariant of the parts a step of an active session writes. -/
theorem decActiveStep_inv {s : State} (hact : s.dec.state = .active) (hd : s.dec.Inv) (hbr : s.br.Inv s.cfg)
    (hout : OutInv s.cfg s.out) :
    (s.finish (decActiveStep s)).dec.Inv ∧ (s.finish (decActiveStep s)).br.Inv s.cfg ∧
      OutInv s.cfg (s.finish (decActiveStep s)).out := by
  have hmin : s.dec.min ≠ 0 := fun h0 => by
    have := (hd.unopened h0).1
    rw [hact] at this
    simp at this
  have ho := hd.opened hmin
  have hdecErr : ∀ e, e ≠ ErrorCode.emptySequence →
      Decoder.Inv { s.dec with state := .error, err := .error e } := fun e he => {
    idle := fun h => by cases h
    unopened := fun h => absurd h hmin
    opened := fun _ => ho.setState _ _
    errorCode := fun _ => ⟨e, he, rfl⟩
    noError := fun h => absurd rfl h
    prevInvalid := hd.prevInvalid }
  have herr0 : s.dec.err = .ok := hd.noError (by rw [hact]; simp)
  rcases decActiveStep_cases s with ⟨-, h⟩ | ⟨c, hp,
      ⟨-, h⟩ | ⟨-, -, h⟩ | ⟨-, -, ⟨e, he, h⟩ | ⟨seq, new, he, ⟨hc, h⟩ | ⟨-, h⟩⟩⟩⟩ <;>
    rw [h]
  · exact ⟨hdecErr _ (by simp), hbr, hout⟩
  · refine ⟨?_, hbr.advance (BitReader.peekBits_eq_some.1 hp).1, hout⟩
    exact {
      idle := fun h => by
        have : s.dec.state = .idle := h
        rw [hact] at this; cases this
      unopened := fun h => absurd h hmin
      opened := fun _ => Decoder.openInv_tableReset ho.minRange.1 ho.minRange.2 s.dec.state s.dec.err PrevCode.invalid
      errorCode := fun h => by
        have : s.dec.state = .error := h
        rw [hact] at this; cases this
      noError := fun _ => herr0
      prevInvalid := fun _ => rfl }
  · refine ⟨?_, hbr.advance (BitReader.peekBits_eq_some.1 hp).1, hout⟩
    exact {
      idle := fun h => by cases h
      unopened := fun h => absurd h hmin
      opened := fun _ => ho.setState .done s.dec.err
      errorCode := fun h => by cases h
      noError := fun _ => herr0
      prevInvalid := hd.prevInvalid }
  · have := ho.emission_error he
    subst this
    exact ⟨hdecErr _ (by simp), hbr, hout⟩
  · refine ⟨?_, hbr.advance (BitReader.peekBits_eq_some.1 hp).1, hout.appendIndices seq hc⟩
    exact {
      idle := fun h => by
        have : (s.dec.afterCode c new).state = .idle := h
        rw [Decoder.afterCode_state, hact] at this; cases this
      unopened := fun h => absurd (by simpa using h) hmin
      opened := fun _ => ho.afterCode he
      errorCode := fun h => by
        have : (s.dec.afterCode c new).state = .error := h
        rw [Decoder.afterCode_state, hact] at this; cases this
      noError := fun _ => by
        show (s.dec.afterCode c new).err = .ok
        rw [Decoder.afterCode_err, herr0]
      prevInvalid := fun h => by cases h }
  · exact ⟨hd, hbr, hout⟩

/-! ## DEC_RUN's loop -/

theorem decRunLoop_stop {s : State} (h : ¬ (s.dec.state = .active ∧ s.fault = false)) (n : Nat) :
    decRunLoop n s = some s := by
  cases n <;> rw [decRunLoop, if_neg h]

theorem decRunLoop_succ {s : State} (h : s.dec.state = .active ∧ s.fault = false) (n : Nat) :
    decRunLoop (n + 1) s = decRunLoop n (s.finish (decActiveStep s)) := by
  rw [decRunLoop, if_pos h]

theorem decRunLoop_zero {s : State} (h : s.dec.state = .active ∧ s.fault = false) : decRunLoop 0 s = none := by
  rw [decRunLoop, if_pos h]

/-- Induction over DEC_RUN's loop: what holds before it and is kept by each step holds after it, when it ends. -/
theorem decRunLoop_induct {P : State → Prop}
    (hstep : ∀ s, P s → s.dec.state = .active → s.fault = false → P (s.finish (decActiveStep s)))
    {n : Nat} {s t : State} (hs : P s) (h : decRunLoop n s = some t) :
    P t ∧ ¬ (t.dec.state = .active ∧ t.fault = false) := by
  induction n generalizing s with
  | zero =>
    by_cases ha : s.dec.state = .active ∧ s.fault = false
    · rw [decRunLoop_zero ha] at h; cases h
    · rw [decRunLoop_stop ha] at h; cases h; exact ⟨hs, ha⟩
  | succ n ih =>
    by_cases ha : s.dec.state = .active ∧ s.fault = false
    · rw [decRunLoop_succ ha] at h
      exact ih (hstep s hs ha.1 ha.2) h
    · rw [decRunLoop_stop ha] at h; cases h; exact ⟨hs, ha⟩

/-- More fuel changes nothing once the loop ends. -/
theorem decRunLoop_mono {n m : Nat} (hnm : n ≤ m) {s t : State} (h : decRunLoop n s = some t) :
    decRunLoop m s = some t := by
  induction n generalizing s m with
  | zero =>
    by_cases ha : s.dec.state = .active ∧ s.fault = false
    · rw [decRunLoop_zero ha] at h; cases h
    · rwa [decRunLoop_stop ha] at h ⊢
  | succ n ih =>
    by_cases ha : s.dec.state = .active ∧ s.fault = false
    · obtain ⟨m, rfl⟩ : ∃ k, m = k + 1 := ⟨m - 1, by omega⟩
      rw [decRunLoop_succ ha] at h ⊢
      exact ih (by omega) h
    · rwa [decRunLoop_stop ha] at h ⊢

/-- A step after which the session is still active and no fault is raised consumes DEC_CS bits that were there
(43_lzw_decoder.md R180). -/
theorem decActiveStep_consumes {s : State}
    (h : (s.finish (decActiveStep s)).dec.state = .active ∧ (s.finish (decActiveStep s)).fault = false) :
    (s.finish (decActiveStep s)).br.bitpos = s.br.bitpos + s.dec.cs ∧
      s.br.bitpos + s.dec.cs ≤ 8 * s.br.mem.len := by
  obtain ⟨h1, h2⟩ := h
  rcases decActiveStep_cases s with ⟨-, he⟩ | ⟨c, hp,
      ⟨-, he⟩ | ⟨-, -, he⟩ | ⟨-, -, ⟨e, -, he⟩ | ⟨seq, new, -, ⟨-, he⟩ | ⟨-, he⟩⟩⟩⟩ <;>
    rw [he] at h1 h2 ⊢
  · cases h1
  · exact ⟨rfl, (BitReader.peekBits_eq_some.1 hp).1⟩
  · cases h1
  · cases h1
  · exact ⟨rfl, (BitReader.peekBits_eq_some.1 hp).1⟩
  · cases h2

/-- The invariant of the parts DEC_RUN reads and writes. -/
structure State.RunInv (s : State) : Prop where
  dec : s.dec.Inv
  br : s.br.Inv s.cfg
  out : OutInv s.cfg s.out

theorem State.RunInv.step {s : State} (h : s.RunInv) (hact : s.dec.state = .active) :
    (s.finish (decActiveStep s)).RunInv := by
  have h1 := decActiveStep_inv hact h.dec h.br h.out
  have h2 := decActiveStep_frame s
  have hcfg : (s.finish (decActiveStep s)).cfg = s.cfg := h2.1
  exact ⟨h1.1, by rw [hcfg]; exact h1.2.1, by rw [hcfg]; exact h1.2.2⟩

/-- A session that is open has a minimum code size. -/
theorem Decoder.Inv.min_ne_zero {d : Decoder} (h : d.Inv) (ha : d.state = .active) : d.min ≠ 0 := fun h0 => by
  have := (h.unopened h0).1
  rw [ha] at this
  simp at this

theorem Decoder.Inv.three_le_cs {d : Decoder} (h : d.Inv) (hact : d.state = .active) : 3 ≤ d.cs := by
  have hmin : d.min ≠ 0 := fun h0 => by
    have := (h.unopened h0).1
    rw [hact] at this
    simp at this
  have h1 := (h.opened hmin).width
  have h2 := (h.opened hmin).minRange
  omega

/-- With the invariant the loop ends within `floor(remaining / 3) + 1` steps (43_lzw_decoder.md R180). -/
theorem decRunLoop_ends {s : State} (h : s.RunInv) {n : Nat} (hn : (8 * s.br.mem.len - s.br.bitpos) / 3 + 1 ≤ n) :
    ∃ t, decRunLoop n s = some t := by
  induction n generalizing s with
  | zero => omega
  | succ n ih =>
    by_cases ha : s.dec.state = .active ∧ s.fault = false
    · rw [decRunLoop_succ ha]
      by_cases hb : (s.finish (decActiveStep s)).dec.state = .active ∧ (s.finish (decActiveStep s)).fault = false
      · refine ih (h.step ha.1) ?_
        have hc := decActiveStep_consumes hb
        have hm : (s.finish (decActiveStep s)).br.mem = s.br.mem := (decActiveStep_frame s).2.2.2.2.2.2.2
        have h3 := h.dec.three_le_cs ha.1
        rw [hm, hc.1]
        omega
      · exact ⟨_, decRunLoop_stop hb n⟩
    · exact ⟨_, decRunLoop_stop ha _⟩

/-- With the invariant DEC_RUN never stops. -/
theorem decRunLoop_decRunFuel {s : State} (h : s.RunInv) : ∃ t, decRunLoop s.decRunFuel s = some t :=
  decRunLoop_ends h (by rw [State.decRunFuel]; omega)

/-- DEC_STEP of an active session (43_lzw_decoder.md R173). -/
theorem exec_decStep_active {s : State} (hf : s.fault = false) (ha : s.dec.state = .active) :
    exec .decStep s = .next (s.finish (decActiveStep s)) := by
  rw [exec_clear (by simp) (by simp) hf]
  simp only [commandBody, decStepBody, ha]

/-- DEC_RUN in IDLE (43_lzw_decoder.md R178). -/
theorem exec_decRun_idle {s : State} (hf : s.fault = false) (h : s.dec.state = .idle) :
    exec .decRun s = .next (s.raiseFault .state) := by
  show execDecRun s = _
  rw [execDecRun, State.unlessFaulted_clear hf, decRunUnfaulted, if_pos h]

/-- DEC_RUN outside IDLE, where its loop is known to end (43_lzw_decoder.md R178). -/
theorem exec_decRun_eq {s u : State} (hf : s.fault = false) (h : s.dec.state ≠ .idle) {n : Nat}
    (hn : n ≤ s.decRunFuel) (hu : decRunLoop n s = some u) :
    exec .decRun s = .next (u.setLastResult u.decRunResult) := by
  show execDecRun s = _
  rw [execDecRun, State.unlessFaulted_clear hf, decRunUnfaulted, if_neg h, decRunLoop_mono hn hu]

/-- Everything DEC_RUN can do when it answers a next state (43_lzw_decoder.md R178). -/
theorem exec_decRun_cases {s t : State} (hf : s.fault = false) (h : exec .decRun s = .next t) :
    (s.dec.state = .idle ∧ t = s.raiseFault .state) ∨
      (s.dec.state ≠ .idle ∧ ∃ u, decRunLoop s.decRunFuel s = some u ∧ t = u.setLastResult u.decRunResult) := by
  change execDecRun s = .next t at h
  rw [execDecRun, State.unlessFaulted_clear hf, decRunUnfaulted] at h
  split at h
  · cases h; exact .inl ⟨‹_›, rfl⟩
  · split at h
    · cases h
    · cases h; exact .inr ⟨‹_›, _, ‹_›, rfl⟩

/-- DEC_RUN's loop is a run of DEC_STEPs, and the one that faulted if one did (43_lzw_decoder.md R178). -/
theorem decSteps_of_decRunLoop {n : Nat} {s u : State} (hf : s.fault = false) (h : decRunLoop n s = some u) :
    (∃ k, DecSteps k s u ∧ u.fault = false) ∨
      ∃ k v f, DecSteps k s v ∧ v.dec.state = .active ∧ v.fault = false ∧ exec .decStep v = .next u ∧
        u = v.raiseFault f := by
  induction n generalizing s with
  | zero =>
    by_cases ha : s.dec.state = .active ∧ s.fault = false
    · rw [decRunLoop_zero ha] at h; cases h
    · rw [decRunLoop_stop ha] at h; cases h
      exact .inl ⟨0, .refl _, hf⟩
  | succ n ih =>
    by_cases ha : s.dec.state = .active ∧ s.fault = false
    · rw [decRunLoop_succ ha] at h
      have hex := exec_decStep_active hf ha.1
      cases hf' : (s.finish (decActiveStep s)).fault with
      | false =>
        rcases ih hf' h with ⟨k, hk, hu⟩ | ⟨k, v, f, hk, hv⟩
        · exact .inl ⟨k + 1, .step ha.1 hex hf' hk, hu⟩
        · exact .inr ⟨k + 1, v, f, .step ha.1 hex hf' hk, hv⟩
      | true =>
        rw [decRunLoop_stop (by simp [hf'])] at h
        cases h
        refine .inr ⟨0, s, .overflow, .refl _, ha.1, hf, hex, ?_⟩
        rcases decActiveStep_cases s with ⟨-, he⟩ | ⟨c, -,
            ⟨-, he⟩ | ⟨-, -, he⟩ | ⟨-, -, ⟨e, -, he⟩ | ⟨seq, new, -, ⟨-, he⟩ | ⟨-, he⟩⟩⟩⟩ <;>
          rw [he] at hf' ⊢ <;> first | rfl | (simp [State.raiseDecodeError, hf] at hf')
    · rw [decRunLoop_stop ha] at h; cases h
      exact .inl ⟨0, .refl _, hf⟩

/-! ## What the decoder reads -/

/-- Two states agree on what the decoder reads: the parameters, FAULT, the decoder, the reader and the output, and
LAST_RESULT while a fault is pending. -/
structure State.DecAgree (s s' : State) : Prop where
  cfg : s'.cfg = s.cfg
  fault : s'.fault = s.fault
  dec : s'.dec = s.dec
  br : s'.br = s.br
  out : s'.out = s.out
  faultResult : s.fault = true → s'.lastResult = s.lastResult

/-- A step of an active session keeps the agreement. -/
theorem State.DecAgree.step {s s' : State} (h : s.DecAgree s') :
    (s.finish (decActiveStep s)).DecAgree (s'.finish (decActiveStep s')) ∧
      (s'.finish (decActiveStep s')).lastResult = (s.finish (decActiveStep s)).lastResult := by
  obtain ⟨hc, hf, hd, hb, ho, -⟩ := h
  simp only [decActiveStep, decCode, decOrdinary, hd, hb, ho, hc]
  (repeat' split) <;> refine ⟨⟨?_, ?_, ?_, ?_, ?_, fun _ => ?_⟩, ?_⟩ <;>
    first | rfl | assumption | simp [State.raiseDecodeError, hd]

/-- Where the states agree, so does DEC_RUN's result. -/
theorem State.DecAgree.decRunResult {s s' : State} (h : s.DecAgree s') : s'.decRunResult = s.decRunResult := by
  simp only [State.decRunResult, h.fault, h.dec]
  split
  · exact h.faultResult ‹_›
  · rfl

/-- DEC_RUN's loop keeps the agreement, and ends on the one state where it ends on the other. -/
theorem State.DecAgree.decRunLoop {n : Nat} {s s' u : State} (h : s.DecAgree s') (hu : decRunLoop n s = some u) :
    ∃ u', Machine.decRunLoop n s' = some u' ∧ u.DecAgree u' := by
  have hact : ∀ {v v' : State}, v.DecAgree v' →
      ((v'.dec.state = .active ∧ v'.fault = false) ↔ (v.dec.state = .active ∧ v.fault = false)) := fun h => by
    rw [h.dec, h.fault]
  induction n generalizing s s' with
  | zero =>
    by_cases ha : s.dec.state = .active ∧ s.fault = false
    · rw [decRunLoop_zero ha] at hu; cases hu
    · rw [decRunLoop_stop ha] at hu; cases hu
      exact ⟨s', decRunLoop_stop (mt (hact h).1 ha) _, h⟩
  | succ n ih =>
    by_cases ha : s.dec.state = .active ∧ s.fault = false
    · rw [decRunLoop_succ ha] at hu
      rw [decRunLoop_succ ((hact h).2 ha)]
      exact ih h.step.1 hu
    · rw [decRunLoop_stop ha] at hu; cases hu
      exact ⟨s', decRunLoop_stop (mt (hact h).1 ha) _, h⟩

/-! ## Fetching -/

/-- What a step does with what the core finds on the command port. -/
theorem step_eq (s : State) : step s = match splitCommand s.pendingWords with
    | none => .next (s.setPort [] (PartCommand.ofWords s.pendingWords))
    | some ((h, w1, w2), rest) => match decode h w1 w2 with
      | .ok i => exec i ((s.setPort rest .none).advanceCp (commandLen h))
      | .error _ => ((s.setPort rest .none).advanceCp (commandLen h)).illegalCommand := by
  rw [step, fetch]
  cases splitCommand s.pendingWords with
  | none => rfl
  | some p =>
    obtain ⟨⟨h, w1, w2⟩, rest⟩ := p
    dsimp only
    cases decode h w1 w2 <;> rfl

end Sys2Proof.Machine
end

