-- ==== Sys2Proof/Laws/Encoding.lean ====
section
/-! SUPPORT. The header fields and the encoder's words as numbers (30_encoding.md R80, R81, R84, R91), so that round
trips are arithmetic; the words of a command as `splitCommand` takes them. -/

namespace Sys2Proof

/-- Concatenation as arithmetic. -/
theorem toNat_append_eq {m n : Nat} (a : BitVec m) (b : BitVec n) :
    (a ++ b).toNat = a.toNat * 2 ^ n + b.toNat := by
  rw [BitVec.toNat_append, ← Nat.shiftLeft_add_eq_or_of_lt b.isLt, Nat.shiftLeft_eq]

theorem opField_toNat (h : Word) : (opField h).toNat = h.toNat % 256 := by
  simp [opField, BitVec.extractLsb'_toNat]

theorem nField_toNat (h : Word) : (nField h).toNat = h.toNat / 256 % 256 := by
  simp [nField, BitVec.extractLsb'_toNat, Nat.shiftRight_eq_div_pow]

theorem immField_toNat (h : Word) : (immField h).toNat = h.toNat / 65536 % 65536 := by
  simp [immField, BitVec.extractLsb'_toNat, Nat.shiftRight_eq_div_pow]

theorem immLowField_toNat (h : Word) : (immLowField h).toNat = h.toNat / 65536 % 256 := by
  simp [immLowField, BitVec.extractLsb'_toNat, Nat.shiftRight_eq_div_pow]

theorem immHighField_toNat (h : Word) : (immHighField h).toNat = h.toNat / 16777216 % 256 := by
  simp [immHighField, BitVec.extractLsb'_toNat, Nat.shiftRight_eq_div_pow]

/-- The header `OP | n << 8 | imm << 16` as a number (30_encoding.md R91). -/
theorem headerWord_toNat (op : Byte) (n imm : Nat) :
    (headerWord op n imm).toNat = imm % 65536 * 65536 + n % 256 * 256 + op.toNat := by
  have : (headerWord op n imm).toNat = (BitVec.ofNat 16 imm ++ BitVec.ofNat 8 n ++ op).toNat := rfl
  rw [this, toNat_append_eq, toNat_append_eq]
  simp; omega

/-- The encoder's header is the one R91 says an assembler emits, for operands that fit their fields. -/
theorem headerWord_eq_asmHeader (op : Byte) {n imm : Nat} (hn : n < 256) (hi : imm < 65536) :
    headerWord op n imm = Machine.asmHeader op.toNat n imm := by
  apply BitVec.eq_of_toNat_eq
  have ho := op.isLt
  have e1 : op.toNat ||| n <<< 8 = n <<< 8 + op.toNat := by
    rw [Nat.or_comm, ← Nat.shiftLeft_add_eq_or_of_lt (by omega)]
  have e2 : (n <<< 8 + op.toNat) ||| imm <<< 16 = imm <<< 16 + (n <<< 8 + op.toNat) := by
    rw [Nat.or_comm, ← Nat.shiftLeft_add_eq_or_of_lt (i := 16) (by rw [Nat.shiftLeft_eq]; omega)]
  rw [headerWord_toNat, Machine.asmHeader]
  simp only [BitVec.toNat_or, BitVec.toNat_shiftLeft, BitVec.toNat_ofNat]
  rw [Nat.mod_eq_of_lt (show op.toNat < 2 ^ 32 by omega), Nat.mod_eq_of_lt (show n < 2 ^ 32 by omega),
    Nat.mod_eq_of_lt (show imm < 2 ^ 32 by omega), Nat.mod_eq_of_lt (show n <<< 8 < 2 ^ 32 by rw [Nat.shiftLeft_eq]; omega),
    Nat.mod_eq_of_lt (show imm <<< 16 < 2 ^ 32 by rw [Nat.shiftLeft_eq]; omega), e1, e2, Nat.shiftLeft_eq,
    Nat.shiftLeft_eq]
  omega

/-- The fields of a header the encoder makes (30_encoding.md R81). -/
theorem headerWord_fields (op : Byte) (n imm : Nat) :
    opField (headerWord op n imm) = op ∧ nField (headerWord op n imm) = BitVec.ofNat 8 n ∧
      immField (headerWord op n imm) = BitVec.ofNat 16 imm ∧ immLowField (headerWord op n imm) = BitVec.ofNat 8 imm ∧
      immHighField (headerWord op n imm) = BitVec.ofNat 8 (imm / 256) := by
  have h := op.isLt
  refine ⟨?_, ?_, ?_, ?_, ?_⟩ <;> apply BitVec.eq_of_toNat_eq <;>
    simp only [opField_toNat, nField_toNat, immField_toNat, immLowField_toNat, immHighField_toNat, headerWord_toNat,
      BitVec.toNat_ofNat] <;>
    omega

/-- A header is made of its three fields, with no bit left over. -/
theorem headerWord_of_fields (h : Word) : headerWord (opField h) (nField h).toNat (immField h).toNat = h := by
  apply BitVec.eq_of_toNat_eq
  have := h.isLt
  rw [headerWord_toNat, opField_toNat, nField_toNat, immField_toNat]
  omega

/-- BW_WRITE's value from its data words (30_encoding.md R84). -/
theorem valueOfWords_dataWords (v : BitVec 64) :
    valueOfWords (v.extractLsb' 0 32) (v.extractLsb' 32 32) = v := by
  apply BitVec.eq_of_toNat_eq
  have : (valueOfWords (v.extractLsb' 0 32) (v.extractLsb' 32 32)).toNat =
      (v.extractLsb' 32 32 ++ v.extractLsb' 0 32).toNat := rfl
  rw [this, toNat_append_eq]
  have := v.isLt
  simp [BitVec.extractLsb'_toNat, Nat.shiftRight_eq_div_pow]; omega

theorem dataWords_valueOfWords (w1 w2 : Word) :
    (valueOfWords w1 w2).extractLsb' 0 32 = w1 ∧ (valueOfWords w1 w2).extractLsb' 32 32 = w2 := by
  have h1 := w1.isLt
  have h2 := w2.isLt
  have : (valueOfWords w1 w2).toNat = (w2 ++ w1).toNat := rfl
  rw [toNat_append_eq] at this
  constructor <;> apply BitVec.eq_of_toNat_eq <;>
    simp [BitVec.extractLsb'_toNat, Nat.shiftRight_eq_div_pow, this] <;> omega

/-- A word from its four bytes (30_encoding.md R80). -/
theorem wordOfBytes_bytesOfWord (w : Word) :
    wordOfBytes (w.extractLsb' 0 8) (w.extractLsb' 8 8) (w.extractLsb' 16 8) (w.extractLsb' 24 8) = w := by
  apply BitVec.eq_of_toNat_eq
  have h := w.isLt
  have : (wordOfBytes (w.extractLsb' 0 8) (w.extractLsb' 8 8) (w.extractLsb' 16 8) (w.extractLsb' 24 8)).toNat =
      (w.extractLsb' 24 8 ++ w.extractLsb' 16 8 ++ w.extractLsb' 8 8 ++ w.extractLsb' 0 8).toNat := rfl
  rw [this, toNat_append_eq, toNat_append_eq, toNat_append_eq]
  simp [BitVec.extractLsb'_toNat, Nat.shiftRight_eq_div_pow]; omega
/-- The whole words of encoded words are those words (30_encoding.md R80). -/
theorem wordsOfBytes_flatMap (ws : List Word) : wordsOfBytes (ws.flatMap bytesOfWord) = ws := by
  induction ws with
  | nil => rfl
  | cons w ws ih =>
    rw [List.flatMap_cons]
    show wordsOfBytes (_ :: _ :: _ :: _ :: ws.flatMap bytesOfWord) = _
    rw [wordsOfBytes, ih, wordOfBytes_bytesOfWord]

/-- A word equals another exactly where their three fields do (30_encoding.md R81). -/
theorem word_eq_iff {h k : Word} : h = k ↔ opField h = opField k ∧ nField h = nField k ∧ immField h = immField k := by
  constructor
  · rintro rfl
    exact ⟨rfl, rfl, rfl⟩
  · rintro ⟨h1, h2, h3⟩
    rw [← headerWord_of_fields h, h1, h2, h3, headerWord_of_fields]

/-- A header matches a row field by field (30_encoding.md R85). -/
theorem OpRow.matchesWord_iff {r : OpRow} {h : Word} : r.matchesWord h = true ↔
    opField h &&& opField r.mask = opField r.pattern ∧ nField h &&& nField r.mask = nField r.pattern ∧
      immField h &&& immField r.mask = immField r.pattern := by
  unfold OpRow.matchesWord
  rw [beq_iff_eq, word_eq_iff]
  unfold opField nField immField
  rw [BitVec.extractLsb'_and, BitVec.extractLsb'_and, BitVec.extractLsb'_and]

/-! ## A command's words -/

/-- `splitCommand` takes exactly a command's words from the front. -/
theorem splitCommand_encode (i : Instr) (rest : List Word) : ∃ w1 w2,
    splitCommand (encode i ++ rest) = some ((headerWord i.opcode i.nOperand i.immOperand, w1, w2), rest) ∧
      (i.dataWords = [] ∨ i.dataWords = [w1, w2]) ∧
      commandLen (headerWord i.opcode i.nOperand i.immOperand) = (encode i).length := by
  have h1 := (headerWord_fields i.opcode i.nOperand i.immOperand).1
  unfold encode
  generalize headerWord i.opcode i.nOperand i.immOperand = h at *
  cases i with
  | bwWrite n v =>
    have h3 : commandLen h = 3 := by unfold commandLen; rw [h1]; rfl
    exact ⟨_, _, by unfold splitCommand; simp [Instr.dataWords, h3], .inr rfl, h3⟩
  | _ =>
    have h3 : commandLen h = 1 := by unfold commandLen; rw [h1]; rfl
    exact ⟨0, 0, by unfold splitCommand; simp [Instr.dataWords, h3], .inl rfl, h3⟩

/-- Words that `splitCommand` takes a command from start with that command's words (30_encoding.md R86). -/
theorem splitCommand_eq_some {ws rest : List Word} {h w1 w2 : Word} (hs : splitCommand ws = some ((h, w1, w2), rest)) :
    (commandLen h = 3 ∧ ws = h :: w1 :: w2 :: rest) ∨ (commandLen h = 1 ∧ ws = h :: rest ∧ w1 = 0 ∧ w2 = 0) := by
  match ws, hs with
  | k :: l, hs =>
    have h13 : commandLen k = 3 ∨ commandLen k = 1 := by unfold commandLen; split <;> simp
    unfold splitCommand at hs
    dsimp only at hs
    by_cases h3 : commandLen k = 3
    · rw [if_pos h3] at hs
      match l, hs with
      | _ :: _ :: _, hs => cases hs; exact .inl ⟨h3, rfl⟩
    · rw [if_neg h3] at hs
      cases hs
      exact .inr ⟨h13.resolve_left h3, rfl, rfl, rfl⟩

/-- What a header that decodes holds in its fields (30_encoding.md R82, R83). -/
theorem decode_eq_ok {h w1 w2 : Word} {i : Instr} (hd : decode h w1 w2 = .ok i) :
    (opField h).toNat = i.opcode.toNat ∧ (nField h).toNat = i.nOperand ∧ (immField h).toNat = i.immOperand ∧
      (commandLen h = 3 → i = .bwWrite (nField h).toNat (valueOfWords w1 w2)) := by
  unfold decode at hd
  split at hd
  case h_16 => cases hd
  all_goals
    rename_i hop
    have hlen : commandLen h = 3 → (opField h).toNat = 0x11 := fun h3 => by
      unfold commandLen at h3
      split at h3
      · rename_i h11; rw [h11]; rfl
      · cases h3
    simp only [usesNone, usesN, usesImm, usesImmLow, requireZero, Bool.and_eq_true, decide_eq_true_eq] at hd
    split at hd
    case isFalse => cases hd
    rename_i hz
    cases hd
    refine ⟨hop, ?_, ?_, fun h3 => ?_⟩
    · simp [Instr.nOperand, hz]
    · first
      | (simp [Instr.immOperand, hz]; done)
      | rfl
      | (obtain ⟨-, hz⟩ := hz
         have hz := congrArg BitVec.toNat hz
         rw [immHighField_toNat] at hz
         rw [Instr.immOperand, immField_toNat, immLowField_toNat]
         simp at hz
         omega)
    · have := hlen h3
      first | rfl | omega

/-- A 1-word command does not look at the data words (30_encoding.md R86). -/
theorem decode_one_word {h : Word} (h1 : commandLen h ≠ 3) (w1 w2 w1' w2' : Word) :
    decode h w1 w2 = decode h w1' w2' := by
  have hn : (opField h).toNat ≠ 0x11 := fun h2 => h1 (if_pos (BitVec.eq_of_toNat_eq h2))
  unfold decode
  generalize (opField h).toNat = n at hn
  split
  case h_4 => contradiction
  all_goals rfl

end Sys2Proof
end

