-- ==== Sys2Proof/Laws/HostPort.lean ====
section
/-! SUPPORT. What a step leaves on the command port, and what a host read observes (60_exceptions.md R226). -/

namespace Sys2Proof.Machine

/-! ## The command port -/

/-- A step of an active session leaves the command port and the partly received command alone. -/
theorem decRunLoop_port {n : Nat} {s t : State} (h : decRunLoop n s = some t) :
    t.cmdPort = s.cmdPort ∧ t.partCmd = s.partCmd :=
  (decRunLoop_induct (P := fun u => u.cmdPort = s.cmdPort ∧ u.partCmd = s.partCmd)
    (fun u hu _ _ => by
      obtain ⟨-, h1, h2, -⟩ := decActiveStep_frame u
      exact ⟨h1.trans hu.1, h2.trans hu.2⟩) ⟨rfl, rfl⟩ h).1

/-- A command with no command partly received takes no word from the port. -/
theorem exec_port {i : Instr} {s t : State} (hp : s.partCmd = .none) (h : exec i s = .next t) :
    t.cmdPort = s.cmdPort ∧ t.partCmd = .none := by
  by_cases hsr : i = .softReset
  · subst hsr
    cases h
    exact ⟨rfl, rfl⟩
  cases hf : s.fault with
  | true =>
    rw [exec_rejected hsr hf] at h
    cases h
    exact ⟨rfl, hp⟩
  | false =>
    by_cases hr : i = .decRun
    · subst hr
      rcases exec_decRun_cases hf h with ⟨-, rfl⟩ | ⟨-, u, hu, rfl⟩
      · exact ⟨rfl, hp⟩
      · obtain ⟨h1, h2⟩ := decRunLoop_port hu
        exact ⟨h1, h2.trans hp⟩
    · rw [exec_clear hsr hr hf] at h
      cases h
      rw [← hp]
      cases i with
      | decStep =>
        simp only [commandBody, decStepBody]
        cases hs : s.dec.state with
        | active =>
          obtain ⟨-, h1, h2, -⟩ := decActiveStep_frame s
          exact ⟨h1, h2⟩
        | _ => exact ⟨rfl, rfl⟩
      | _ =>
        simp only [commandBody, bwWriteBody, brAppendBody, brAtHeadBody, brReadBody, encBeginBody, encPushBody,
          encPushReset, encPushAdd, encFinishBody, decBeginBody]
        (repeat' split) <;> exact ⟨rfl, rfl⟩

/-- A step that takes a complete command leaves the words after it. -/
theorem step_pendingWords {s t : State} {c : Word × Word × Word} {rest : List Word}
    (hc : splitCommand s.pendingWords = some (c, rest)) (h : step s = .next t) : t.pendingWords = rest := by
  obtain ⟨hd, w1, w2⟩ := c
  rw [step_eq, hc] at h
  dsimp only at h
  have key : t.cmdPort = rest ∧ t.partCmd = .none := by
    split at h
    · exact exec_port rfl h
    · rw [State.illegalCommand, State.unlessFaulted] at h
      split at h <;> cases h <;> exact ⟨rfl, rfl⟩
  rw [State.pendingWords, key.1, key.2]
  rfl

/-- A complete command is at least one word. -/
theorem length_of_splitCommand {ws rest : List Word} {c : Word × Word × Word} (h : splitCommand ws = some (c, rest)) :
    rest.length < ws.length := by
  obtain ⟨hd, w1, w2⟩ := c
  rcases splitCommand_eq_some h with ⟨-, rfl⟩ | ⟨-, rfl, -⟩ <;> simp only [List.length_cons] <;> omega

/-! ## Every complete command issued -/

theorem State.caughtUp_eq_true {s : State} : s.caughtUp = true ↔ splitCommand s.pendingWords = none := by
  rw [State.caughtUp, Option.isNone_iff_eq_none]

/-- With no complete command on the port there is nothing to execute. -/
theorem completeIssued_of_caughtUp {s : State} (h : s.caughtUp = true) (n : Nat) : completeIssued n s = some s := by
  cases n <;> rw [completeIssued, if_pos h]

/-- The first complete command is a step. -/
theorem completeIssued_succ {s t : State} (hc : s.caughtUp = false) (h : step s = .next t) (n : Nat) :
    completeIssued (n + 1) s = completeIssued n t := by
  rw [completeIssued, if_neg (by simp [hc]), h]

/-- As many steps as there are words on the port are enough: more make no difference. -/
theorem completeIssued_eq_completed {n : Nat} {s : State} (hn : s.pendingWords.length ≤ n) :
    completeIssued n s = s.completed := by
  have key : ∀ (n m : Nat) (s : State), s.pendingWords.length ≤ n → s.pendingWords.length ≤ m →
      completeIssued n s = completeIssued m s := by
    intro n
    induction n with
    | zero =>
      intro m s h _
      have : s.caughtUp = true := by
        rw [State.caughtUp, List.length_eq_zero_iff.1 (Nat.le_zero.1 h)]
        rfl
      rw [completeIssued_of_caughtUp this, completeIssued_of_caughtUp this]
    | succ n ih =>
      intro m s h1 h2
      cases hc : s.caughtUp with
      | true => rw [completeIssued_of_caughtUp hc, completeIssued_of_caughtUp hc]
      | false =>
        obtain ⟨⟨c, rest⟩, hs⟩ := Option.ne_none_iff_exists'.1 (mt (State.caughtUp_eq_true (s := s)).2 (by simp [hc]))
        have hl := length_of_splitCommand hs
        obtain ⟨m, rfl⟩ : ∃ k, m = k + 1 := ⟨m - 1, by omega⟩
        cases ht : step s with
        | next t =>
          have hp := step_pendingWords hs ht
          rw [completeIssued_succ hc ht, completeIssued_succ hc ht]
          exact ih m t (by rw [hp]; omega) (by rw [hp]; omega)
        | _ r => rw [completeIssued, completeIssued, if_neg (by simp [hc]), if_neg (by simp [hc]), ht]
  exact key _ _ s hn le_rfl

theorem State.completed_of_caughtUp {s : State} (h : s.caughtUp = true) : s.completed = some s :=
  completeIssued_of_caughtUp h _

/-- Completing the commands issued starts with a step, where the first one is complete (20_memory.md R70). -/
theorem State.completed_of_step {s t : State} {c : Word × Word × Word} {rest : List Word}
    (hc : splitCommand s.pendingWords = some (c, rest)) (h : step s = .next t) : s.completed = t.completed := by
  have hf : s.caughtUp = false := by rw [State.caughtUp, hc]; rfl
  have hl := length_of_splitCommand hc
  rw [State.completed, show s.pendingWords.length = s.pendingWords.length - 1 + 1 by omega, completeIssued_succ hf h]
  exact completeIssued_eq_completed (by rw [step_pendingWords hc h]; omega)

/-! ## The host's reads -/

/-- With nothing pending a read shows the state itself. -/
theorem State.hostRead_of_nothing_pending {α : Type} {s : State} (h : s.pendingWords = []) (shows : State → α) :
    s.hostRead shows = some (shows s) := by
  have hc : s.caughtUp = true := by rw [State.caughtUp, h]; rfl
  rw [State.hostRead, State.completed_of_caughtUp hc, Option.bind_some, if_pos h]

/-- With a complete command next a read shows what it shows after that command. -/
theorem State.hostRead_of_step {α : Type} {s t : State} {c : Word × Word × Word} {rest : List Word}
    (hc : splitCommand s.pendingWords = some (c, rest)) (h : step s = .next t) (shows : State → α) :
    s.hostRead shows = t.hostRead shows := by
  rw [State.hostRead, State.hostRead, State.completed_of_step hc h]

/-- Inside an incomplete command there is no read. -/
theorem State.hostRead_of_incomplete {α : Type} {s : State} (h : splitCommand s.pendingWords = none)
    (hne : s.pendingWords ≠ []) (shows : State → α) : s.hostRead shows = none := by
  rw [State.hostRead, State.completed_of_caughtUp (State.caughtUp_eq_true.2 h), Option.bind_some, if_neg hne]

end Sys2Proof.Machine
end

