-- ==== Sys2Proof/Laws/Invariant.lean ====
section
/-! SUPPORT. Each command's pseudocode, fault entry and the rejection keep `State.Inv`. -/

namespace Sys2Proof.Machine

/-- A command that completes keeps the fault registers' invariant (60_exceptions.md R212). -/
theorem State.FaultInv.done {s : State} (hf : s.fault = false) (h : s.FaultInv) (t : State)
    (h1 : t.fault = s.fault) (h2 : t.faultCode = s.faultCode) : (t.setLastResult .ok).FaultInv where
  pending := fun h => by simp [h1, hf] at h
  clear := fun _ => by simp [h2, (h.clear hf).1]

/-- Fault entry (60_exceptions.md R213). -/
theorem State.faultInv_raiseFault (s : State) (f : FaultCode) : (s.raiseFault f).FaultInv where
  pending := fun _ => ⟨f, rfl, .inl rfl⟩
  clear := fun h => by cases h

/-- Fault entry keeps the invariant (60_exceptions.md R213). -/
theorem State.Inv.raiseFault {s : State} (h : s.Inv) (f : FaultCode) : (s.raiseFault f).Inv where
  part := h.part
  faults := State.faultInv_raiseFault s f
  bw := h.bw
  br := h.br
  out := h.out
  enc := h.enc
  dec := h.dec

/-- A rejected command keeps the invariant (60_exceptions.md R214). -/
theorem State.Inv.reject {s : State} (h : s.Inv) (hf : s.fault = true) : s.reject.Inv where
  part := h.part
  faults := {
     pending := fun _ => by
       obtain ⟨f, h1, h2⟩ := h.faults.pending hf
       exact ⟨f, h1, .inr rfl⟩
     clear := fun h => by
        have : s.fault = false := h
        simp [hf] at this }
  bw := h.bw
  br := h.br
  out := h.out
  enc := h.enc
  dec := h.dec

/-- A command that reports an error (60_exceptions.md R216). -/
theorem State.FaultInv.error {s : State} (hf : s.fault = false) (h : s.FaultInv) (e : ErrorCode)
    (he : e ≠ .emptySequence) (t : State) (h1 : t.fault = s.fault) (h2 : t.faultCode = s.faultCode) :
    (t.setLastResult (.error e)).FaultInv where
  pending := fun h => by simp [h1, hf] at h
  clear := fun _ => by simp [h2, (h.clear hf).1, he]

/-- A decode error held (60_exceptions.md R216). -/
theorem Decoder.Inv.setError {d : Decoder} (h : d.Inv) (e : ErrorCode) (he : e ≠ .emptySequence) :
    Decoder.Inv { d with state := .error, err := .error e } where
  idle := fun h => by cases h
  unopened := fun h0 => by
    have := h.unopened h0
    exact ⟨.inr rfl, this.2⟩
  opened := fun h0 => (h.opened h0).setState _ _
  errorCode := fun _ => ⟨e, he, rfl⟩
  noError := fun h => absurd rfl h
  prevInvalid := h.prevInvalid

/-- The decoder of a session just opened (43_lzw_decoder.md R170). -/
theorem Decoder.inv_opened (d : Decoder) {m : Nat} (h1 : 2 ≤ m) (h2 : m ≤ 8) : (d.opened m).Inv where
  idle := fun h => by cases h
  unopened := fun h0 => by
    have : m = 0 := h0
    omega
  opened := fun _ => by
    exact Decoder.openInv_tableReset (d := {d with min := m}) h1 h2 _ _ _
  errorCode := fun h => by cases h
  noError := fun _ => rfl
  prevInvalid := fun _ => rfl

/-- ENC_BEGIN keeps the invariant (42_lzw_encoder.md R150). -/
theorem encBeginBody_inv {s : State} (h : s.Inv) (hf : s.fault = false) (cc : Nat) :
    (s.finish (encBeginBody cc s)).Inv := by
  rw [encBeginBody]
  split
  · rename_i hcc
    split
    · rename_i hfit
      simp [colorCountInRange] at hcc
      have ho := s.enc.openInv_opened hcc.1 hcc.2
      refine ⟨h.part, h.faults.done hf _ rfl rfl, ?_, h.br, h.out, ?_, h.dec⟩
      · exact h.bw.writeBits _ _ hfit
      · exact ⟨(by intro h; cases h), fun _ => ho⟩
    · exact h.raiseFault _
  · exact h.raiseFault _

/-- ENC_PUSH keeps the invariant (42_lzw_encoder.md R153). -/
theorem encPushBody_inv {s : State} (h : s.Inv) (hf : s.fault = false) (i : Nat) :
    (s.finish (encPushBody i s)).Inv := by
  rw [encPushBody]
  split
  · rename_i hact
    have ho := h.enc.opened (by rw [hact]; simp)
    split
    · rename_i hi
      split
      · rename_i hk
        refine ⟨h.part, h.faults.done hf _ rfl rfl, h.bw, h.br, h.out, ?_, h.dec⟩
        refine ⟨(by intro h; simp [hact] at h), fun _ => ?_⟩
        refine ho.setBuf (by simp) ?_ (by simp [hact])
        rw [Encoder.knows_iff] at hk
        rcases hk with hk | hk
        · left
          refine ⟨i, ?_, hi⟩
          cases hb : s.enc.buf with
          | nil => rfl
          | cons a l => simp [hb] at hk
        · exact .inr hk
      · rename_i hk
        rw [Encoder.knows_iff] at hk
        push Not at hk
        have hne : s.enc.buf ≠ [] := by intro h; simp [h] at hk
        split
        · rw [encPushReset]
          split
          · rename_i hfit
            have hcap : withinCap s.cfg.bwCap (ceilDiv (s.bw.bitpos + s.enc.cs + s.enc.cs) 8) = true := by
              have := hfit
              rw [State.bwFits, Nat.two_mul, ← Nat.add_assoc] at this; exact this
            refine ⟨h.part, h.faults.done hf _ rfl rfl, ?_, h.br, h.out, ?_, h.dec⟩
            · refine BitWriter.Inv.writeBits (BitWriter.Inv.writeBits h.bw _ _ ?_) _ _ hcap
              refine withinCap_mono hcap ?_
              simp only [ceilDiv_eight]; omega
            · refine ⟨(by intro h; simp [Encoder.tableReset, hact] at h), fun _ => ?_⟩
              exact ho.tableReset [i] s.enc.state (.inr ⟨i, rfl, hi⟩) (by simp [hact])
          · exact h.raiseFault _
        · rw [encPushAdd]
          split
          · rename_i hfit
            refine ⟨h.part, h.faults.done hf _ rfl rfl, ?_, h.br, h.out, ?_, h.dec⟩
            · exact h.bw.writeBits _ _ hfit
            · refine ⟨(by intro h; simp [Encoder.add, hact] at h), fun _ => ?_⟩
              exact ho.add hi hact hne hk.2 (by omega)
          · exact h.raiseFault _
    · exact h.raiseFault _
  · exact h.raiseFault _

/-- ENC_FINISH keeps the invariant (42_lzw_encoder.md R157). -/
theorem encFinishBody_inv {s : State} (h : s.Inv) (hf : s.fault = false) : (s.finish (encFinishBody s)).Inv := by
  rw [encFinishBody]
  split
  · rename_i hact
    have ho := h.enc.opened (by rw [hact]; simp)
    dsimp only
    generalize hbb : (if s.enc.buf = [] then 0 else s.enc.cs) = b
    split
    · rename_i hfit
      subst hbb
      refine ⟨h.part, h.faults.done hf _ rfl rfl, ?_, h.br, h.out, ?_, h.dec⟩
      · show BitWriter.Inv s.cfg ((writeFinalCode s.enc s.bw).writeBits _ _)
        rw [State.bwFits] at hfit
        rw [writeFinalCode]
        split
        · rename_i hb
          rw [if_pos hb, Nat.zero_add] at hfit
          exact h.bw.writeBits _ _ hfit
        · rename_i hb
          rw [if_neg hb, ← Nat.add_assoc] at hfit
          refine BitWriter.Inv.writeBits (BitWriter.Inv.writeBits h.bw _ _ ?_) _ _ hfit
          refine withinCap_mono hfit ?_
          simp only [ceilDiv_eight]; omega
      · refine ⟨(by intro h; cases h), fun _ => ?_⟩
        have hg : s.enc.cs ≤ finishCs s.cfg s.enc ∧ finishCs s.cfg s.enc ≤ 12 ∧
            s.enc.count ≤ 2 ^ finishCs s.cfg s.enc := by
          have := ho.lt_grownCs
          have h2 := ho.width
          have h3 := ho.fits
          rw [maxCodeSize_eq] at h2
          rw [finishCs]; split
          · omega
          · omega
        exact { colorCount := ho.colorCount, min := ho.min, minRange := ho.minRange,
                width := ⟨by have := ho.width; show s.enc.min + 1 ≤ finishCs s.cfg s.enc; omega, hg.2.1⟩,
                count := ho.count, fits := hg.2.2,
                codes := ho.codes, keysDistinct := ho.keysDistinct, keysLong := ho.keysLong, keysPrefixed :=
                    ho.keysPrefixed,
                keysBounded := ho.keysBounded, buffer := .inl rfl, finished := fun _ => rfl, fresh :=
                    fun h => by cases h }
    · exact h.raiseFault _
  · exact h.raiseFault _

theorem decActiveStep_faultInv {s : State} (h : s.Inv) (hf : s.fault = false) :
    (s.finish (decActiveStep s)).FaultInv := by
  rcases decActiveStep_cases s with ⟨-, he⟩ | ⟨c, hp,
      ⟨-, he⟩ | ⟨-, -, he⟩ | ⟨h1, h2, ⟨e, hem, he⟩ | ⟨seq, new, -, ⟨-, he⟩ | ⟨-, he⟩⟩⟩⟩ <;>
    rw [he]
  · exact State.FaultInv.error hf h.faults .truncated (by simp) _ rfl rfl
  · exact h.faults.done hf _ rfl rfl
  · exact h.faults.done hf _ rfl rfl
  · refine State.FaultInv.error hf h.faults e ?_ _ rfl rfl
    by_cases hm : s.dec.min = 0
    · have hu := h.dec.unopened hm
      intro hE; subst hE
      rw [Decoder.emission] at hem
      simp [hu.2.2.2.2, PrevCode.invalid, Decoder.prevSeq, Decoder.seqOf, Decoder.clear, hm, hu.2.2.1] at hem
    · rw [(h.dec.opened hm).emission_error hem]; simp
  · exact h.faults.done hf _ rfl rfl
  · exact State.faultInv_raiseFault _ _

/-- A step of an active session keeps the invariant (43_lzw_decoder.md R173). -/
theorem decActiveStep_stateInv {s : State} (h : s.Inv) (hf : s.fault = false) (hact : s.dec.state = .active) :
    (s.finish (decActiveStep s)).Inv := by
  have h1 := decActiveStep_inv hact h.dec h.br h.out
  obtain ⟨a, b, c, d, e, f, g, i⟩ := decActiveStep_frame s
  exact ⟨by rw [c]; exact h.part, decActiveStep_faultInv h hf, by rw [a, f]; exact h.bw, by rw [a]; exact h1.2.1,
      by rw [a]; exact h1.2.2, by rw [g]; exact h.enc, h1.1⟩

/-- What a command's pseudocode leaves keeps the invariant. -/
theorem commandBody_inv {s : State} (h : s.Inv) (hf : s.fault = false) (i : Instr) (h1 : i ≠ .softReset)
    (h2 : i ≠ .decRun) : (s.finish (commandBody i s)).Inv := by
  cases i with
  | nop => exact ⟨h.part, h.faults.done hf _ rfl rfl, h.bw, h.br, h.out, h.enc, h.dec⟩
  | softReset => contradiction
  | bwClear => exact ⟨h.part, h.faults.done hf _ rfl rfl, BitWriter.inv_empty _, h.br, h.out, h.enc, h.dec⟩
  | bwWrite n v =>
    show (s.finish (bwWriteBody n v s)).Inv
    rw [bwWriteBody]
    split
    · split
      · rename_i hfit
        exact ⟨h.part, h.faults.done hf _ rfl rfl, h.bw.writeBits _ _ hfit, h.br, h.out, h.enc, h.dec⟩
      · exact h.raiseFault _
    · exact h.raiseFault _
  | brClear => exact ⟨h.part, h.faults.done hf _ rfl rfl, h.bw, BitReader.inv_empty _, h.out, h.enc, h.dec⟩
  | brAppend b =>
    show (s.finish (brAppendBody b s)).Inv
    rw [brAppendBody]
    split
    · rename_i hc
      exact ⟨h.part, h.faults.done hf _ rfl rfl, h.bw, h.br.append b hc, h.out, h.enc, h.dec⟩
    · exact h.raiseFault _
  | brAtHead =>
    show (s.finish (brAtHeadBody s)).Inv
    rw [brAtHeadBody]
    split
    · rename_i hc
      exact ⟨h.part, h.faults.done hf _ rfl rfl, h.bw, BitReader.inv_atHead h.bw.canonical hc, h.out, h.enc, h.dec⟩
    · exact h.raiseFault _
  | brRead n =>
    show (s.finish (brReadBody n s)).Inv
    rw [brReadBody]
    split
    · split
      · exact ⟨h.part, State.FaultInv.error hf h.faults .truncated (by simp) _ rfl rfl, h.bw, h.br, h.out, h.enc,
          h.dec⟩
      · rename_i v hv
        exact ⟨h.part, h.faults.done hf _ rfl rfl, h.bw, h.br.advance (BitReader.peekBits_eq_some.1 hv).1, h.out,
            h.enc, h.dec⟩
    · exact h.raiseFault _
  | encBegin cc => exact encBeginBody_inv h hf cc
  | encPush i => exact encPushBody_inv h hf i
  | encFinish => exact encFinishBody_inv h hf
  | decBegin m =>
    show (s.finish (decBeginBody m s)).Inv
    rw [decBeginBody]
    split
    · rename_i hm
      simp [minCodeSizeInRange] at hm
      exact ⟨h.part, h.faults.done hf _ rfl rfl, h.bw, h.br, h.out, h.enc, s.dec.inv_opened hm.1 hm.2⟩
    · exact ⟨h.part, State.FaultInv.error hf h.faults .minCodeSize (by simp) (s.setDec _) rfl rfl, h.bw, h.br,
        h.out, h.enc, Decoder.Inv.setError h.dec .minCodeSize (by simp)⟩
  | decStep =>
    show (s.finish (decStepBody s)).Inv
    rw [decStepBody]
    split
    · exact h.raiseFault _
    · exact ⟨h.part, h.faults.done hf _ rfl rfl, h.bw, h.br, h.out, h.enc, h.dec⟩
    · rename_i he
      obtain ⟨e, h1, h2⟩ := h.dec.errorCode he
      rw [h2]
      exact ⟨h.part, State.FaultInv.error hf h.faults e h1 _ rfl rfl, h.bw, h.br, h.out, h.enc, h.dec⟩
    · rename_i ha
      exact decActiveStep_stateInv h hf ha
  | decRun => contradiction
  | outClear => exact ⟨h.part, h.faults.done hf _ rfl rfl, h.bw, h.br, outInv_empty _, h.enc, h.dec⟩



/-- Only the words of an incomplete 3-word command are held (30_encoding.md R93). -/
theorem partCommand_inv_ofWords {ws : List Word} (h : splitCommand ws = none) :
    (PartCommand.ofWords ws).Inv := by
  match ws, h with
  | [], _ => trivial
  | [a], h =>
    unfold splitCommand at h
    dsimp only at h
    by_cases h3 : commandLen a = 3
    · exact h3
    · rw [if_neg h3] at h; cases h
  | a :: b :: l, h =>
    unfold splitCommand at h
    dsimp only at h
    by_cases h3 : commandLen a = 3
    · exact h3
    · rw [if_neg h3] at h; cases h

end Sys2Proof.Machine
end

