-- ==== Sys2Proof/Laws/Stream.lean ====
section
/-! SUPPORT. Lists of values written to the bit writer one after another and found in a memory in that order
(40_bitstream.md R112), and command sequences. -/

namespace Sys2Proof.Machine

theorem execAll_append (l k : List Instr) (s : State) : execAll (l ++ k) s = (execAll l s).bind (execAll k) := by
  induction l generalizing s with
  | nil => rfl
  | cons i l ih =>
    simp only [List.cons_append, execAll]
    cases exec i s <;> first | exact ih _ | rfl

/-- Values written one after another, each as (bit count, value). -/
def BitWriter.writeList (w : BitWriter) : List (Nat × Nat) → BitWriter
  | [] => w
  | (n, v) :: l => (w.writeBits v n).writeList l

/-- The memory holds these values one after another from a bit position on. -/
def Memory.HasVals (m : Memory) (p : Nat) : List (Nat × Nat) → Prop
  | [] => True
  | (n, v) :: l => (p + n ≤ 8 * m.len ∧ ∀ j, j < n → m.bit (p + j) = v.testBit j) ∧ m.HasVals (p + n) l

theorem BitWriter.writeList_append (w : BitWriter) (l k : List (Nat × Nat)) :
    w.writeList (l ++ k) = (w.writeList l).writeList k := by
  induction l generalizing w with
  | nil => rfl
  | cons p l ih => exact ih _

theorem BitWriter.writeList_bitpos (w : BitWriter) (l : List (Nat × Nat)) :
    (w.writeList l).bitpos = w.bitpos + (l.map Prod.fst).sum := by
  induction l generalizing w with
  | nil => rfl
  | cons p l ih => rw [BitWriter.writeList, ih]; simp [Nat.add_assoc]

theorem BitWriter.Inv.writeList {cfg : Config} (hc : cfg.bwCap = none) {w : BitWriter} (h : w.Inv cfg)
    (l : List (Nat × Nat)) : (w.writeList l).Inv cfg := by
  induction l generalizing w with
  | nil => exact h
  | cons p l ih => exact ih (h.writeBits _ _ (by rw [hc]; rfl))

theorem BitWriter.Inv.bit_writeList_of_lt {cfg : Config} (hc : cfg.bwCap = none) {w : BitWriter} (h : w.Inv cfg)
    (l : List (Nat × Nat)) {p : Nat} (hp : p < w.bitpos) : (w.writeList l).mem.bit p = w.mem.bit p := by
  induction l generalizing w with
  | nil => rfl
  | cons q l ih =>
    rw [BitWriter.writeList, ih (h.writeBits _ _ (by rw [hc]; rfl)) (by rw [BitWriter.writeBits_bitpos]; omega),
      h.bit_writeBits_of_lt _ _ hp]

/-- What is written is found. -/
theorem BitWriter.Inv.hasVals_writeList {cfg : Config} (hc : cfg.bwCap = none) {w : BitWriter} (h : w.Inv cfg)
    (l : List (Nat × Nat)) : (w.writeList l).mem.HasVals w.bitpos l := by
  induction l generalizing w with
  | nil => trivial
  | cons q l ih =>
    obtain ⟨n, v⟩ := q
    have hi := h.writeBits v n (by rw [hc]; rfl)
    refine ⟨⟨?_, fun j hj => ?_⟩, ih hi⟩
    · rw [(BitWriter.Inv.writeList hc h ((n, v) :: l)).length, BitWriter.writeList_bitpos, ceilDiv_eight]
      simp
      omega
    · rw [BitWriter.writeList, BitWriter.Inv.bit_writeList_of_lt hc hi _ (by rw [BitWriter.writeBits_bitpos]; omega),
        BitWriter.bit_writeBits h.canonical h.length h.padding, if_neg (by omega), if_pos (by omega)]
      simp

/-- A value that is found is the one PeekBits gives (20_memory.md R62). -/
theorem Memory.HasVals.peekBits {m : Memory} {p n v : Nat} {l : List (Nat × Nat)} (h : m.HasVals p ((n, v) :: l))
    (hv : v < 2 ^ n) : BitReader.peekBits { mem := m, bitpos := p } n = some v := by
  obtain ⟨⟨a, b⟩, -⟩ := h
  rw [BitReader.peekBits_eq_some]
  exact ⟨a, by rw [Memory.bitsAt_eq_mod b, Nat.mod_eq_of_lt hv]⟩

end Sys2Proof.Machine
end

