-- ==== Sys2Proof/Laws/LzwSync.lean ====
section
/-! SUPPORT. Encoder and decoder in step (42_lzw_encoder.md R162): between two codes the decoder is one entry behind
the encoder, and each code it reads gives it the encoder's buffer back. -/

namespace Sys2Proof.Machine

/-- Between two codes the decoder is one entry behind the encoder. -/
structure Sync (e : Encoder) (d : Decoder) : Prop where
  min : e.min = d.min
  cs : e.cs = d.cs
  tables : (e.table = [] ∧ e.count = e.clear + 2 ∧ e.cs = e.min + 1 ∧ d.table = [] ∧ d.count = e.count ∧
      d.prev.valid = false) ∨
    ∃ t q y, e.table = t ++ [(q ++ [y], d.count)] ∧ d.table = t.map Prod.swap ∧ e.count = d.count + 1 ∧
        d.prev.valid = true ∧
     d.seqOf d.prev.code.toNat = some q ∧ e.buf.head? = some y

theorem encLookup_of_mem {t : List (List Nat × Nat)} (hn : (t.map Prod.fst).Nodup) {k : List Nat} {c : Nat}
    (h : (k, c) ∈ t) : encLookup t k = some c := by
  induction t with
  | nil => cases h
  | cons p t ih =>
    obtain ⟨k', c'⟩ := p
    simp only [List.map_cons, List.nodup_cons] at hn
    rw [encLookup]
    rcases List.mem_cons.1 h with h | h
    · cases h; simp
    · rw [if_neg, ih hn.2 h]
      rintro rfl
      exact hn.1 (List.mem_map_of_mem h)

theorem decLookup_of_mem {t : List (Nat × List Nat)} (hn : (t.map Prod.fst).Nodup) {k : Nat} {c : List Nat}
    (h : (k, c) ∈ t) : decLookup t k = some c := by
  induction t with
  | nil => cases h
  | cons p t ih =>
    obtain ⟨k', c'⟩ := p
    simp only [List.map_cons, List.nodup_cons] at hn
    rw [decLookup]
    rcases List.mem_cons.1 h with h | h
    · cases h; simp
    · rw [if_neg, ih hn.2 h]
      rintro rfl
      exact hn.1 (List.mem_map_of_mem h)

/-- A decoder whose table is the encoder's, the other way round, gives every code its sequence. -/
theorem Decoder.seqOf_codeOf {e : Encoder} (he : e.OpenInv) {d : Decoder} (hm : e.min = d.min)
    (ht : d.table = e.table.map Prod.swap) (hc : d.count = e.count)
    {s : List Nat} (hs : e.HasCode s) : d.seqOf (e.codeOf s) = some s := by
  have hcl : d.clear = e.clear := by rw [Decoder.clear, Encoder.clear, hm]
  rcases hs with ⟨i, rfl, hi⟩ | hs
  · rw [Encoder.codeOf_literal, Decoder.seqOf, if_pos (by omega)]
  · have hl := he.keysLong s hs
    obtain ⟨c, hcl'⟩ := Option.isSome_iff_exists.1 (encLookup_isSome.2 hs)
    rw [Encoder.codeOf_key (by omega) hcl']
    have hm' := encLookup_mem hcl'
    have hr : c ∈ e.table.map Prod.snd := List.mem_map_of_mem hm'
    rw [he.codes, List.mem_range'] at hr
    obtain ⟨j, hj, rfl⟩ := hr
    rw [Decoder.seqOf, if_neg (by omega), if_pos (by omega), ht]
    apply decLookup_of_mem
    · rw [List.map_map]
      have : (Prod.fst ∘ Prod.swap : List Nat × Nat → Nat) = Prod.snd := rfl
      rw [this, he.codes]
      exact List.nodup_range'
    · exact List.mem_map.2 ⟨_, hm', rfl⟩

/-- What the decoder does with the encoder's next code, the buffer's. -/
theorem Sync.emission {e : Encoder} (he : e.OpenInv) {d : Decoder} (hd : d.OpenInv) (h : Sync e d) (hb : e.buf ≠ []) :
    ∃ new, d.emission (e.codeOf e.buf) = .ok (e.buf, new) ∧ e.codeOf e.buf < 4096 ∧
      e.codeOf e.buf ≠ d.clear ∧ e.codeOf e.buf ≠ d.eoi ∧
      (d.afterCode (e.codeOf e.buf) new).table = e.table.map Prod.swap ∧
      (d.afterCode (e.codeOf e.buf) new).count = e.count ∧
      (d.afterCode (e.codeOf e.buf) new).cs = e.grownCs ∧
      (d.afterCode (e.codeOf e.buf) new).seqOf (e.codeOf e.buf) = some e.buf := by
  have hcode := he.buffer.resolve_left hb
  have hcl : d.clear = e.clear := by rw [Decoder.clear, Encoder.clear, h.min]
  have hlt := he.codeOf_lt hcode
  have hw := he.width
  rw [maxCodeSize_eq] at hw
  have hpow := Nat.pow_le_pow_right (n := 2) (by omega) hw.2
  have hne : e.codeOf e.buf ≠ d.clear ∧ e.codeOf e.buf ≠ d.eoi := by
    rw [hd.eoi_eq, ← hd.clear_eq, hcl]
    rcases hcode with ⟨i, hi, hi'⟩ | hs
    · rw [hi, Encoder.codeOf_literal]; omega
    · have hl := he.keysLong _ hs
      obtain ⟨c, hcl'⟩ := Option.isSome_iff_exists.1 (encLookup_isSome.2 hs)
      rw [Encoder.codeOf_key (by omega) hcl']
      have hr : c ∈ e.table.map Prod.snd := List.mem_map_of_mem (encLookup_mem hcl')
      rw [he.codes, List.mem_range'] at hr
      obtain ⟨j, hj, rfl⟩ := hr
      omega
  rcases h.tables with ⟨t1, t2, t3, t4, t5, t6⟩ | ⟨t, q, y, t1, t2, t3, t4, t5, t6⟩
  · have hs := Decoder.seqOf_codeOf he h.min (by rw [t4, t1]; rfl) t5 hcode
    obtain ⟨x, xs, hx⟩ := List.exists_cons_of_ne_nil hb
    refine ⟨none, ?_, by omega, hne.1, hne.2, ?_, ?_, ?_, ?_⟩
    · rw [Decoder.emission, if_neg (by simp [t6]), hs, hx, Decoder.prevSeq, if_neg (by simp [t6])]
    · show d.table = _; rw [t4, t1]; rfl
    · exact t5
    · show d.cs = _
      rw [Encoder.grownCs_eq, if_neg, h.cs]
      rintro ⟨a, -⟩
      have := clear_add_two_lt he.minRange.1
      rw [t3, t2, he.clear_eq] at a; omega
    · exact hs
  · have hcnt : d.count < 4096 := by have := he.count; rw [encResetCount_eq] at this; omega
    have hq := hd.seqOf_spec t5
    have hadd := Decoder.add_eq hd (by rw [decTableLimit_eq]; exact hcnt) (q ++ [y])
    have hprev : d.prevSeq = some q := by rw [Decoder.prevSeq, if_pos t4, t5]
    have hem : d.emission (e.codeOf e.buf) = .ok (e.buf, some (q ++ [y])) := by
      obtain ⟨xs, hx⟩ : ∃ xs, e.buf = y :: xs := by
        cases hb' : e.buf with
        | nil => contradiction
        | cons a l => rw [hb'] at t6; simp at t6; exact ⟨l, by rw [t6]⟩
      have hlook : e.codeOf e.buf = d.count ∧ e.buf = q ++ [y] ∨ d.seqOf (e.codeOf e.buf) = some e.buf := by
        rcases hcode with ⟨i, hi, hi'⟩ | hs
        · right; rw [hi, Encoder.codeOf_literal, Decoder.seqOf, if_pos (by omega)]
        · have hl := he.keysLong _ hs
          obtain ⟨c, hcl'⟩ := Option.isSome_iff_exists.1 (encLookup_isSome.2 hs)
          rw [Encoder.codeOf_key (by omega) hcl']
          have hm := encLookup_mem hcl'
          rw [t1, List.mem_append, List.mem_singleton] at hm
          rcases hm with hm | hm
          · right
            have hr : c ∈ e.table.map Prod.snd := List.mem_map_of_mem (encLookup_mem hcl')
            rw [he.codes, List.mem_range'] at hr
            have hm2 : (c, e.buf) ∈ d.table := by rw [t2]; exact List.mem_map.2 ⟨_, hm, rfl⟩
            have hlt2 := hd.table_lt hm2
            dsimp only at hlt2
            rw [Decoder.seqOf, if_neg (by omega), if_pos hlt2]
            apply decLookup_of_mem _ hm2
            rw [hd.domain]; exact List.nodup_range'
          · left; rw [Prod.mk.injEq] at hm; exact ⟨hm.2, hm.1⟩
      rcases hlook with ⟨a, b⟩ | hs
      · have hn : d.seqOf (e.codeOf e.buf) = none := by
          have := hd.count
          rw [a, Decoder.seqOf, if_neg (by omega), if_neg (by omega)]
        obtain ⟨z, zs, hz⟩ := List.exists_cons_of_ne_nil hq.1
        have hzy : z = y := by rw [b, hz] at t6; simpa using t6
        subst hzy
        rw [Decoder.emission, if_neg (by simp [hprev]), hn, hprev, b, hz]
      · rw [Decoder.emission, if_neg (by simp [hprev]), hs, hprev, hx]
    have htab : (d.afterCode (e.codeOf e.buf) (some (q ++ [y]))).table = e.table.map Prod.swap := by
      show (d.add (q ++ [y])).table = _
      rw [hadd, t1, t2]; simp
    have hcount : (d.afterCode (e.codeOf e.buf) (some (q ++ [y]))).count = e.count := by
      show (d.add (q ++ [y])).count = _
      rw [hadd, t3]
    refine ⟨some (q ++ [y]), hem, by omega, hne.1, hne.2, htab, hcount, ?_, ?_⟩
    · show (d.add (q ++ [y])).cs = _
      rw [hadd, Encoder.grownCs_eq, h.cs, t3]
    · exact Decoder.seqOf_codeOf he (by rw [Decoder.afterCode_min]; exact h.min) htab hcount hcode

/-- The codes an encoder writes for a sequence of indices and then ENC_FINISH, with their widths. -/
def Encoder.codesOf (e : Encoder) : List Nat → List (Nat × Nat)
  | [] => if e.buf = [] then [(e.grownCs, e.eoi)] else [(e.cs, e.codeOf e.buf), (e.grownCs, e.eoi)]
  | i :: is =>
    if e.knows (e.buf ++ [i]) then Encoder.codesOf { e with buf := e.buf ++ [i] } is
    else if encResetCount ≤ e.count then (e.cs, e.codeOf e.buf) :: (e.cs, e.clear) :: Encoder.codesOf
        { e.tableReset with buf := [i] } is
    else (e.cs, e.codeOf e.buf) :: Encoder.codesOf { e.add (e.buf ++ [i]) with buf := [i] } is

structure Consumed (s s' : State) (w : Nat) (q : List Nat) : Prop where
  fault : s'.fault = s.fault
  cfg : s'.cfg = s.cfg
  mem : s'.br.mem = s.br.mem
  pos : s'.br.bitpos = s.br.bitpos + w
  out : s'.out = s.out.appendIndices q

/-- one ordinary code-/
theorem Sync.bufferCode {e : Encoder} (he : e.OpenInv) {s : State} (ha : s.dec.state = .active)
    (ho : s.cfg.outCap = none) (hd : s.dec.OpenInv) (h : Sync e s.dec) (hb : e.buf ≠ [])
   {l} (hv : Memory.HasVals s.br.mem s.br.bitpos ((e.cs, e.codeOf e.buf) :: l)) :
   ∃ s', s.finish (decActiveStep s) = s' ∧ Consumed s s' e.cs e.buf ∧ s'.dec.OpenInv ∧ s'.dec.state = .active ∧
       s'.dec.min = e.min ∧
      s'.dec.table = e.table.map Prod.swap ∧ s'.dec.count = e.count ∧ s'.dec.cs = e.grownCs ∧
          s'.dec.prev.valid = true ∧ s'.dec.seqOf s'.dec.prev.code.toNat = some e.buf := by
  obtain ⟨new, h1, h2, h3, h4, h5, h6, h7, h8⟩ := Sync.emission he hd h hb
  have hp := Memory.HasVals.peekBits hv (he.codeOf_lt (he.buffer.resolve_left hb))
  rw [h.cs] at hp
  refine ⟨(((s.setBr (s.br.advance e.cs)).setDec (s.dec.afterCode (e.codeOf e.buf) new)).setOut
      (s.out.appendIndices e.buf)).setLastResult .ok, ?_, ⟨rfl, rfl, rfl, rfl, rfl⟩, hd.afterCode h1, ?_, ?_, h5,
          h6, h7, rfl, ?_⟩
  · rw [decActiveStep]
    have : s.br.peekBits s.dec.cs = some (e.codeOf e.buf) := hp
    rw [this]
    dsimp only
    rw [decCode, if_neg h3, if_neg h4, decOrdinary, h1]
    dsimp only
    rw [if_pos (by rw [ho]; rfl), h.cs]; rfl
  · show (s.dec.afterCode (e.codeOf e.buf) new).state = _
    rw [Decoder.afterCode_state, ha]
  · show (s.dec.afterCode (e.codeOf e.buf) new).min = _
    rw [Decoder.afterCode_min, h.min]
  · have : (BitVec.ofNat 12 (e.codeOf e.buf)).toNat = e.codeOf e.buf := by
      rw [BitVec.toNat_ofNat, Nat.mod_eq_of_lt (by omega)]
    show (s.dec.afterCode (e.codeOf e.buf) new).seqOf (BitVec.ofNat 12 (e.codeOf e.buf)).toNat = _
    rw [this]; exact h8

theorem decActiveStep_clear {s : State} {n : Nat} (hn : n = s.dec.cs) (hc : s.dec.clear < 2 ^ n) {l}
    (hv : Memory.HasVals s.br.mem s.br.bitpos ((n, s.dec.clear) :: l)) :
   ∃ s', s.finish (decActiveStep s) = s' ∧ Consumed s s' n [] ∧ s'.dec =
       { s.dec.tableReset with prev := PrevCode.invalid } := by
  have hp := Memory.HasVals.peekBits hv hc
  subst hn
  refine ⟨((s.setBr (s.br.advance s.dec.cs)).setDec
      { s.dec.tableReset with prev := PrevCode.invalid }).setLastResult .ok, ?_, ⟨rfl, rfl, rfl, rfl, rfl⟩, rfl⟩
  rw [decActiveStep]
  have : s.br.peekBits s.dec.cs = some s.dec.clear := hp
  rw [this]
  dsimp only
  rw [decCode, if_pos rfl]; rfl

theorem decActiveStep_eoi {s : State} (hd : s.dec.OpenInv) {n : Nat} (hn : n = s.dec.cs) (hc : s.dec.eoi < 2 ^ n)
    {l} (hv : Memory.HasVals s.br.mem s.br.bitpos ((n, s.dec.eoi) :: l)) :
   ∃ s', s.finish (decActiveStep s) = s' ∧ Consumed s s' n [] ∧ s'.dec = { s.dec with state := .done } := by
  have hp := Memory.HasVals.peekBits hv hc
  subst hn
  refine ⟨((s.setBr (s.br.advance s.dec.cs)).setDec { s.dec with state := .done }).setLastResult .ok, ?_,
      ⟨rfl, rfl, rfl, rfl, rfl⟩, rfl⟩
  rw [decActiveStep]
  have : s.br.peekBits s.dec.cs = some s.dec.eoi := hp
  rw [this]
  dsimp only
  rw [decCode, if_neg (by rw [hd.clear_eq, hd.eoi_eq]; omega), if_pos rfl]; rfl

theorem Encoder.OpenInv.width_at_limit {e : Encoder} (he : e.OpenInv) (hc : encResetCount ≤ e.count) : e.cs = 12 ∧
    e.grownCs = 12 := by
  have h1 := he.width
  have h2 := he.fits
  rw [maxCodeSize_eq] at h1
  rw [encResetCount_eq] at hc
  have : e.cs = 12 := by
    by_contra hlt
    have : 2 ^ e.cs ≤ 2 ^ 11 := Nat.pow_le_pow_right (by omega) (by omega)
    omega
  exact ⟨this, by rw [Encoder.grownCs_eq, if_neg (by omega), this]⟩

theorem Sync.run (is : List Nat) {e : Encoder} (he : e.OpenInv) (hea : e.state = .active) {s : State}
    (hf : s.fault = false) (ha : s.dec.state = .active) (ho : s.cfg.outCap = none) (hd : s.dec.OpenInv)
        (h : Sync e s.dec)
   (hb : e.buf = [] → e.count = e.clear + 2 ∧ e.cs = e.min + 1)
   (his : ∀ i ∈ is, i < e.clear) (hv : Memory.HasVals s.br.mem s.br.bitpos (Encoder.codesOf e is)) :
   ∃ n u, decRunLoop n s = some u ∧ u.fault = false ∧ u.dec.state = .done ∧ u.out = s.out.appendIndices
       (e.buf ++ is) := by
  induction is generalizing e s with
  | nil =>
    rw [Encoder.codesOf] at hv
    have hcl : s.dec.eoi = e.eoi := by rw [Decoder.eoi, Encoder.eoi, h.min]
    have hg : e.eoi < 2 ^ e.grownCs := by
      have := he.eoi_lt.1
      have h2 := he.lt_grownCs
      exact this.trans_le (Nat.pow_le_pow_right (by omega) h2.2.1)
    by_cases hbe : e.buf = []
    · rw [if_pos hbe] at hv
      have hg' : e.grownCs = s.dec.cs := by
        rw [← h.cs, Encoder.grownCs_eq, if_neg]
        rintro ⟨a, -⟩
        have := clear_add_two_lt he.minRange.1
        rw [(hb hbe).1, (hb hbe).2, he.clear_eq] at a; omega
      rw [← hcl] at hv hg
      obtain ⟨s', h1, h2, h3⟩ := decActiveStep_eoi hd hg' hg hv
      refine ⟨1, s', ?_, h2.fault.trans hf, by rw [h3], ?_⟩
      · rw [decRunLoop_succ ⟨ha, hf⟩, h1, decRunLoop_stop (by simp [h3])]
      · rw [hbe, h2.out]; rfl
    · rw [if_neg hbe] at hv
      obtain ⟨s', h1, hr, h2, h3, h4, h5, h6, h7, h8, h9⟩ := Sync.bufferCode he ha ho hd h hbe hv
      have hcl' : s'.dec.eoi = e.eoi := by rw [Decoder.eoi, Encoder.eoi, h4]
      have hv2 := hv.2
      rw [← hr.mem, ← hr.pos, ← hcl'] at hv2
      rw [← hcl'] at hg
      obtain ⟨s2, k1, k2, k3⟩ := decActiveStep_eoi h2 h7.symm hg hv2
      refine ⟨2, s2, ?_, k2.fault.trans (hr.fault.trans hf), by rw [k3], ?_⟩
      · rw [decRunLoop_succ ⟨ha, hf⟩, h1, decRunLoop_succ ⟨h3, hr.fault.trans hf⟩, k1, decRunLoop_stop (by simp [k3])]
      · rw [k2.out, hr.out, List.append_nil]; rfl
  | cons i is ih =>
    have hi : i < e.clear := his i (by simp)
    have his' : ∀ j ∈ is, j < e.clear := fun j hj => his j (by simp [hj])
    rw [Encoder.codesOf] at hv
    split at hv
    · rename_i hk
      rw [Encoder.knows_iff] at hk
      have hcode : e.HasCode (e.buf ++ [i]) := by
        rcases hk with hk | hk
        · left
          refine ⟨i, ?_, hi⟩
          cases hb : e.buf with
          | nil => rfl
          | cons a l => simp [hb] at hk
        · exact .inr hk
      have hsync : Sync { e with buf := e.buf ++ [i] } s.dec := ⟨h.min, h.cs, by
            rcases h.tables with h | ⟨t, q, y, t1, t2, t3, t4, t5, t6⟩
            · exact .inl h
            · exact .inr ⟨t, q, y, t1, t2, t3, t4, t5, by
                show (e.buf ++ [i]).head? = _
                cases hb : e.buf with
                | nil => rw [hb] at t6; cases t6
                | cons a l => rw [hb] at t6; exact t6⟩⟩
      obtain ⟨n, u, h1, h2, h3, h4⟩ := ih (he.setBuf (by simp) hcode (by simp [hea])) hea hf ha ho hd hsync
          (by simp) his' hv
      refine ⟨n, u, h1, h2, h3, ?_⟩
      rw [h4]; simp
    · rename_i hk
      rw [Encoder.knows_iff] at hk
      push Not at hk
      have hne : e.buf ≠ [] := by intro h; simp [h] at hk
      split at hv
      · rename_i hc
        obtain ⟨s', h1, hr, h2, h3, h4, h5, h6, h7, h8, h9⟩ := Sync.bufferCode he ha ho hd h hne hv
        have hl := Encoder.OpenInv.width_at_limit he hc
        have hcl' : s'.dec.clear = e.clear := by rw [Decoder.clear, Encoder.clear, h4]
        have hw := he.eoi_lt.2
        have hv2 := hv.2
        rw [← hr.mem, ← hr.pos, ← hcl'] at hv2
        rw [← hcl'] at hw
        obtain ⟨s2, k1, k2, k3⟩ := decActiveStep_clear (by omega) hw hv2
        have hd2 : s2.dec.OpenInv := by
          rw [k3]; exact Decoder.openInv_tableReset h2.minRange.1 h2.minRange.2 s'.dec.state s'.dec.err PrevCode.invalid
        have he2 := he.tableReset [i] e.state (.inr ⟨i, rfl, hi⟩) (by simp [hea])
        have hsync : Sync { e.tableReset with buf := [i], state := e.state } s2.dec := by
          rw [k3]
          refine ⟨h4.symm, ?_, .inl ⟨rfl, rfl, rfl, rfl, ?_, rfl⟩⟩
          · show e.min + 1 = s'.dec.min + 1; rw [h4]
          · show s'.dec.clear + 2 = e.clear + 2; rw [hcl']
        have hv3 := hv2.2
        rw [← k2.mem, ← k2.pos] at hv3
        have ha2 : s2.dec.state = .active := by rw [k3]; exact h3
        have hf2 : s2.fault = false := k2.fault.trans (hr.fault.trans hf)
        have ho2 : s2.cfg.outCap = none := by rw [k2.cfg, hr.cfg]; exact ho
        obtain ⟨n, u, a, b, c, f⟩ := ih he2 hea hf2 ha2 ho2 hd2 hsync (by simp) his' hv3
        refine ⟨n + 2, u, ?_, b, c, ?_⟩
        · rw [decRunLoop_succ ⟨ha, hf⟩, h1, decRunLoop_succ ⟨h3, hr.fault.trans hf⟩, k1, a]
        · rw [f, k2.out, hr.out, ← Memory.appendIndices_append, ← Memory.appendIndices_append]; simp
      · rename_i hc
        obtain ⟨s', h1, hr, h2, h3, h4, h5, h6, h7, h8, h9⟩ := Sync.bufferCode he ha ho hd h hne hv
        have hadd := he.add hi hea hne hk.2 (by omega)
        have hsync : Sync { e.add (e.buf ++ [i]) with buf := [i] } s'.dec := by
          refine ⟨h4.symm, h7.symm, .inr ⟨e.table, e.buf, i, ?_, h5, ?_, h8, h9, rfl⟩⟩
          · rw [h6]; rfl
          · rw [h6]; rfl
        have hv3 := hv.2
        rw [← hr.mem, ← hr.pos] at hv3
        obtain ⟨n, u, a, b, c, f⟩ := ih hadd hea (hr.fault.trans hf) h3 (by rw [hr.cfg]; exact ho) h2 hsync
            (by simp) his' hv3
        refine ⟨n + 1, u, ?_, b, c, ?_⟩
        · rw [decRunLoop_succ ⟨ha, hf⟩, h1, a]
        · rw [f, hr.out, ← Memory.appendIndices_append]; simp

/-- What the encoder commands write. -/
theorem encoder_run (is : List Nat) {s : State} (hf : s.fault = false) (hg : s.cfg.finishGrowth = true)
    (hb : s.cfg.bwCap = none)
   (ho : s.enc.OpenInv) (ha : s.enc.state = .active) (his : ∀ i ∈ is, i < s.enc.clear) :
   ∃ u, execAll (is.map .encPush ++ [.encFinish]) s = some u ∧ u.fault = false ∧ u.cfg = s.cfg ∧
       u.bw = BitWriter.writeList s.bw (Encoder.codesOf s.enc is) := by
  induction is generalizing s with
  | nil =>
    have hfit : ∀ n, s.bwFits n = true := fun n => by unfold State.bwFits; rw [hb]; rfl
    have he : ∃ u, exec .encFinish s = .next u ∧ u.fault = false ∧ u.cfg = s.cfg ∧ u.bw =
        (writeFinalCode s.enc s.bw).writeBits s.enc.eoi s.enc.grownCs := by
      rw [exec_clear (by simp) (by simp) hf]
      simp only [commandBody]
      unfold encFinishBody finishCs
      rw [if_pos ha, if_pos hg]
      dsimp only
      rw [if_pos (hfit _)]
      exact ⟨_, rfl, hf, rfl, rfl⟩
    obtain ⟨u, h1, h2, h3, h4⟩ := he
    refine ⟨u, ?_, h2, h3, ?_⟩
    · rw [List.map_nil, List.nil_append, execAll, h1]; rfl
    · rw [h4, writeFinalCode, Encoder.codesOf]
      split <;> rfl
  | cons i is ih =>
    have hi : i < s.enc.clear := his i (by simp)
    have his' : ∀ j ∈ is, j < s.enc.clear := fun j hj => his j (by simp [hj])
    have hfit : ∀ n, s.bwFits n = true := fun n => by unfold State.bwFits; rw [hb]; rfl
    have key : ∃ t w, exec (.encPush i) s = .next t ∧ t.fault = false ∧ t.cfg = s.cfg ∧ t.enc.OpenInv ∧
        t.enc.state = .active ∧ t.enc.clear = s.enc.clear ∧
       t.bw = BitWriter.writeList s.bw w ∧ Encoder.codesOf s.enc (i :: is) = w ++ Encoder.codesOf t.enc is := by
      rw [exec_clear (by simp) (by simp) hf]
      simp only [commandBody]
      unfold encPushBody
      rw [if_pos ha, if_pos hi]
      by_cases hk : s.enc.knows (s.enc.buf ++ [i]) = true
      · rw [if_pos hk]
        have hcode : s.enc.HasCode (s.enc.buf ++ [i]) := by
          rw [Encoder.knows_iff] at hk
          rcases hk with hk | hk
          · left
            refine ⟨i, ?_, hi⟩
            cases hb : s.enc.buf with
            | nil => rfl
            | cons a l => simp [hb] at hk
          · exact .inr hk
        refine ⟨_, [], rfl, hf, rfl, ho.setBuf (by simp) hcode (by simp [ha]), ha, rfl, rfl, ?_⟩
        rw [Encoder.codesOf, if_pos hk]; rfl
      · rw [if_neg hk]
        have hk' := hk
        rw [Encoder.knows_iff] at hk'
        push Not at hk'
        have hne : s.enc.buf ≠ [] := by intro h; simp [h] at hk'
        by_cases hc : encResetCount ≤ s.enc.count
        · rw [if_pos hc, encPushReset, if_pos (hfit _)]
          refine ⟨_, [(s.enc.cs, s.enc.codeOf s.enc.buf), (s.enc.cs, s.enc.clear)], rfl, hf, rfl,
              ho.tableReset [i] s.enc.state (.inr ⟨i, rfl, hi⟩) (by simp [ha]), ha, rfl, rfl, ?_⟩
          rw [Encoder.codesOf, if_neg hk, if_pos hc]; rfl
        · rw [if_neg hc, encPushAdd, if_pos (hfit _)]
          refine ⟨_, [(s.enc.cs, s.enc.codeOf s.enc.buf)], rfl, hf, rfl, ho.add hi ha hne hk'.2 (by omega), ha,
              rfl, rfl, ?_⟩
          rw [Encoder.codesOf, if_neg hk, if_neg hc]; rfl
    obtain ⟨t, w, h1, h2, h3, h4, h5, h6, h7, h8⟩ := key
    obtain ⟨u, k1, k2, k3, k4⟩ := ih h2 (by rw [h3]; exact hg) (by rw [h3]; exact hb) h4 h5 (by rw [h6]; exact his')
    refine ⟨u, ?_, k2, k3.trans h3, ?_⟩
    · rw [List.map_cons, List.cons_append, execAll, h1]; exact k1
    · rw [k4, h7, h8, BitWriter.writeList_append]

end Sys2Proof.Machine
end

