-- ==== Sys2Proof/Laws/PerInstr.lean ====
section
/-! SUPPORT. The laws said of every instruction, one lemma per constructor. -/

namespace Sys2Proof.Laws.Decodes

/-- The decoder reads a well-formed command from the header and data words the encoder makes of it (30_encoding.md
R82, R83, R84). -/
def Statement (i : Instr) : Prop :=
  ∀ w1 w2 : Word, i.wellFormed = true → (i.dataWords = [] ∨ i.dataWords = [w1, w2]) →
    decode (headerWord i.opcode i.nOperand i.immOperand) w1 w2 = .ok i

/-- A command whose header uses no field. -/
theorem of_none {i : Instr} (hn : i.nOperand = 0) (hi : i.immOperand = 0)
    (h : ∀ (k w1 w2 : Word), opField k = i.opcode → decode k w1 w2 = usesNone k i) : Statement i := by
  intro w1 w2 _ _
  obtain ⟨h1, h2, h3, -, -⟩ := headerWord_fields i.opcode i.nOperand i.immOperand
  rw [h _ w1 w2 h1, usesNone, requireZero, h2, h3, hn, hi]
  rfl

theorem nop : Statement .nop := of_none rfl rfl fun k _ _ h => by unfold decode; rw [h]; rfl
theorem softReset : Statement .softReset := of_none rfl rfl fun k _ _ h => by unfold decode; rw [h]; rfl
theorem bwClear : Statement .bwClear := of_none rfl rfl fun k _ _ h => by unfold decode; rw [h]; rfl
theorem brClear : Statement .brClear := of_none rfl rfl fun k _ _ h => by unfold decode; rw [h]; rfl
theorem brAtHead : Statement .brAtHead := of_none rfl rfl fun k _ _ h => by unfold decode; rw [h]; rfl
theorem encFinish : Statement .encFinish := of_none rfl rfl fun k _ _ h => by unfold decode; rw [h]; rfl
theorem decStep : Statement .decStep := of_none rfl rfl fun k _ _ h => by unfold decode; rw [h]; rfl
theorem decRun : Statement .decRun := of_none rfl rfl fun k _ _ h => by unfold decode; rw [h]; rfl
theorem outClear : Statement .outClear := of_none rfl rfl fun k _ _ h => by unfold decode; rw [h]; rfl

/-- A command whose header uses N. -/
theorem of_n {i : Instr} (hi : i.immOperand = 0) (hw : i.wellFormed = true → i.nOperand < 256)
    (h : ∀ k w1 w2 : Word, opField k = i.opcode → (nField k).toNat = i.nOperand →
      (i.dataWords = [] ∨ i.dataWords = [w1, w2]) → decode k w1 w2 = usesN k i) : Statement i := by
  intro w1 w2 hwf hd
  obtain ⟨h1, h2, h3, -, -⟩ := headerWord_fields i.opcode i.nOperand i.immOperand
  have hn : (nField (headerWord i.opcode i.nOperand i.immOperand)).toNat = i.nOperand := by
    rw [h2, BitVec.toNat_ofNat, Nat.mod_eq_of_lt (hw hwf)]
  rw [h _ w1 w2 h1 hn hd, usesN, requireZero, h3, hi]
  rfl

/-- A command whose header uses IMM. -/
theorem of_imm {i : Instr} (hi : i.nOperand = 0) (hw : i.wellFormed = true → i.immOperand < 65536)
    (h : ∀ k w1 w2 : Word, opField k = i.opcode → (immField k).toNat = i.immOperand → decode k w1 w2 = usesImm k i) :
    Statement i := by
  intro w1 w2 hwf _
  obtain ⟨h1, h2, h3, -, -⟩ := headerWord_fields i.opcode i.nOperand i.immOperand
  have hn : (immField (headerWord i.opcode i.nOperand i.immOperand)).toNat = i.immOperand := by
    rw [h3, BitVec.toNat_ofNat, Nat.mod_eq_of_lt (hw hwf)]
  rw [h _ w1 w2 h1 hn, usesImm, requireZero, h2, hi]
  rfl

theorem bwWrite (n : Nat) (v : BitVec 64) : Statement (.bwWrite n v) :=
  of_n rfl (fun h => of_decide_eq_true h) fun k w1 w2 h hn hd => by
    have hv : valueOfWords w1 w2 = v := by
      simp only [Instr.dataWords, List.cons_ne_nil, false_or, List.cons.injEq, and_true] at hd
      rw [← hd.1, ← hd.2, valueOfWords_dataWords]
    unfold decode
    rw [h, hn, hv]
    rfl

theorem brRead (n : Nat) : Statement (.brRead n) :=
  of_n rfl (fun h => of_decide_eq_true h) fun k w1 w2 h hn _ => by unfold decode; rw [h, hn]; rfl

theorem decBegin (m : Nat) : Statement (.decBegin m) :=
  of_n rfl (fun h => of_decide_eq_true h) fun k w1 w2 h hn _ => by unfold decode; rw [h, hn]; rfl

theorem encBegin (cc : Nat) : Statement (.encBegin cc) :=
  of_imm rfl (fun h => of_decide_eq_true h) fun k w1 w2 h hn => by unfold decode; rw [h, hn]; rfl

theorem encPush (i : Nat) : Statement (.encPush i) :=
  of_imm rfl (fun h => of_decide_eq_true h) fun k w1 w2 h hn => by unfold decode; rw [h, hn]; rfl

theorem brAppend (b : Byte) : Statement (.brAppend b) := by
  intro w1 w2 _ _
  obtain ⟨h1, h2, -, h4, h5⟩ := headerWord_fields (Instr.brAppend b).opcode 0 b.toNat
  have hb := b.isLt
  have h6 : BitVec.ofNat 8 b.toNat = b := by rw [BitVec.ofNat_toNat, BitVec.setWidth_eq]
  rw [show b.toNat / 256 = 0 by omega] at h5
  rw [h6] at h4
  show decode (headerWord (Instr.brAppend b).opcode 0 b.toNat) w1 w2 = _
  unfold decode usesImmLow requireZero
  rw [h1, h2, h4, h5]
  rfl

end Sys2Proof.Laws.Decodes
end

