-- ==== Sys2Proof/Tests/Slice0.lean ====
section
/-! SUPPORT. Tests: ill-formed terms, decoding, one step of each command with values from the spec, and a witness for
the hypotheses of each statement. -/

namespace Sys2Proof.Tests

open Sys2Proof Sys2Proof.Machine

/-! ## Well-formedness smoke -/

theorem test_wf_bwWrite : (Instr.bwWrite 256 0).wellFormed = false ∧ (Instr.bwWrite 255 0).wellFormed = true := by decide
theorem test_wf_brRead : (Instr.brRead 256).wellFormed = false ∧ (Instr.brRead 255).wellFormed = true := by decide
theorem test_wf_decBegin : (Instr.decBegin 256).wellFormed = false ∧ (Instr.decBegin 255).wellFormed = true := by decide
theorem test_wf_encBegin : (Instr.encBegin 65536).wellFormed = false ∧ (Instr.encBegin 65535).wellFormed = true := by
  decide
theorem test_wf_encPush : (Instr.encPush 65536).wellFormed = false ∧ (Instr.encPush 65535).wellFormed = true := by decide

/-! ## Decoding: the words of 30_encoding.md R90, written out -/

theorem test_decode_nop : decodeWords [0x00000000] = .ok (.nop, []) := by decide
theorem test_decode_softReset : decodeWords [0x00000001] = .ok (.softReset, []) := by decide
theorem test_decode_bwClear : decodeWords [0x00000010] = .ok (.bwClear, []) := by decide
theorem test_decode_bwWrite : decodeWords [0x00004011, 0x23456789, 0xABCDEF01] =
    .ok (.bwWrite 64 0xABCDEF0123456789, []) := by decide
theorem test_decode_brClear : decodeWords [0x00000020] = .ok (.brClear, []) := by decide
theorem test_decode_brAppend : decodeWords [0x00A50021] = .ok (.brAppend 0xA5, []) := by decide
theorem test_decode_brAtHead : decodeWords [0x00000022] = .ok (.brAtHead, []) := by decide
theorem test_decode_brRead : decodeWords [0x00000C23] = .ok (.brRead 12, []) := by decide
theorem test_decode_encBegin : decodeWords [0x01000030] = .ok (.encBegin 256, []) := by decide
theorem test_decode_encPush : decodeWords [0x00010031] = .ok (.encPush 1, []) := by decide
theorem test_decode_encFinish : decodeWords [0x00000032] = .ok (.encFinish, []) := by decide
theorem test_decode_decBegin : decodeWords [0x00000240] = .ok (.decBegin 2, []) := by decide
theorem test_decode_decStep : decodeWords [0x00000041] = .ok (.decStep, []) := by decide
theorem test_decode_decRun : decodeWords [0x00000042] = .ok (.decRun, []) := by decide
theorem test_decode_outClear : decodeWords [0x00000050] = .ok (.outClear, []) := by decide

/-- The illegal words of R90 and of 95_test_vectors.md section 5.2. -/
theorem test_decode_illegal :
    ([0x000000FF, 0x00000002, 0x00010000, 0x00000100, 0x00010001, 0x01000021, 0x00010131, 0x00010311] : List Word).all
      (fun h => (decode h 1 2).toOption.isNone) = true := by decide

/-- The byte-wide transport sends the least significant byte first (R80). -/
theorem test_decode_bytes : decodeBytes [0x23, 0x0C, 0x00, 0x00] = .ok (.brRead 12) := by decide

/-- Words of the opcode table, numbered as it numbers them. -/
theorem test_decodeTableWord :
    decodeTableWord 32 0x00A50021 = some (.brAppend 0xA5) ∧
    decodeTableWord 96 0x000000000000000500000311 = some (.bwWrite 3 5) ∧
    decodeTableWord 32 0x00000311 = some (.bwWrite 3 0) ∧ decodeTableWord 32 0x000000FF = none := by decide

/-! ## States the tests start from -/

/-- A command executed by its pseudocode (not SOFT_RESET, not DEC_RUN). -/
def after (s : State) (i : Instr) : State := if s.fault then s.reject else s.finish (commandBody i s)

/-- A few such commands, from a state. -/
def built (s : State) (is : List Instr) : State := is.foldl after s

/-- What a reader of an outcome sees of the next state. -/
def see {α : Type} (f : State → α) : Result → Option α
  | .next t => some (f t)
  | .fault _ => none
  | .refused _ => none

/-- Small capacities: two bytes of BW_MEM, one of BR_MEM, one index of OUT_MEM. -/
def smallCfg : Config := { finishGrowth := true, bwCap := some 2, brCap := some 1, outCap := some 1 }

/-- The reset state with those capacities. -/
def small : State := State.resetWith smallCfg

theorem after_inv {s : State} (h : s.Inv) {i : Instr} (h1 : i ≠ .softReset) (h2 : i ≠ .decRun) : (after s i).Inv := by
  rw [after]
  split
  · exact h.reject ‹_›
  · exact commandBody_inv h (by simpa using ‹¬ s.fault = true›) i h1 h2

theorem built_inv {s : State} (h : s.Inv) (is : List Instr)
    (his : is.all (fun i => decide (i ≠ .softReset ∧ i ≠ .decRun)) = true) : (built s is).Inv := by
  induction is generalizing s with
  | nil => exact h
  | cons i is ih =>
    simp only [List.all_cons, Bool.and_eq_true, decide_eq_true_eq] at his
    exact ih (after_inv h his.1.1 his.1.2) (by simpa using his.2)

theorem test_reset_inv : State.reset.Inv where
  part := trivial
  faults := { pending := fun h => (by cases h), clear := fun _ => ⟨rfl, .inl rfl⟩ }
  bw := BitWriter.inv_empty _
  br := BitReader.inv_empty _
  out := outInv_empty _
  enc := Encoder.inv_reset
  dec := Decoder.inv_reset

theorem test_small_inv : small.Inv where
  part := trivial
  faults := { pending := fun h => (by cases h), clear := fun _ => ⟨rfl, .inl rfl⟩ }
  bw := BitWriter.inv_empty _
  br := BitReader.inv_empty _
  out := outInv_empty _
  enc := Encoder.inv_reset
  dec := Decoder.inv_reset

/-- A state with the invariant, not at reset: an encoder session with indices pushed, and a decoder session. -/
def session : State :=
  built State.reset [.encBegin 4, .encPush 1, .encPush 1, .brAppend 0x84, .brAppend 0x0B, .decBegin 2, .decStep]

theorem test_session_inv : session.Inv := built_inv test_reset_inv _ (by decide)

theorem test_sent_inv (ws : List Word) : (session.sendAll ws).Inv := by
  have h := test_session_inv
  exact ⟨h.part, ⟨h.faults.pending, h.faults.clear⟩, h.bw, h.br, h.out, h.enc, h.dec⟩

/-- Reset memory is in canonical form. -/
theorem test_reset_memory_wf : State.reset.bw.mem.wf = true ∧ State.reset.br.mem.wf = true ∧
    State.reset.out.wf = true := by decide

/-! ## One step of each command (values from 95_test_vectors.md) -/

/-- Section 5.4. -/
theorem test_nop : see id (exec .nop session) = some session := by decide

/-- Section 5.1, step 5. -/
theorem test_softReset : see (fun t => (t.fault, t.faultCode, t.lastResult, t.br.mem.len))
    (exec .softReset ((built State.reset [.brAppend 1]).raiseFault .state)) = some (false, .ok, .ok, 0) := by decide

theorem test_bwClear : see (fun t => (t.bw.mem.toList, t.bw.bitpos))
    (exec .bwClear (built State.reset [.bwWrite 9 0x1FF])) = some ([], 0) := by decide

/-- Section 2.2: the example of R101. -/
theorem test_bwWrite : see (fun t => (t.bw.mem.toList, t.bw.bitpos))
    (exec (.bwWrite 9 0x1FF) (built State.reset [.bwWrite 3 3])) = some ([0xFB, 0x0F], 12) := by decide

/-- Section 2.2: 65 bits. -/
theorem test_bwWrite_width : see (fun t => (t.fault, t.faultCode, t.bw.mem.toList))
    (exec (.bwWrite 65 1) State.reset) = some (true, .fault .width, []) := by decide

theorem test_brClear : see (fun t => (t.br.mem.toList, t.br.bitpos, t.lastResult))
    (exec .brClear (built State.reset [.brAppend 0x12])) = some ([], 0, .ok) := by decide

/-- Section 2.3. -/
theorem test_brAppend : see (fun t => (t.br.mem.toList, t.br.bitpos))
    (exec (.brAppend 0x0F) (built State.reset [.brAppend 0xA5])) = some ([0xA5, 0x0F], 0) := by decide

/-- Section 2.3: a snapshot. -/
theorem test_brAtHead : see (fun t => (t.br.mem.toList, t.br.bitpos, t.bw.bitpos))
    (exec .brAtHead (built State.reset [.brAppend 7, .bwWrite 3 5])) = some ([0x05], 0, 3) := by decide

/-- Section 2.3. -/
theorem test_brRead : see (fun t => (t.result, t.br.bitpos, t.lastResult))
    (exec (.brRead 12) (built State.reset [.brAppend 0xA5, .brAppend 0x0F])) = some (0xFA5, 12, .ok) := by decide

/-- Section 2.3: a truncated read. -/
theorem test_brRead_truncated : see (fun t => (t.result, t.br.bitpos, t.lastResult, t.fault))
    (exec (.brRead 6) (built State.reset [.brAppend 0xFF, .brRead 3])) =
      some (7, 3, .error .truncated, false) := by decide

/-- Section 1.2, form 1. -/
theorem test_encBegin : see (fun t => (t.bw.mem.toList, t.bw.bitpos, t.enc.min, t.enc.cs, t.enc.count))
    (exec (.encBegin 4) State.reset) = some ([0x04], 3, 2, 3, 6) := by decide

/-- Section 3.7: ENC_BEGIN 257. -/
theorem test_encBegin_colorCount : see (fun t => (t.faultCode, t.enc.state, t.bw.bitpos))
    (exec (.encBegin 257) State.reset) = some (.fault .colorCount, .idle, 0) := by decide

/-- Section 3.3: push 6 of the sample, the first width change. -/
theorem test_encPush : see (fun t => (t.bw.mem.toList, t.bw.bitpos, t.enc.cs, t.enc.count, t.enc.buf))
    (exec (.encPush 2) (built State.reset [.encBegin 4, .encPush 1, .encPush 1, .encPush 1, .encPush 1, .encPush 1])) =
      some ([0x8C, 0x0D], 12, 4, 9, [2]) := by decide

/-- Section 3.7: ENC_PUSH 4 after ENC_BEGIN 4. -/
theorem test_encPush_index : see (fun t => (t.faultCode, t.enc.state, t.enc.buf))
    (exec (.encPush 4) (built State.reset [.encBegin 4])) = some (.fault .index, .active, []) := by decide

/-- Section 3.1: [1,1,1,1,1], with the finish growth. -/
theorem test_encFinish : see (fun t => (t.bw.mem.toList, t.bw.bitpos, t.enc.cs, t.enc.count, t.enc.state))
    (exec .encFinish (built State.reset [.encBegin 4, .encPush 1, .encPush 1, .encPush 1, .encPush 1, .encPush 1])) =
      some ([0x8C, 0x5D], 16, 4, 8, .finished) := by decide

/-- Section 3.2: the same without it. -/
theorem test_encFinish_noGrowth : see (fun t => (t.bw.mem.toList, t.bw.bitpos))
    (exec .encFinish (built (State.resetWith { Config.default with finishGrowth := false })
      [.encBegin 4, .encPush 1, .encPush 1, .encPush 1, .encPush 1, .encPush 1])) = some ([0x8C, 0x5D], 15) := by decide

/-- Section 4.2. -/
theorem test_decBegin : see (fun t => (t.dec.state, t.br.bitpos, t.dec.cs, t.dec.count, t.dec.prev.valid))
    (exec (.decBegin 2) State.reset) = some (.active, 0, 3, 6, false) := by decide

/-- Section 4.4: DEC_BEGIN 9. -/
theorem test_decBegin_size : see (fun t => (t.dec.state, t.dec.err, t.fault, t.dec.cs))
    (exec (.decBegin 9) State.reset) = some (.error, .error .minCodeSize, false, 0) := by decide

/-- Stream 840B with DEC_BEGIN 2 (section 4.2). -/
def stream840B : State := built State.reset [.brAppend 0x84, .brAppend 0x0B, .decBegin 2]

/-- Section 4.2: step 3. -/
theorem test_decStep : see (fun t => (t.br.bitpos, t.dec.count, t.dec.prev.code.toNat, t.out.toList))
    (exec .decStep (built stream840B [.decStep, .decStep])) = some (9, 7, 6, [0, 0, 0]) := by decide

/-- Section 4.1: CC03, E_NO_PREVIOUS. -/
theorem test_decStep_noPrevious : see (fun t => (t.br.bitpos, t.dec.state, t.dec.err, t.out.toList))
    (exec .decStep (built State.reset [.brAppend 0xCC, .brAppend 0x03, .decBegin 2, .decStep, .decStep, .decStep])) =
      some (9, .error, .error .noPrevious, [1, 1, 1]) := by decide

/-- Section 4.1: 8C5D. -/
theorem test_decRun : see (fun t => (t.dec.state, t.out.toList, t.br.bitpos, t.dec.cs, t.dec.count, t.lastResult))
    (exec .decRun (built State.reset [.brAppend 0x8C, .brAppend 0x5D, .decBegin 2])) =
      some (.done, [1, 1, 1, 1, 1], 16, 4, 8, .ok) := by decide

/-- Section 4.1: 04, E_TRUNCATED. -/
theorem test_decRun_truncated : see (fun t => (t.dec.state, t.out.toList, t.br.bitpos, t.lastResult))
    (exec .decRun (built State.reset [.brAppend 0x04, .decBegin 2])) =
      some (.error, [0], 6, .error .truncated) := by decide

/-- Section 5.4. -/
theorem test_outClear : see (fun t => (t.out.toList, t.br.bitpos))
    (exec .outClear (built State.reset [.brAppend 0x29, .decBegin 2, .decStep])) = some ([], 3) := by decide

/-! ## Steps -/

/-- `withFetchWord` makes the very next step run that command. -/
theorem test_withFetchWord : see (fun t => (t.cp, t.bw.mem.toList, t.bw.bitpos))
    (step (State.reset.withFetchWord 96 0x000000000000000500000311)) = some (3, [0x05], 3) := by decide

/-- Section 5.3: an incomplete command. -/
theorem test_step_incomplete : see (fun t => (t.cp, t.bw.bitpos, t.partCmd))
    (step (State.reset.sendAll [0x311, 5])) = some (0, 0, .headerData 0x311 5) := by decide

/-- Section 5.2: an illegal BW_WRITE consumes its data words. -/
theorem test_step_illegal : see (fun t => (t.cp, t.faultCode, t.cmdPort))
    (step (State.reset.sendAll [0x00010311, 1, 2, 0x50])) = some (3, .fault .illegal, [0x50]) := by decide

/-! ## Witnesses: states and operands that meet each statement's hypotheses together -/

theorem test_witness_DecodeEncodeRoundTrip :
    (Instr.bwWrite 255 7).wellFormed = true ∧ (Instr.encPush 65535).wellFormed = true := by decide

theorem test_witness_BytesDecodeEncodeRoundTrip : (Instr.encBegin 65535).wellFormed = true := by decide

theorem test_witness_EncodeDecodeRoundTrip :
    decode 0x0000FF11 5 7 = .ok (.bwWrite 255 0x0000000700000005) ∧ decode 0x00FF0021 5 7 = .ok (.brAppend 0xFF) := by
  decide

/-- For the clauses with hypotheses: a header that decodes, and a row that matches it. -/
theorem test_witness_DecodeAgreesWithOpcodeTable :
    decode 0xFFFF0031 0 0 = .ok (.encPush 65535) ∧
    (∃ r ∈ opcodeRows, r.matchesWord 0xFFFF0031 = true ∧ r.mnemonic = "ENC_PUSH") := by decide

/-- One header for each kind of IllegalHeader. -/
theorem test_witness_IllegalHeadersCharacterised :
    IllegalHeader 0xFF ∧ IllegalHeader 0x100 ∧ IllegalHeader 0x00010311 ∧ IllegalHeader 0x00010131 ∧
      IllegalHeader 0x01000021 := by
  unfold IllegalHeader
  refine ⟨by decide, by decide, by decide, by decide, by decide⟩

/-- Operands at the edges of their fields, and one line without operands. -/
theorem test_witness_AssemblerEmitsWords :
    (Instr.brAppend 255).wellFormed = true ∧ (AsmLine.brRead 255).assemble = some [0x0000FF23] ∧
    (AsmLine.brRead 256).assemble = none ∧ (AsmLine.nop).assemble = some [0] ∧
    (AsmLine.bwWrite 3 (2 ^ 64)).assemble = none := by decide

/-- The command stands partly in the core, partly on the port. -/
theorem test_witness_StepRunsDecodedCommand : ∃ (s : State) (i : Instr) (rest : List Word),
    i.wellFormed = true ∧ s.pendingWords = encode i ++ rest ∧ s.partCmd = .header 0x311 ∧ rest = [0x42] :=
  ⟨{ State.reset with partCmd := .header 0x311, cmdPort := [5, 0, 0x42] }, .bwWrite 3 5, [0x42],
    by decide, by decide, rfl, rfl⟩

/-- The three waiting cases, and a command that arrives word by word. -/
theorem test_witness_StepWaitsForWholeCommand :
    State.reset.pendingWords = [] ∧ opField 0x311 = 0x11 ∧ (State.reset.sendAll [0x311]).pendingWords = [0x311] ∧
    (State.reset.sendAll [0x311, 5]).pendingWords = [0x311, 5] ∧ 3 < 256 ∧ encode (.bwWrite 3 5) = [0x311, 5, 0] ∧
    ∃ t u, step (State.reset.sendAll [0x311]) = .next t ∧ step (t.sendAll [5]) = .next u :=
  ⟨by decide, by decide, by decide, by decide, by decide, by decide, _, _, rfl, rfl⟩

theorem test_witness_IllegalHeaderFaults : ∃ (s : State) (h w1 w2 : Word) (rest : List Word),
    s.fault = false ∧ IllegalHeader h ∧ s.pendingWords = commandWords h w1 w2 ++ rest ∧ rest = [0] :=
  ⟨State.reset.sendAll [0x00010311, 1, 2, 0], 0x00010311, 1, 2, [0], rfl, by unfold IllegalHeader; decide, by decide,
    rfl⟩

/-- CP wraps: a rejected BW_WRITE at CP = FFFFFFFE. -/
theorem test_witness_CpCountsCommandWords : ∃ (s : State) (h w1 w2 : Word) (rest : List Word),
    s.pendingWords = commandWords h w1 w2 ++ rest ∧ decode h w1 w2 = .ok (.bwWrite 3 5) ∧
      see (fun t => (t.cp, t.lastResult)) (step s) = some (1, .faulted) :=
  ⟨{ (State.reset.raiseFault .state).sendAll [0x311, 5, 0] with cp := 0xFFFFFFFE }, 0x311, 5, 0, [], by decide, by decide,
    by decide⟩

/-- A state for each of the clauses; the last one serves two. -/
theorem test_witness_FaultPendingRejectsCommands :
    (∃ s : State, s.pendingWords = commandWords 0x42 0 0 ++ [] ∧ s.fault = true ∧ (0x42 : Word) ≠ 1) ∧
    (∃ s : State, s.pendingWords = commandWords 1 0 0 ++ [] ∧ s.fault = true) ∧
    (∃ s : State, s.pendingWords = commandWords 0x00010001 0 0 ++ [] ∧ s.fault = false ∧ IllegalHeader 0x00010001) ∧
    (∃ s : State, s.pendingWords = commandWords 0x42 0 0 ++ [] ∧ s.fault = false ∧
      decode 0x42 0 0 = .ok .decRun ∧ s.Inv) :=
  ⟨⟨(State.reset.raiseFault .width).sendAll [0x42], by decide⟩,
    ⟨(State.reset.raiseFault .width).sendAll [1], by decide⟩,
    ⟨State.reset.sendAll [0x00010001], by decide, rfl, by unfold IllegalHeader; decide⟩,
    ⟨session.sendAll [0x42], by decide, by decide, by decide, test_sent_inv _⟩⟩

/-- One command that faults, and one run whose second step faults. -/
theorem test_witness_FaultEntryChangesNothingElse :
    (see (fun t => t.fault) (exec (.encPush 9999) State.reset) = some true ∧ State.reset.fault = false) ∧
    (see (fun t => (t.fault, t.out.len)) (exec .decRun (built small [.brAppend 0x00, .decBegin 2])) = some (true, 1) ∧
      (built small [.brAppend 0x00, .decBegin 2]).fault = false) := by decide

theorem test_witness_OnlyResetsClearFault : ∃ s : State, s.fault = true ∧
    see (fun t => t.fault) (step s) = some false ∧ (s.hostMove .reset).fault = false :=
  ⟨(built State.reset [.brAppend 7, .brRead 65]).sendAll [1, 0x42], by decide⟩

/-- The same with small capacities: one byte in the reader, and one index decoded. -/
def smallSession (b : Byte) : State := built small [.brAppend b, .encBegin 4, .decBegin 2, .decStep]

theorem test_smallSession_inv (b : Byte) : (smallSession b).Inv := by
  refine built_inv test_small_inv _ ?_
  simp

theorem test_witness_CommandResultCodes : session.Inv ∧ session.fault = false ∧
    see (fun t => t.lastResult) (exec (.encPush 4) session) = some (.fault .index) ∧
    see (fun t => t.lastResult) (exec .decRun session) = some .ok :=
  ⟨test_session_inv, by decide⟩

theorem test_witness_NopAndClearsComplete : session.fault = false ∧ session.bw.bitpos = 6 := by decide

theorem test_witness_SoftResetRestoresAllButCp : ∃ s : State, s.fault = true ∧ s.enc.state = .active :=
  ⟨session.raiseFault .index, by decide⟩

theorem test_witness_ResetState : ∃ r : State, r.cfg = smallCfg ∧ r.br.mem.len = 1 :=
  ⟨smallSession 0, by decide⟩

/-- The three clauses: 65 bits, 17 bits with a capacity of two bytes, and 64 or 16 bits that fit. -/
theorem test_witness_BwWriteAppendsLowBits :
    (session.fault = false ∧ session.bw.Inv session.cfg ∧ 64 < 65) ∧
    (small.fault = false ∧ small.bw.Inv small.cfg ∧ 17 ≤ 64 ∧
      withinCap small.cfg.bwCap (ceilDiv (small.bw.bitpos + 17) 8) = false) ∧
    (64 ≤ 64 ∧ withinCap session.cfg.bwCap (ceilDiv (session.bw.bitpos + 64) 8) = true ∧
      withinCap small.cfg.bwCap (ceilDiv (small.bw.bitpos + 16) 8) = true) :=
  ⟨⟨by decide, test_session_inv.bw, by decide⟩, ⟨rfl, test_small_inv.bw, by decide, by decide⟩, by decide⟩

/-- A reader with room, and one that is full. -/
theorem test_witness_BrAppendStoresByte :
    (session.fault = false ∧ session.br.Inv session.cfg ∧
      withinCap session.cfg.brCap (session.br.mem.len + 1) = true) ∧
    ((smallSession 0).fault = false ∧ (smallSession 0).br.Inv (smallSession 0).cfg ∧
      withinCap (smallSession 0).cfg.brCap ((smallSession 0).br.mem.len + 1) = false) :=
  ⟨⟨by decide, test_session_inv.br, by decide⟩, ⟨by decide, (test_smallSession_inv 0).br, by decide⟩⟩

/-- A writer that fits the reader, one that does not, and a snapshot followed by a write. -/
theorem test_witness_BrAtHeadTakesSnapshot :
    (session.fault = false ∧ withinCap session.cfg.brCap session.bw.mem.len = true) ∧
    ((built small [.bwWrite 9 0]).fault = false ∧
      withinCap small.cfg.brCap (built small [.bwWrite 9 0]).bw.mem.len = false) ∧
    ∃ t u, exec .brAtHead session = .next t ∧ exec .encFinish t = .next u :=
  ⟨by decide, by decide, _, _, rfl, rfl⟩

/-- 65 bits; 14 bits where 13 remain; 13 bits where 13 remain, and none. -/
theorem test_witness_BrReadReturnsNextBits :
    session.fault = false ∧ 64 < 65 ∧ (14 ≤ 64 ∧ 8 * session.br.mem.len < session.br.bitpos + 14) ∧
      (13 ≤ 64 ∧ session.br.bitpos + 13 ≤ 8 * session.br.mem.len) ∧
      session.br.bitpos + 0 ≤ 8 * session.br.mem.len := by decide

theorem test_witness_PeekReturnsWrittenValue : session.bw.Inv session.cfg ∧ session.bw.bitpos = 6 :=
  ⟨test_session_inv.bw, by decide⟩

theorem test_witness_BitStreamInverseLaw : ∃ (s : State) (ps : List (Nat × BitVec 64)), s.fault = false ∧
    (∀ p ∈ ps, p.1 ≤ 64 ∧ p.2.toNat < 2 ^ p.1) ∧ withinCap s.cfg.bwCap (ceilDiv (ps.map Prod.fst).sum 8) = true ∧
    withinCap s.cfg.brCap (ceilDiv (ps.map Prod.fst).sum 8) = true ∧ ps.length = 3 :=
  ⟨session, [(2, 3), (0, 0), (64, 0xFFFFFFFFFFFFFFFF)], by decide⟩

theorem test_witness_SourceBitVector : small.fault = false ∧ withinCap small.cfg.bwCap 2 = true := by decide

theorem test_witness_MinCodeSizeIsLeastWidth : (1 ≤ 1 ∧ 1 ≤ 256) ∧ (1 ≤ 256 ∧ 256 ≤ 256) ∧ 2 ≤ 8 ∧ 256 ≤ 2 ^ 8 := by
  decide

/-- Colour counts 0 and 257; a full writer; colour counts 1 and 256 with room. -/
theorem test_witness_EncBeginOpensSession :
    (session.fault = false ∧ session.bw.Inv session.cfg ∧ 256 < 257) ∧
    (∃ s : State, s.fault = false ∧ s.bw.Inv s.cfg ∧ 1 ≤ 4 ∧ 4 ≤ 256 ∧
      withinCap s.cfg.bwCap (ceilDiv (s.bw.bitpos + (max 2 (ceilLog2 4) + 1)) 8) = false) ∧
    (withinCap session.cfg.bwCap (ceilDiv (session.bw.bitpos + (max 2 (ceilLog2 1) + 1)) 8) = true ∧
      withinCap small.cfg.bwCap (ceilDiv (small.bw.bitpos + (max 2 (ceilLog2 256) + 1)) 8) = true) :=
  ⟨⟨by decide, test_session_inv.bw, by decide⟩,
    ⟨built small [.bwWrite 16 0], by decide, (built_inv test_small_inv _ (by decide)).bw, by decide⟩, by decide⟩

/-- An empty buffer, and a buffer that extends to a key. -/
theorem test_witness_EncPushKeepsAccumulating :
    (∃ s : State, s.fault = false ∧ s.enc.state = .active ∧ 3 < s.enc.clear ∧ s.enc.buf = []) ∧
    (∃ s : State, s.fault = false ∧ s.enc.state = .active ∧ 1 < s.enc.clear ∧ s.enc.buf ≠ [] ∧
      s.enc.buf ++ [1] ∈ s.enc.keys) :=
  ⟨⟨built State.reset [.encBegin 4], by decide⟩, ⟨session, by decide⟩⟩

/-- With room, and with the writer full. -/
theorem test_witness_EncPushWritesCodeAndAdds :
    (session.fault = false ∧ session.bw.Inv session.cfg ∧ session.enc.Inv ∧ session.enc.state = .active ∧
      2 < session.enc.clear ∧ session.enc.buf ≠ [] ∧ session.enc.buf ++ [2] ∉ session.enc.keys ∧
      session.enc.count < 4095 ∧ withinCap session.cfg.bwCap (ceilDiv (session.bw.bitpos + session.enc.cs) 8) = true) ∧
    (∃ s : State, s.fault = false ∧ s.bw.Inv s.cfg ∧ s.enc.Inv ∧ s.enc.state = .active ∧ 2 < s.enc.clear ∧
      s.enc.buf ≠ [] ∧ s.enc.buf ++ [2] ∉ s.enc.keys ∧ s.enc.count < 4095 ∧
      withinCap s.cfg.bwCap (ceilDiv (s.bw.bitpos + s.enc.cs) 8) = false) := by
  refine ⟨⟨by decide, test_session_inv.bw, test_session_inv.enc, by decide⟩, ?_⟩
  have h : (built small [.bwWrite 12 0, .encBegin 4, .encPush 1]).Inv := built_inv test_small_inv _ (by decide)
  exact ⟨_, by decide, h.bw, h.enc, by decide⟩

/-- ENC_TABLE after the sequences of two to `n + 1` zeros were added, at minimum code size 8. -/
def zeroTable (n : Nat) : List (List Nat × Nat) := (List.range n).map fun j => (List.replicate (j + 2) 0, 258 + j)

theorem zeroTable_key {n : Nat} {k : List Nat} :
    k ∈ (zeroTable n).map Prod.fst ↔ ∃ j, j < n ∧ k = List.replicate (j + 2) 0 := by
  simp only [zeroTable, List.map_map, List.mem_map, List.mem_range, Function.comp_apply, eq_comm]

theorem zeroTable_codes (n : Nat) : (zeroTable n).map Prod.snd = List.range' 258 n := by
  rw [zeroTable, List.map_map, List.range'_eq_map_range]
  rfl

theorem zeroTable_distinct (n : Nat) : ((zeroTable n).map Prod.fst).Nodup := by
  rw [zeroTable, List.map_map]
  refine List.Nodup.map (fun a b h => ?_) List.nodup_range
  have := congrArg List.length (show List.replicate (a + 2) 0 = List.replicate (b + 2) 0 from h)
  simpa using this

/-- An encoder at width 12 with those codes assigned; with 3837 of them the next code would be 4095. -/
def zeroEncoder (n : Nat) : Encoder :=
  { state := .active, colorCount := 256, min := 8, cs := 12, count := 258 + n, table := zeroTable n, buf := [0] }

theorem zeroEncoder_clear (n : Nat) : (zeroEncoder n).clear = 256 := rfl

theorem zeroEncoder_inv {n : Nat} (hn : n ≤ 3837) : (zeroEncoder n).OpenInv where
  colorCount := by simp [zeroEncoder]
  min := by simp only [zeroEncoder]; decide
  minRange := by simp [zeroEncoder]
  width := by simp only [zeroEncoder]; decide
  count := by
    rw [zeroEncoder_clear]
    simp only [zeroEncoder, encResetCount]; omega
  fits := by simp only [zeroEncoder]; omega
  codes := by
    rw [zeroEncoder_clear, show (zeroEncoder n).count - (256 + 2) = n by simp only [zeroEncoder]; omega]
    exact zeroTable_codes n
  keysDistinct := zeroTable_distinct n
  keysLong k hk := by
    obtain ⟨j, -, rfl⟩ := zeroTable_key.1 hk
    simp
  keysPrefixed k hk := by
    obtain ⟨j, hj, rfl⟩ := zeroTable_key.1 hk
    cases j with
    | zero => exact .inl ⟨0, rfl, by simp [zeroEncoder_clear]⟩
    | succ j => exact .inr (zeroTable_key.2 ⟨j, by omega, by simp⟩)
  keysBounded k hk i hi := by
    obtain ⟨j, -, rfl⟩ := zeroTable_key.1 hk
    rw [(List.mem_replicate.1 hi).2, zeroEncoder_clear]
    decide
  buffer := .inr (.inl ⟨0, rfl, by simp [zeroEncoder_clear]⟩)
  finished h := by cases h
  fresh _ h := by cases h

theorem zeroEncoder_fresh (n : Nat) : [0] ++ [1] ∉ (zeroEncoder n).keys := fun h => by
  obtain ⟨j, -, h⟩ := zeroTable_key.1 h
  have : (1 : Nat) ∈ List.replicate (j + 2) 0 := by rw [← h]; simp
  simp at this

/-- With room, and with three bytes where only two may be. -/
theorem test_witness_EncPushResetsAtThreshold (r : State)
    (hr : r.fault = false ∧ r.bw.Inv r.cfg ∧ r.bw.bitpos = 0 ∧ (r.cfg = State.reset.cfg ∨ r.cfg = smallCfg)) :
    ∃ s : State, s.cfg = r.cfg ∧ s.fault = false ∧ s.bw.Inv s.cfg ∧ s.enc.Inv ∧ s.enc.state = .active ∧
      1 < s.enc.clear ∧ s.enc.buf ≠ [] ∧ s.enc.buf ++ [1] ∉ s.enc.keys ∧ 4095 ≤ s.enc.count ∧
      withinCap s.cfg.bwCap (ceilDiv (s.bw.bitpos + 24) 8) = decide (r.cfg = State.reset.cfg) := by
  have key : ∀ n, n = 3837 → ∃ e : Encoder, e.Inv ∧ e.state = .active ∧ 1 < e.clear ∧ e.buf ≠ [] ∧
      e.buf ++ [1] ∉ e.keys ∧ 4095 ≤ e.count := fun n hn =>
    ⟨zeroEncoder n, { idle := fun h => (by cases h), opened := fun _ => zeroEncoder_inv (by omega) }, rfl,
      show 1 < 256 by decide, by simp [zeroEncoder], zeroEncoder_fresh n, by simp only [zeroEncoder]; omega⟩
  obtain ⟨e, h1, h2, h3, h4, h5, h6⟩ := key 3837 rfl
  refine ⟨{ r with enc := e }, rfl, hr.1, hr.2.1, h1, h2, h3, h4, h5, h6, ?_⟩
  show withinCap r.cfg.bwCap (ceilDiv (r.bw.bitpos + 24) 8) = _
  rw [hr.2.2.1]
  rcases hr.2.2.2 with h | h <;> rw [h] <;> decide

theorem test_witness_EncPushFaults :
    (State.reset.fault = false ∧ State.reset.enc.state ≠ .active) ∧
    (session.fault = false ∧ session.enc.state = .active ∧ session.enc.clear ≤ 4) := by decide

/-- Outside a session; a session with a buffer, one without, and one in a full writer. -/
theorem test_witness_EncFinishWritesFinalCodeAndEoi :
    (State.reset.fault = false ∧ State.reset.bw.Inv State.reset.cfg ∧ State.reset.enc.Inv ∧
      State.reset.enc.state ≠ .active) ∧
    (session.bw.Inv session.cfg ∧ session.enc.Inv ∧ session.enc.state = .active ∧ session.enc.buf ≠ [] ∧
      withinCap session.cfg.bwCap (ceilDiv (session.bw.bitpos + (3 + 3)) 8) = true) ∧
    ((smallSession 0).bw.Inv smallCfg ∧ (smallSession 0).enc.Inv ∧ (smallSession 0).enc.state = .active ∧
      (smallSession 0).enc.buf = [] ∧ withinCap smallCfg.bwCap (ceilDiv ((smallSession 0).bw.bitpos + (0 + 3)) 8) = true) ∧
    (∃ s : State, s.fault = false ∧ s.bw.Inv s.cfg ∧ s.enc.Inv ∧ s.enc.state = .active ∧ s.enc.buf ≠ [] ∧
      withinCap s.cfg.bwCap (ceilDiv (s.bw.bitpos + (3 + 3)) 8) = false) := by
  refine ⟨⟨rfl, test_reset_inv.bw, test_reset_inv.enc, by decide⟩,
    ⟨test_session_inv.bw, test_session_inv.enc, by decide⟩,
    ⟨(test_smallSession_inv 0).bw, (test_smallSession_inv 0).enc, by decide⟩, ?_⟩
  have h : (built small [.bwWrite 12 0, .encBegin 4, .encPush 1]).Inv := built_inv test_small_inv _ (by decide)
  exact ⟨_, by decide, h.bw, h.enc, by decide⟩

theorem test_witness_EncoderCodesFitTheirWidth : session.Inv ∧ session.enc.state ≠ .idle ∧
    ([1, 1], 6) ∈ session.enc.table ∧ [1, 1] ∈ session.enc.keys ∧ 3 < session.enc.clear :=
  ⟨test_session_inv, by decide⟩

theorem test_witness_DecBeginOpensSession : session.fault = false ∧ (2 ≤ 2 ∧ 8 ≤ 8) ∧ 1 < 2 ∧ 8 < 9 := by decide

/-- A decoder session opened with DEC_BEGIN 2 on two bytes, after some steps. -/
def decoding (b0 b1 : Byte) (n : Nat) : State :=
  built State.reset ([.brAppend b0, .brAppend b1, .decBegin 2] ++ List.replicate n .decStep)

theorem test_decoding_inv (b0 b1 : Byte) (n : Nat) : (decoding b0 b1 n).Inv := by
  refine built_inv test_reset_inv _ ?_
  simp

/-- The reader of such a session holds the value its bits give. -/
theorem test_decoding_holds :
    (decoding 0x84 0x0B 0).br.Holds 3 4 ∧ (decoding 0x84 0x0B 2).br.Holds 3 6 ∧ (decoding 0x0D 0 0).br.Holds 3 5 ∧
    (decoding 0x0C 0x2D 1).br.Holds 3 1 ∧ (decoding 0x88 0 1).br.Holds 3 1 ∧ (decoding 0x07 0 0).br.Holds 3 7 ∧
    (decoding 0x38 0 2).br.Holds 3 0 ∧ (smallSession 0x00).br.Holds 3 0 ∧ (smallSession 0x30).br.Holds 3 6 :=
  ⟨BitReader.holds_of_peekBits (by decide), BitReader.holds_of_peekBits (by decide),
    BitReader.holds_of_peekBits (by decide), BitReader.holds_of_peekBits (by decide),
    BitReader.holds_of_peekBits (by decide), BitReader.holds_of_peekBits (by decide),
    BitReader.holds_of_peekBits (by decide), BitReader.holds_of_peekBits (by decide),
    BitReader.holds_of_peekBits (by decide)⟩

/-- A clear code, and an end-of-information code. -/
theorem test_witness_DecStepControlCodes :
    (∃ s : State, s.fault = false ∧ s.dec.Inv ∧ s.dec.state = .active ∧ s.br.Holds s.dec.cs 4 ∧ 4 = 2 ^ s.dec.min) ∧
    (∃ s : State, s.fault = false ∧ s.dec.Inv ∧ s.dec.state = .active ∧ s.br.Holds s.dec.cs 5 ∧
      5 = 2 ^ s.dec.min + 1) :=
  ⟨⟨decoding 0x84 0x0B 0, by decide, (test_decoding_inv _ _ _).dec, by decide, test_decoding_holds.1, by decide⟩,
    ⟨decoding 0x0D 0 0, by decide, (test_decoding_inv _ _ _).dec, by decide, test_decoding_holds.2.2.1, by decide⟩⟩

/-- A literal with DEC_PREV invalid, and one with it valid. -/
theorem test_witness_DecStepEmitsKnownCode :
    (∃ s : State, s.fault = false ∧ s.dec.Inv ∧ s.out.wf = true ∧ s.dec.state = .active ∧ s.br.Holds s.dec.cs 1 ∧
      1 ≠ s.dec.clear ∧ 1 ≠ s.dec.eoi ∧ s.dec.seqOf 1 = some [1] ∧ s.dec.prev.valid = false ∧
      withinCap s.cfg.outCap (s.out.len + [1].length) = true) ∧
    (∃ s : State, s.fault = false ∧ s.dec.Inv ∧ s.out.wf = true ∧ s.dec.state = .active ∧ s.br.Holds s.dec.cs 1 ∧
      1 ≠ s.dec.clear ∧ 1 ≠ s.dec.eoi ∧ s.dec.seqOf 1 = some [1] ∧ s.dec.prev.valid = true ∧
      s.dec.seqOf s.dec.prev.code.toNat = some [0] ∧ withinCap s.cfg.outCap (s.out.len + [1].length) = true) :=
  ⟨⟨decoding 0x0C 0x2D 1, by decide, (test_decoding_inv _ _ _).dec, (test_decoding_inv _ _ _).out.canonical, by decide,
      test_decoding_holds.2.2.2.1, by decide⟩,
    ⟨decoding 0x88 0 1, by decide, (test_decoding_inv _ _ _).dec, (test_decoding_inv _ _ _).out.canonical, by decide,
      test_decoding_holds.2.2.2.2.1, by decide⟩⟩

/-- Stream 840B at its third code, 6 with DEC_COUNT 6. -/
theorem test_witness_DecStepSynthesizesUnknownCode : ∃ s : State, s.fault = false ∧ s.dec.Inv ∧ s.out.wf = true ∧
    s.dec.state = .active ∧ s.br.Holds s.dec.cs 6 ∧ s.dec.count ≤ 6 ∧ s.dec.prev.valid = true ∧
    s.dec.seqOf s.dec.prev.code.toNat = some [0] ∧
    withinCap s.cfg.outCap (s.out.len + ([0] ++ [0]).length) = true :=
  ⟨decoding 0x84 0x0B 2, by decide, (test_decoding_inv _ _ _).dec, (test_decoding_inv _ _ _).out.canonical, by decide,
    test_decoding_holds.2.1, by decide⟩

/-- Two bits left for a code of three; an unknown first code; a previous code that is in no table; a known and an
unknown code that OUT_MEM has no room for. -/
theorem test_witness_DecStepFailures :
    (∃ s : State, s.fault = false ∧ s.dec.Inv ∧ s.dec.state = .active ∧ 8 * s.br.mem.len < s.br.bitpos + s.dec.cs) ∧
    (∃ s : State, s.fault = false ∧ s.dec.Inv ∧ s.dec.state = .active ∧ s.br.Holds s.dec.cs 7 ∧ 7 ≠ s.dec.clear ∧
      7 ≠ s.dec.eoi ∧ s.dec.prev.valid = false ∧ s.dec.count ≤ 7) ∧
    (∃ s : State, s.fault = false ∧ s.dec.Inv ∧ s.dec.state = .active ∧ s.br.Holds s.dec.cs 0 ∧ 0 ≠ s.dec.clear ∧
      0 ≠ s.dec.eoi ∧ s.dec.prev.valid = true ∧ s.dec.seqOf s.dec.prev.code.toNat = none) ∧
    (∃ s : State, s.fault = false ∧ s.dec.Inv ∧ s.dec.state = .active ∧ s.br.Holds s.dec.cs 0 ∧ 0 ≠ s.dec.clear ∧
      0 ≠ s.dec.eoi ∧ s.dec.seqOf 0 = some [0] ∧ s.dec.seqOf s.dec.prev.code.toNat ≠ none ∧
      withinCap s.cfg.outCap (s.out.len + [0].length) = false) ∧
    (∃ s : State, s.fault = false ∧ s.dec.Inv ∧ s.dec.state = .active ∧ s.br.Holds s.dec.cs 6 ∧ s.dec.count ≤ 6 ∧
      s.dec.prev.valid = true ∧ s.dec.seqOf s.dec.prev.code.toNat = some [0] ∧
      withinCap s.cfg.outCap (s.out.len + ([0].length + 1)) = false) :=
  ⟨⟨decoding 0x04 0x90 5, by decide, (test_decoding_inv _ _ _).dec, by decide⟩,
    ⟨decoding 0x07 0 0, by decide, (test_decoding_inv _ _ _).dec, by decide, test_decoding_holds.2.2.2.2.2.1, by decide⟩,
    ⟨decoding 0x38 0 2, by decide, (test_decoding_inv _ _ _).dec, by decide, test_decoding_holds.2.2.2.2.2.2.1,
      by decide⟩,
    ⟨smallSession 0x00, by decide, (test_smallSession_inv _).dec, by decide, test_decoding_holds.2.2.2.2.2.2.2.1,
      by decide⟩,
    ⟨smallSession 0x30, by decide, (test_smallSession_inv _).dec, by decide, test_decoding_holds.2.2.2.2.2.2.2.2,
      by decide⟩⟩

/-- A session in each state but ACTIVE. -/
theorem test_witness_DecStepOutsideActive :
    (State.reset.fault = false ∧ State.reset.dec.state = .idle) ∧
    ((decoding 0x2C 0 2).fault = false ∧ (decoding 0x2C 0 2).dec.state = .done) ∧
    ((decoding 0x34 0 2).fault = false ∧ (decoding 0x34 0 2).dec.state = .error) := by decide

/-- One state for each clause; in the last, a step that does not fault and one that does. -/
theorem test_witness_DecRunRepeatsDecStep :
    (State.reset.Inv ∧ State.reset.dec.state = .idle) ∧
    ((decoding 0x2C 0 2).Inv ∧ (decoding 0x2C 0 2).dec.state = .done) ∧
    ((decoding 0x34 0 2).Inv ∧ (decoding 0x34 0 2).dec.state = .error) ∧
    ((decoding 0x84 0x0B 2).Inv ∧ (decoding 0x84 0x0B 2).dec.state = .active ∧
      see (fun t => t.fault) (exec .decStep (decoding 0x84 0x0B 2)) = some false) ∧
    ((smallSession 0).Inv ∧ (smallSession 0).dec.state = .active ∧
      see (fun t => t.fault) (exec .decStep (smallSession 0)) = some true) :=
  ⟨⟨test_reset_inv, by decide⟩, ⟨test_decoding_inv _ _ _, by decide⟩, ⟨test_decoding_inv _ _ _, by decide⟩,
    ⟨test_decoding_inv _ _ _, by decide⟩, ⟨test_smallSession_inv _, by decide⟩⟩

theorem test_witness_DecRunTerminates :
    ((decoding 0x84 0x0B 2).Inv ∧ (decoding 0x84 0x0B 2).fault = false ∧
      (decoding 0x84 0x0B 2).dec.state = .active ∧ (decoding 0x84 0x0B 2).cfg.outCap = none ∧
      see (fun t => (t.fault, t.dec.state)) (exec .decStep (decoding 0x84 0x0B 2)) = some (false, .active)) ∧
    ((smallSession 0).Inv ∧ (smallSession 0).fault = false ∧ (smallSession 0).dec.state ≠ .idle) :=
  ⟨⟨test_decoding_inv _ _ _, by decide⟩, ⟨test_smallSession_inv _, by decide⟩⟩

/-- A literal, an entry, a step and a run. -/
theorem test_witness_DecodedIndicesBelowClear :
    (decoding 0x84 0x0B 3).Inv ∧ (decoding 0x84 0x0B 3).dec.seqOf 0 = some [0] ∧
    (decoding 0x84 0x0B 3).dec.seqOf 6 = some [0, 0] ∧ (decoding 0x84 0x0B 3).dec.clear = 4 ∧
    (6, [0, 0]) ∈ (decoding 0x84 0x0B 3).dec.table ∧ (decoding 0x84 0x0B 3).dec.count = 7 ∧
    see (fun t => t.dec.state) (exec .decStep (decoding 0x84 0x0B 3)) = some .done ∧
    see (fun t => t.out.len) (exec .decRun (decoding 0x84 0x0B 3)) = some 3 :=
  ⟨test_decoding_inv _ _ _, by decide, by decide, by decide, by decide, by decide, by decide, by decide⟩

/-- For each part of the state, a command that changes it from what it is in `session`. -/
theorem test_witness_StateWrittenOnlyByItsCommands :
    see (fun t => t.partCmd) (exec .softReset { session with partCmd := .header 0x311 }) = some .none ∧
    see (fun t => t.bw.bitpos) (exec (.bwWrite 1 1) session) = some (session.bw.bitpos + 1) ∧
    see (fun t => t.br.mem.len) (exec (.brAppend 1) session) = some (session.br.mem.len + 1) ∧
    see (fun t => (t.br.bitpos, t.result)) (exec (.brRead 10) session) = some (session.br.bitpos + 10, 0x170) ∧
    see (fun t => t.out.len) (exec .decStep session) = some (session.out.len + 1) ∧
    see (fun t => t.enc.buf) (exec .encFinish session) = some [] ∧ session.enc.buf = [1] ∧
    see (fun t => t.dec.min) (exec (.decBegin 8) session) = some (session.dec.min + 6) :=
  ⟨by decide, by decide, by decide, by decide, by decide, by decide, by decide, by decide⟩

theorem test_witness_SessionStateTransitions :
    see (fun t => t.enc.state) (exec .encFinish session) = some .finished ∧ session.enc.state = .active ∧
    see (fun t => t.dec.state) (exec .decRun session) = some .done ∧ session.dec.state = .active := by decide

theorem test_witness_WrittenBitsStay : session.bw.Inv session.cfg ∧ 0 < session.bw.bitpos ∧
    see (fun t => t.bw.bitpos) (exec (.encPush 2) session) = some 9 :=
  ⟨test_session_inv.bw, by decide⟩

theorem test_witness_OutputOnlyGrows : session.out.wf = true ∧ session.fault = false ∧
    see (fun t => t.out.len) (exec .decRun session) = some 3 ∧ see (fun t => t.out.len) (exec .nop session) = some 0 :=
  ⟨test_session_inv.out.canonical, by decide⟩

/-- Two states that differ in the reader, the output and the decoder. -/
theorem test_witness_EncoderAndDecoderDoNotInteract :
    (∃ (s' t : State), s'.cfg = session.cfg ∧
      s'.fault = session.fault ∧ s'.enc = session.enc ∧ s'.bw = session.bw ∧ s'.br.mem.len ≠ session.br.mem.len ∧
      exec (.encPush 2) session = .next t) ∧
    ∃ (s' t : State), s'.cfg = session.cfg ∧
      s'.fault = session.fault ∧ s'.dec = session.dec ∧ s'.br = session.br ∧ s'.out = session.out ∧
      s'.bw.mem.len ≠ session.bw.mem.len ∧ exec .decRun session = .next t :=
  ⟨⟨{ session with br := BitReader.reset, dec := Decoder.reset }, _, rfl, rfl, rfl, rfl, by decide, rfl⟩,
    { session with bw := BitWriter.reset, enc := Encoder.reset }, _, rfl, rfl, rfl, rfl, rfl, by decide, rfl⟩

theorem test_witness_DecoderErrorPersists : ∃ s t : State, s.dec.state = .error ∧ s.fault = false ∧
    exec (.brAppend 0x0B) s = .next t :=
  ⟨decoding 0x34 0 2, _, by decide, by decide, rfl⟩

theorem test_witness_InstancesShareNothing :
    ((Platform.step [session, State.reset.sendAll [0x32], session] 1).map fun q => q.length) = some 3 ∧ 0 ≠ 1 := by decide

/-- Two values that agree. -/
theorem test_witness_ResultCodeValues : (ResultCode.fault .width).byte = ResultCode.byte (.fault .width) := rfl

theorem test_witness_EncDecRegistersFitTheirPortFields : session.Inv ∧ session.readReg 0x35 = 7 ∧
    session.readReg 0x36 = 1 :=
  ⟨test_session_inv, by decide⟩

/-- Sent NOPs are executed before the read of CP: at once, after a pause, and none inside a BW_WRITE. -/
theorem test_hostReadReg :
    (State.reset.sendAll [0]).hostReadReg 0x06 = some 1 ∧ (State.reset.sendAll [0, 0x311, 5, 0]).hostReadReg 0x06 = some 4 ∧
    (State.reset.sendAll [0, 0x311, 5, 0]).hostReadMem .bwMem 0 = some 5 ∧
    (State.reset.sendAll [0, 0x311]).hostReadReg 0x06 = none := by decide

/-- Nothing pending; a complete command next, which decodes; an incomplete one; and two commands, one of them illegal. -/
theorem test_witness_HostReadsSeeCompletedCommands :
    session.pendingWords = [] ∧
    ((session.sendAll [0x32, 0x311]).pendingWords = commandWords 0x32 0 0 ++ [0x311] ∧
      decode 0x32 0 0 = .ok .encFinish ∧
      see (fun t => t.pendingWords) (step (session.sendAll [0x32, 0x311])) = some [0x311]) ∧
    (opField 0x311 = 0x11 ∧ (session.sendAll [0x311]).pendingWords = [0x311] ∧
      (session.sendAll [0x311, 5]).pendingWords = [0x311, 5]) ∧
    ((session.sendAll [0x32, 0xFF]).Inv ∧ (session.sendAll [0x32, 0xFF]).pendingWords =
      [((0x32 : Word), (0 : Word), (0 : Word)), (0xFF, 0, 0)].flatMap (fun c => commandWords c.1 c.2.1 c.2.2)) :=
  ⟨by decide, by decide, by decide, test_sent_inv _, by decide⟩

/-- A read past the end of a memory, and an address the map does not hold. -/
theorem test_witness_ReadPortRegisterMap : (session.memory .brMem).len ≤ 2 ∧ session.readReg 0x46 = 0 ∧
    session.readReg 0x45 = 0 ∧ session.readReg 0x41 = 4 ∧ session.readReg 0x00 = 0xA := by decide

theorem test_witness_HostMovesKeepInvariant : session.Inv ∧ (session.hostMove (.send 7)).cmdPort = [7] :=
  ⟨test_session_inv, by decide⟩

theorem test_witness_StepKeepsInvariant : ∃ s t : State, s.Inv ∧ step s = .next t ∧ t.enc.state = .finished :=
  ⟨session.sendAll [0x32], _, test_sent_inv _, rfl, by decide⟩

/-- A state reached by a word sent and a step. -/
theorem test_witness_ReachableStatesNeverStop : (session.sendAll [0x311]).Inv ∧
    ∃ s : State, Reachable smallCfg s ∧ s.enc.state = .active ∧ s.cp = 1 :=
  ⟨test_sent_inv _, _, .step (.host (.send 0x00040030) .reset) rfl, by decide, by decide⟩

/-- Three colours, and an index that only the clear code bounds. -/
theorem test_witness_LzwInverseLaw : ∃ (s : State) (cc : Nat) (is : List Nat), s.fault = false ∧
    s.cfg.finishGrowth = true ∧ s.cfg.bwCap = none ∧ s.cfg.brCap = none ∧ s.cfg.outCap = none ∧ 1 ≤ cc ∧ cc ≤ 256 ∧
    (∀ i ∈ is, i < 2 ^ max 2 (ceilLog2 cc)) ∧ is.length = 4 :=
  ⟨session, 3, [0, 3, 3, 3], by decide⟩

end Sys2Proof.Tests
end

section
/-! The STATUS word (10_state.md R23): what each of its fields reads, and O51. -/

namespace Sys2Proof.Machine

/-- Address 0 of REG is STATUS (10_state.md R22). -/
@[simp] theorem State.readReg_zero (s : State) : s.readReg 0x00 = s.status := rfl

/-- STATUS bit by bit, from the low end: FAULT, then the two bits of ENC_STATE, then those of DEC_STATE. -/
theorem State.getLsbD_status (s : State) (i : Nat) :
    s.status.getLsbD i = if i = 0 then s.fault else if i < 3 then s.enc.state.bits.getLsbD (i - 1)
      else s.dec.state.bits.getLsbD (i - 3) := by
  have inWord (h : s.dec.state.bits.getLsbD (i - 3) = true) : i < 32 := by
    have := BitVec.lt_of_getLsbD h
    omega
  simp only [State.status, BitVec.getLsbD_setWidth, BitVec.getLsbD_append, BitVec.getLsbD_ofBool]
  obtain rfl | hpos := Nat.eq_zero_or_pos i
  · simp
  by_cases henc : i < 3
  · simp [henc, show ¬ i < 1 by omega, show i ≠ 0 by omega, show i - 1 < 2 by omega, show i < 32 by omega]
  · simpa [henc, show ¬ i < 1 by omega, show i ≠ 0 by omega, show ¬ i - 1 < 2 by omega, Nat.sub_sub]
      using inWord

theorem State.status_faultField (s : State) : s.status.getLsbD 0 = s.fault := by
  rw [State.getLsbD_status, if_pos rfl]

theorem State.status_encStateField (s : State) : s.status.extractLsb' 1 2 = s.enc.state.bits := by
  refine BitVec.eq_of_getLsbD_eq fun i hi => ?_
  simp [State.getLsbD_status, hi, show 1 + i < 3 by omega]

theorem State.status_decStateField (s : State) : s.status.extractLsb' 3 2 = s.dec.state.bits := by
  refine BitVec.eq_of_getLsbD_eq fun i hi => ?_
  simp [State.getLsbD_status, hi]

theorem State.status_reservedField (s : State) : s.status.extractLsb' 5 27 = 0 := by
  refine BitVec.eq_of_getLsbD_eq fun i hi => ?_
  have beyond : s.dec.state.bits.getLsbD (5 + i - 3) = false := BitVec.getLsbD_of_ge _ _ (by omega)
  simp [State.getLsbD_status, beyond, show ¬ 5 + i < 3 by omega]

theorem State.status_resetWith (cfg : Config) : (State.resetWith cfg).status = 0 := by
  change ((0#2 ++ 0#2) ++ BitVec.ofBool false).setWidth 32 = 0
  decide

/-- Settles O51, field by field. -/
theorem statusWordLayout : Obligations.StatusWordLayout := by
  refine ⟨State.status_resetWith, fun s => ?_⟩
  rw [State.readReg_zero]
  exact ⟨s.status_faultField, s.status_encStateField, s.status_decStateField, s.status_reservedField⟩

end Sys2Proof.Machine
end

section
/-! The bit primitives (20_memory.md R61 to R63): what WriteBits appends PeekBits finds, and O24. -/

namespace Sys2Proof.Machine

/-- The bits appended lie within the grown memory. -/
theorem BitWriter.Appended.end_le {w w' : BitWriter} {v n : Nat} (h : w.Appended w' v n) :
    w.bitpos + n ≤ 8 * w'.mem.len := by
  rw [h.length, ceilDiv_eight]
  omega

theorem BitWriter.Appended.bit_written {w w' : BitWriter} {v n j : Nat} (h : w.Appended w' v n) (hj : j < n) :
    w'.mem.bit (w.bitpos + j) = v.testBit j := by
  rw [h.bits, if_neg (by omega), if_pos (by omega), Nat.add_sub_cancel_left]

/-- A reader of the grown memory, placed at the old cursor, finds the low bits of the value appended. -/
theorem BitWriter.Appended.peekBits {w w' : BitWriter} {v n : Nat} (h : w.Appended w' v n) :
    BitReader.peekBits { mem := w'.mem, bitpos := w.bitpos } n = some (v % 2 ^ n) :=
  BitReader.peekBits_eq_some.2 ⟨h.end_le, Memory.bitsAt_eq_mod fun _ hj => h.bit_written hj⟩

/-- Settles O24: WriteBits appends the low bits of its value (R61), and PeekBits finds what was appended. -/
theorem peekReturnsWrittenValue : Obligations.PeekReturnsWrittenValue := by
  intro cfg w v n hw
  exact (hw.appended v n).peekBits

end Sys2Proof.Machine
end

section
/-! Legal and illegal headers (30_encoding.md R82 to R85, R90): the headers that decode are those of a row of the
opcode table, and all others are illegal; O4, O5 and O6. -/

namespace Sys2Proof

open Machine

/-! ## The fields that must be zero (R83) -/

theorem requireZero_error_iff {b : Bool} {i : Instr} : (∃ e, requireZero b i = .error e) ↔ b = false := by
  cases b <;> simp [requireZero]

theorem usesNone_error_iff {h : Word} {i : Instr} :
    (∃ e, usesNone h i = .error e) ↔ nField h ≠ 0 ∨ immField h ≠ 0 := by
  simp [usesNone, requireZero_error_iff, imp_iff_not_or]

theorem usesN_error_iff {h : Word} {i : Instr} : (∃ e, usesN h i = .error e) ↔ immField h ≠ 0 := by
  simp [usesN, requireZero_error_iff]

theorem usesImm_error_iff {h : Word} {i : Instr} : (∃ e, usesImm h i = .error e) ↔ nField h ≠ 0 := by
  simp [usesImm, requireZero_error_iff]

theorem usesImmLow_error_iff {h : Word} {i : Instr} :
    (∃ e, usesImmLow h i = .error e) ↔ nField h ≠ 0 ∨ immHighField h ≠ 0 := by
  simp [usesImmLow, requireZero_error_iff, imp_iff_not_or]

/-- Settles O5, along the OP values `decode` tells apart: a known one leaves R83's fields to check, any other is
reserved. -/
theorem illegalHeadersCharacterised : Obligations.IllegalHeadersCharacterised := by
  intro h w1 w2
  unfold decode IllegalHeader
  split
  case h_16 =>
    refine ⟨fun _ => .inl fun known => ?_, fun _ => ⟨_, rfl⟩⟩
    simp only [List.mem_cons, List.not_mem_nil, or_false, ← BitVec.toNat_inj] at known
    tauto
  all_goals
    obtain ⟨-, hop⟩ := BitVec.toNat_eq_nat.1 ‹_›
    simp [hop, usesNone_error_iff, usesN_error_iff, usesImm_error_iff, usesImmLow_error_iff]

theorem decode_ok_of_not_illegalHeader {h : Word} (hl : ¬ IllegalHeader h) (w1 w2 : Word) :
    ∃ i, decode h w1 w2 = .ok i := by
  cases hd : decode h w1 w2 with
  | ok i => exact ⟨i, rfl⟩
  | error e => exact absurd ((illegalHeadersCharacterised h w1 w2).1 ⟨e, hd⟩) hl

/-! ## The masks of the opcode table (R85) -/

theorem opcodeRows_distinct : (opcodeRows.map fun r => opField r.pattern).Nodup := by decide

theorem opcodeRows_mask : ∀ r ∈ opcodeRows, opField r.mask = 0xFF := by decide

theorem byte_and_0xFF (b : Byte) : b &&& 0xFF = b := BitVec.and_allOnes

theorem and_0xFFFF (m : BitVec 16) : m &&& 0xFFFF = m := BitVec.and_allOnes

/-- BR_APPEND's mask leaves IMM[15:8] to check. -/
theorem immField_and_0xFF00 (h : Word) : immField h &&& 0xFF00 = immHighField h ++ 0#8 := by
  have bytes : immField h = immHighField h ++ immLowField h := by
    apply BitVec.eq_of_toNat_eq
    rw [toNat_append_eq, immField_toNat, immHighField_toNat, immLowField_toNat]
    omega
  rw [bytes, show (0xFF00 : BitVec 16) = 0xFF#8 ++ 0#8 from rfl, BitVec.and_append, BitVec.and_zero]
  exact congrArg (· ++ 0#8) (byte_and_0xFF _)

theorem immField_and_0xFF00_eq_zero_iff (h : Word) : immField h &&& 0xFF00 = 0 ↔ immHighField h = 0 := by
  rw [immField_and_0xFF00, BitVec.toNat_eq, toNat_append_eq, BitVec.toNat_eq]
  simp

/-! ## Headers and rows (R85) -/

theorem OpRow.opField_of_matchesWord {r : OpRow} (hr : r ∈ opcodeRows) {h : Word} (hm : r.matchesWord h = true) :
    opField h = opField r.pattern := by
  rw [← (OpRow.matchesWord_iff.1 hm).1, opcodeRows_mask r hr, byte_and_0xFF]

theorem OpRow.eq_of_matchesWord {r r' : OpRow} (hr : r ∈ opcodeRows) (hr' : r' ∈ opcodeRows) {h : Word}
    (hm : r.matchesWord h = true) (hm' : r'.matchesWord h = true) : r = r' :=
  List.inj_on_of_nodup_map opcodeRows_distinct hr hr'
    ((opField_of_matchesWord hr hm).symm.trans (opField_of_matchesWord hr' hm'))

/-- Every bit that R83 requires to be zero is in the row's mask. -/
theorem OpRow.not_illegalHeader_of_matchesWord {r : OpRow} (hr : r ∈ opcodeRows) {h : Word}
    (hm : r.matchesWord h = true) : ¬ IllegalHeader h := by
  have hop := opField_of_matchesWord hr hm
  obtain ⟨-, hn, hi⟩ := matchesWord_iff.1 hm
  unfold IllegalHeader
  simp only [hop, ne_eq, ← immField_and_0xFF00_eq_zero_iff]
  clear hop hm
  generalize nField h = n at *
  generalize immField h = m at *
  have nMasked := byte_and_0xFF n
  have immMasked := and_0xFFFF m
  fin_cases hr
  all_goals simp_all [opField, nField, immField]

/-- The header the encoder makes sets no bit that the mask covers, besides those of OP. -/
theorem Instr.exists_row (i : Instr) : ∃ r ∈ opcodeRows,
    r.matchesWord (headerWord i.opcode i.nOperand i.immOperand) = true ∧ r.mnemonic = i.mnemonic := by
  obtain ⟨hop, hn, hi, -, hhigh⟩ := headerWord_fields i.opcode i.nOperand i.immOperand
  cases i with
  | brAppend b =>
    have hb : b.toNat / 256 = 0 := Nat.div_eq_of_lt b.isLt
    have high : immHighField (headerWord _ _ _) = 0 := hhigh.trans (congrArg (BitVec.ofNat 8) hb)
    exact ⟨⟨"BR_APPEND", 0x00000021, 0xFF00FFFF⟩, by decide, OpRow.matchesWord_iff.2
      ⟨by rw [hop, Instr.opcode]; decide, by rw [hn, Instr.nOperand]; decide,
        (immField_and_0xFF00_eq_zero_iff _).2 high⟩, rfl⟩
  | _ =>
    simp only [OpRow.matchesWord_iff, hop, hn, hi]
    simp [opcodeRows, Instr.mnemonic, Instr.opcode, Instr.nOperand, Instr.immOperand, opField, nField, immField]

/-- A header that decodes is the one the encoder makes of its command. -/
theorem headerWord_of_decode {h w1 w2 : Word} {i : Instr} (hd : decode h w1 w2 = .ok i) :
    headerWord i.opcode i.nOperand i.immOperand = h ∧ opField h = i.opcode := by
  obtain ⟨hop, hn, hi, -⟩ := decode_eq_ok hd
  have hop := BitVec.eq_of_toNat_eq hop
  exact ⟨by rw [← hop, ← hn, ← hi, headerWord_of_fields], hop⟩

/-- Settles O4. -/
theorem decodeAgreesWithOpcodeTable : Obligations.DecodeAgreesWithOpcodeTable := by
  refine ⟨fun h w1 w2 i hd => ?_, fun h w1 w2 ⟨r, hr, hm⟩ => ?_, fun h r hr r' hr' hm hm' => ?_,
    opcodeRows_distinct, opcodeRows_mask⟩
  · obtain ⟨hh, hop⟩ := headerWord_of_decode hd
    obtain ⟨r, hr, hm, hmn⟩ := i.exists_row
    exact ⟨hop.symm, r, hr, hh ▸ hm, hmn⟩
  · exact decode_ok_of_not_illegalHeader (OpRow.not_illegalHeader_of_matchesWord hr hm) w1 w2
  · exact OpRow.eq_of_matchesWord hr hr' hm hm'

/-! ## Worked encodings (R90) -/

theorem decode_headerWord (i : Instr) : Laws.Decodes.Statement i := by
  cases i with
  | nop => exact Laws.Decodes.nop
  | softReset => exact Laws.Decodes.softReset
  | bwClear => exact Laws.Decodes.bwClear
  | bwWrite n v => exact Laws.Decodes.bwWrite n v
  | brClear => exact Laws.Decodes.brClear
  | brAppend b => exact Laws.Decodes.brAppend b
  | brAtHead => exact Laws.Decodes.brAtHead
  | brRead n => exact Laws.Decodes.brRead n
  | encBegin cc => exact Laws.Decodes.encBegin cc
  | encPush k => exact Laws.Decodes.encPush k
  | encFinish => exact Laws.Decodes.encFinish
  | decBegin m => exact Laws.Decodes.decBegin m
  | decStep => exact Laws.Decodes.decStep
  | decRun => exact Laws.Decodes.decRun
  | outClear => exact Laws.Decodes.outClear

theorem decodeWords_encode_append {i : Instr} (hw : i.wellFormed = true) (rest : List Word) :
    decodeWords (encode i ++ rest) = .ok (i, rest) := by
  obtain ⟨w1, w2, hsplit, hdata, -⟩ := splitCommand_encode i rest
  rw [decodeWords, hsplit]
  dsimp only
  rw [decode_headerWord i w1 w2 hw hdata]
  rfl

/-- Settles O6: the words are compared one by one, and the decoder's side is the round trip and O5. -/
theorem workedEncodingsDecode : Obligations.WorkedEncodingsDecode := by
  refine ⟨fun p hp => ?_, fun h hh => ?_, by decide⟩
  · have key : p.1.wellFormed = true ∧ encode p.1 = p.2 := by
      fin_cases hp
      all_goals decide
    obtain ⟨hw, he⟩ := key
    have back := decodeWords_encode_append hw []
    rw [List.append_nil, he] at back
    exact ⟨he, back⟩
  · have illegal : IllegalHeader h := by
      unfold IllegalHeader
      fin_cases hh
      all_goals decide
    obtain ⟨e, he⟩ := (illegalHeadersCharacterised h 0 0).2 illegal
    rw [he]
    rfl

end Sys2Proof
end

section
/-! The step that takes one complete command off the port (30_encoding.md R86, R88, R94): O11 and O12. -/

namespace Sys2Proof.Machine

/-! ## Consuming a command -/

theorem State.consumed_eq (s : State) (h : Word) (rest : List Word) :
    (s.setPort rest .none).advanceCp (commandLen h) = s.consumed h rest := by
  unfold commandLen State.consumed
  split <;> rfl

/-- `splitCommand` takes a complete command's words from the front; it may take zero for data words that the command
has not, which `decode` does not look at. -/
theorem splitCommand_commandWords (h w1 w2 : Word) (rest : List Word) : ∃ v1 v2,
    splitCommand (commandWords h w1 w2 ++ rest) = some ((h, v1, v2), rest) ∧ decode h v1 v2 = decode h w1 w2 := by
  by_cases h11 : opField h = 0x11
  · exact ⟨w1, w2, by rw [commandWords, if_pos h11]; exact if_pos (if_pos h11), rfl⟩
  · have h1 : commandLen h ≠ 3 := by rw [commandLen, if_neg h11]; decide
    exact ⟨0, 0, by rw [commandWords, if_neg h11]; exact if_neg h1, decode_one_word h1 0 0 w1 w2⟩

/-- A step with a complete command on the port: the command is consumed before it executes, legal or not (R94). -/
theorem step_of_commandWords {s : State} {h w1 w2 : Word} {rest : List Word}
    (hp : s.pendingWords = commandWords h w1 w2 ++ rest) :
    (∀ i, decode h w1 w2 = .ok i → step s = exec i (s.consumed h rest)) ∧
      (∀ e, decode h w1 w2 = .error e → step s = (s.consumed h rest).illegalCommand) := by
  obtain ⟨v1, v2, hsplit, hdec⟩ := splitCommand_commandWords h w1 w2 rest
  rw [step_eq, hp, hsplit]
  simp only [hdec, State.consumed_eq]
  constructor <;> (intro x hx; rw [hx])

/-- Settles O11. -/
theorem illegalHeaderFaults : Obligations.IllegalHeaderFaults := by
  intro s h w1 w2 rest hf hill hp
  obtain ⟨e, he⟩ := (illegalHeadersCharacterised h w1 w2).2 hill
  rw [(step_of_commandWords hp).2 e he]
  have hclear : (s.consumed h rest).fault = false := hf
  exact State.unlessFaulted_clear hclear _

/-! ## CP -/

theorem decRunLoop_cp {n : Nat} {s t : State} (h : decRunLoop n s = some t) : t.cp = s.cp :=
  (decRunLoop_induct (P := fun u => u.cp = s.cp)
    (fun u hu _ _ => by
      obtain ⟨-, -, -, hcp, -⟩ := decActiveStep_frame u
      exact hcp.trans hu) rfl h).1

theorem finish_commandBody_cp (i : Instr) (s : State) : (s.finish (commandBody i s)).cp = s.cp := by
  cases i with
  | decStep =>
    simp only [commandBody, decStepBody]
    cases s.dec.state with
    | active =>
      obtain ⟨-, -, -, hcp, -⟩ := decActiveStep_frame s
      exact hcp
    | _ => rfl
  | _ =>
    simp only [commandBody, bwWriteBody, brAppendBody, brAtHeadBody, brReadBody, encBeginBody, encPushBody,
      encPushReset, encPushAdd, encFinishBody, decBeginBody]
    (repeat' split) <;> rfl

/-- No command changes CP, SOFT_RESET included (44_control.md R201). -/
theorem exec_cp {i : Instr} {s t : State} (h : exec i s = .next t) : t.cp = s.cp := by
  by_cases hsr : i = .softReset
  · subst hsr
    cases h
    rfl
  cases hf : s.fault with
  | true =>
    rw [exec_rejected hsr hf] at h
    cases h
    rfl
  | false =>
    by_cases hr : i = .decRun
    · subst hr
      rcases exec_decRun_cases hf h with ⟨-, rfl⟩ | ⟨-, u, hu, rfl⟩
      · rfl
      · exact (decRunLoop_cp hu :)
    · rw [exec_clear hsr hr hf] at h
      cases h
      exact finish_commandBody_cp i s

theorem State.illegalCommand_cp {s t : State} (h : s.illegalCommand = .next t) : t.cp = s.cp := by
  rw [State.illegalCommand, State.unlessFaulted] at h
  split at h <;> cases h <;> rfl

/-- Settles O12: the command is consumed first, and neither a command nor an illegal header writes CP after that. -/
theorem cpCountsCommandWords : Obligations.CpCountsCommandWords := by
  intro s h w1 w2 rest hp
  obtain ⟨hok, herr⟩ := step_of_commandWords hp
  refine ⟨hok, fun t ht => ?_⟩
  change t.cp = (s.consumed h rest).cp
  cases hd : decode h w1 w2 with
  | ok i => exact exec_cp ((hok i hd).symm.trans ht)
  | error e => exact State.illegalCommand_cp ((herr e hd).symm.trans ht)

end Sys2Proof.Machine
end

section
/-! The bit writer and the bit reader (40_bitstream.md): what each command does, said once for each way it ends, and
the claims about them; O20 to O23, O25, O26 and O46. -/

namespace Sys2Proof.Machine

/-! ## The commands, one law for each way they end -/

section
variable {s : State} (hf : s.fault = false)
include hf

theorem exec_bwClear : exec .bwClear s = .next ((s.setBw BitWriter.reset).setLastResult .ok) :=
  exec_clear (by simp) (by simp) hf

theorem exec_bwWrite_width {n : Nat} (hn : 64 < n) (v : BitVec 64) :
    exec (.bwWrite n v) s = .next (s.raiseFault .width) := by
  have hr : ¬ bitCountInRange n = true := by rw [bitCountInRange_iff]; omega
  rw [exec_clear (by simp) (by simp) hf, commandBody, bwWriteBody, if_neg hr, State.finish_fault]

theorem exec_bwWrite_overflow {n : Nat} (hn : n ≤ 64) (hc : s.bwFits n = false) (v : BitVec 64) :
    exec (.bwWrite n v) s = .next (s.raiseFault .overflow) := by
  rw [exec_clear (by simp) (by simp) hf, commandBody, bwWriteBody, if_pos (bitCountInRange_iff.2 hn),
    if_neg (by simp [hc]), State.finish_fault]

theorem exec_bwWrite_fits {n : Nat} (hn : n ≤ 64) (hc : s.bwFits n = true) (v : BitVec 64) :
    exec (.bwWrite n v) s = .next ((s.setBw (s.bw.writeBits v.toNat n)).setLastResult .ok) := by
  rw [exec_clear (by simp) (by simp) hf, commandBody, bwWriteBody, if_pos (bitCountInRange_iff.2 hn), if_pos hc,
    State.finish_done]

theorem exec_brAppend_fits (hc : withinCap s.cfg.brCap (s.br.mem.len + 1) = true) (b : Byte) :
    exec (.brAppend b) s = .next ((s.setBr { s.br with mem := s.br.mem.append b }).setLastResult .ok) := by
  rw [exec_clear (by simp) (by simp) hf, commandBody, brAppendBody, if_pos hc, State.finish_done]

theorem exec_brAppend_overflow (hc : withinCap s.cfg.brCap (s.br.mem.len + 1) = false) (b : Byte) :
    exec (.brAppend b) s = .next (s.raiseFault .overflow) := by
  rw [exec_clear (by simp) (by simp) hf, commandBody, brAppendBody, if_neg (by simp [hc]), State.finish_fault]

theorem exec_brAtHead_fits (hc : withinCap s.cfg.brCap s.bw.mem.len = true) :
    exec .brAtHead s = .next ((s.setBr { mem := s.bw.mem, bitpos := 0 }).setLastResult .ok) := by
  rw [exec_clear (by simp) (by simp) hf, commandBody, brAtHeadBody, if_pos hc, State.finish_done]

theorem exec_brAtHead_overflow (hc : withinCap s.cfg.brCap s.bw.mem.len = false) :
    exec .brAtHead s = .next (s.raiseFault .overflow) := by
  rw [exec_clear (by simp) (by simp) hf, commandBody, brAtHeadBody, if_neg (by simp [hc]), State.finish_fault]

theorem exec_brRead_width {n : Nat} (hn : 64 < n) : exec (.brRead n) s = .next (s.raiseFault .width) := by
  have hr : ¬ bitCountInRange n = true := by rw [bitCountInRange_iff]; omega
  rw [exec_clear (by simp) (by simp) hf, commandBody, brReadBody, if_neg hr, State.finish_fault]

theorem exec_brRead_truncated {n : Nat} (hn : n ≤ 64) (hp : s.br.peekBits n = none) :
    exec (.brRead n) s = .next (s.raiseError (.error .truncated)) := by
  rw [exec_clear (by simp) (by simp) hf, commandBody, brReadBody, if_pos (bitCountInRange_iff.2 hn), hp,
    State.finish_error]

theorem exec_brRead_some {n v : Nat} (hn : n ≤ 64) (hp : s.br.peekBits n = some v) :
    exec (.brRead n) s =
      .next (((s.setResult (BitVec.ofNat 64 v)).setBr (s.br.advance n)).setLastResult .ok) := by
  rw [exec_clear (by simp) (by simp) hf, commandBody, brReadBody, if_pos (bitCountInRange_iff.2 hn), hp,
    State.finish_done]

end

/-- Settles O20: the range check comes before the capacity check (R101). -/
theorem bwWriteAppendsLowBits : Obligations.BwWriteAppendsLowBits := by
  intro s n v hf hbw
  refine ⟨fun hn => exec_bwWrite_width hf hn v, fun hn hc => exec_bwWrite_overflow hf hn hc v, fun hn hc => ?_⟩
  refine ⟨s.bw.writeBits v.toNat n, exec_bwWrite_fits hf hn hc v, hbw.appended v.toNat n, ?_⟩
  rintro rfl
  exact BitWriter.writeBits_zero s.bw v.toNat

/-- Settles O21. -/
theorem brAppendStoresByte : Obligations.BrAppendStoresByte := by
  intro s b hf hbr
  refine ⟨fun hc => ?_, fun hc => exec_brAppend_overflow hf hc b⟩
  exact ⟨s.br.mem.append b, exec_brAppend_fits hf hc b, Memory.len_append _ b, Memory.read_append hbr.canonical b⟩

/-- Settles O23: a value of at most 64 bits is not cut by RESULT, so its bits are those PeekBits found (R62). -/
theorem brReadReturnsNextBits : Obligations.BrReadReturnsNextBits := by
  intro s n hf
  refine ⟨exec_brRead_width hf, fun hn ht => exec_brRead_truncated hf hn (BitReader.peekBits_eq_none.2 ht),
    fun hn he => ?_⟩
  refine ⟨_, exec_brRead_some hf hn (BitReader.peekBits_eq_some.2 ⟨he, rfl⟩), fun j => ?_⟩
  rw [State.setBr_result, State.setResult_result, BitVec.getLsbD_ofNat, Memory.testBit_bitsAt]
  by_cases hj : j < n
  · simp [hj, show j < 64 by omega]
  · simp [hj]

/-! ## Writing and reading values one after another (R112, R113) -/

/-- A list of BW_WRITEs whose bits fit the capacity writes its values one after another. -/
theorem execAll_bwWrites {s : State} {ps : List (Nat × BitVec 64)} (hf : s.fault = false) (hn : ∀ p ∈ ps, p.1 ≤ 64)
    (hc : withinCap s.cfg.bwCap (ceilDiv (s.bw.bitpos + (ps.map Prod.fst).sum) 8) = true) :
    ∃ t, execAll (ps.map fun p => .bwWrite p.1 p.2) s = some t ∧ t.fault = false ∧ t.cfg = s.cfg ∧
      t.bw = s.bw.writeList (ps.map (Prod.map id BitVec.toNat)) := by
  induction ps generalizing s with
  | nil => exact ⟨s, rfl, hf, rfl, rfl⟩
  | cons p ps ih =>
    obtain ⟨n, v⟩ := p
    obtain ⟨hn1, hns⟩ := List.forall_mem_cons.1 hn
    rw [List.map_cons, List.sum_cons, ← Nat.add_assoc] at hc
    have hfit : s.bwFits n = true := withinCap_mono hc (by simp only [ceilDiv_eight]; omega)
    rw [List.map_cons, execAll, exec_bwWrite_fits hf hn1 hfit]
    exact ih (s := (s.setBw (s.bw.writeBits v.toNat n)).setLastResult .ok) hf hns hc

/-- The same after BW_CLEAR, from any writer. -/
theorem execAll_bwClear_bwWrites {s : State} {ps : List (Nat × BitVec 64)} (hf : s.fault = false)
    (hn : ∀ p ∈ ps, p.1 ≤ 64) (hc : withinCap s.cfg.bwCap (ceilDiv (ps.map Prod.fst).sum 8) = true) :
    ∃ t, execAll (.bwClear :: ps.map fun p => .bwWrite p.1 p.2) s = some t ∧ t.fault = false ∧ t.cfg = s.cfg ∧
      t.bw = BitWriter.reset.writeList (ps.map (Prod.map id BitVec.toNat)) := by
  rw [execAll, exec_bwClear hf]
  refine execAll_bwWrites (s := (s.setBw BitWriter.reset).setLastResult .ok) hf hn ?_
  rwa [State.setLastResult_bw, State.setBw_bw, show BitWriter.reset.bitpos = 0 from rfl, Nat.zero_add]

/-- BR_READs of the widths of values that the reader's memory holds from its cursor on return these values. -/
theorem execTrace_brReads {s : State} {ps : List (Nat × BitVec 64)} (hf : s.fault = false)
    (hv : ∀ p ∈ ps, p.1 ≤ 64 ∧ p.2.toNat < 2 ^ p.1)
    (hm : s.br.mem.HasVals s.br.bitpos (ps.map (Prod.map id BitVec.toNat))) :
    ∃ t, execTrace (ps.map fun p => .brRead p.1) s = some (t, ps.map fun p => (.ok, p.2)) := by
  induction ps generalizing s with
  | nil => exact ⟨s, rfl⟩
  | cons p ps ih =>
    obtain ⟨n, v⟩ := p
    obtain ⟨⟨hn, hlt⟩, hvs⟩ := List.forall_mem_cons.1 hv
    obtain ⟨t, ht⟩ := ih (s := ((s.setResult v).setBr (s.br.advance n)).setLastResult .ok) hf hvs hm.2
    refine ⟨t, ?_⟩
    rw [List.map_cons, execTrace, exec_brRead_some hf hn (hm.peekBits hlt), BitVec.ofNat_toNat, BitVec.setWidth_eq]
    simp only [ht]
    rfl

/-- A stream written from the empty writer takes as many bytes as its bits need, and holds its values in order. -/
theorem BitWriter.writeList_reset (l : List (Nat × Nat)) :
    (BitWriter.reset.writeList l).mem.len = ceilDiv (l.map Prod.fst).sum 8 ∧
      (BitWriter.reset.writeList l).mem.HasVals 0 l := by
  have hi : BitWriter.reset.Inv Config.default := BitWriter.inv_empty _
  refine ⟨?_, hi.hasVals_writeList rfl l⟩
  rw [(hi.writeList rfl l :).length, BitWriter.writeList_bitpos]
  exact congrArg (ceilDiv · 8) (Nat.zero_add _)

/-- Settles O25: the writes leave the stream, BR_AT_HEAD takes it over whole, and the reads find it value by value. -/
theorem bitStreamInverseLaw : Obligations.BitStreamInverseLaw := by
  intro s ps hf hv hbw hbr
  obtain ⟨t, ht, htf, htc, htw⟩ := execAll_bwClear_bwWrites hf (fun p hp => (hv p hp).1) hbw
  obtain ⟨hlen, hvals⟩ := BitWriter.writeList_reset (ps.map (Prod.map id BitVec.toNat))
  rw [← htw] at hlen hvals
  have hfst : (ps.map (Prod.map id BitVec.toNat)).map Prod.fst = ps.map Prod.fst := by simp
  have hhead := exec_brAtHead_fits htf (by rw [hlen, hfst, htc]; exact hbr)
  obtain ⟨u, hu⟩ := execTrace_brReads
    (s := (t.setBr { mem := t.bw.mem, bitpos := 0 }).setLastResult .ok) htf hv hvals
  refine ⟨_, u, ?_, hu⟩
  rw [execAll_append, ht, Option.bind_some, execAll, hhead]
  rfl

/-- Settles O26: the stream of R113, written from the empty writer. -/
theorem sourceBitVector : Obligations.SourceBitVector := by
  intro s hf hc
  obtain ⟨t, ht, -, -, htw⟩ :=
    execAll_bwClear_bwWrites (ps := [(2, 0b11), (1, 0b0), (4, 0b0101), (3, 0b101)]) hf (by decide) hc
  refine ⟨t, ht, ?_⟩
  rw [htw]
  decide

/-! ## What the writer's commands leave alone (R102, R108) -/

/-- The commands on the writer and the encoder leave BR alone (R114). -/
theorem finish_commandBody_br {i : Instr} (hi : i = .bwClear ∨ (∃ n v, i = .bwWrite n v) ∨ (∃ cc, i = .encBegin cc) ∨
    (∃ k, i = .encPush k) ∨ i = .encFinish) (s : State) : (s.finish (commandBody i s)).br = s.br := by
  rcases hi with rfl | ⟨n, v, rfl⟩ | ⟨cc, rfl⟩ | ⟨k, rfl⟩ | rfl
  · rfl
  · simp only [commandBody, bwWriteBody]
    split_ifs <;> rfl
  · simp only [commandBody, encBeginBody]
    split_ifs <;> rfl
  · simp only [commandBody, encPushBody, encPushReset, encPushAdd]
    split_ifs <;> rfl
  · simp only [commandBody, encFinishBody]
    split_ifs <;> rfl

/-- Settles O22: the second clause holds from every state, since none of its commands writes BR. -/
theorem brAtHeadTakesSnapshot : Obligations.BrAtHeadTakesSnapshot := by
  refine ⟨fun s hf => ⟨exec_brAtHead_fits hf, exec_brAtHead_overflow hf⟩, fun s t u i _ hu hi => ?_⟩
  have hsr : i ≠ .softReset := by rintro rfl; simp at hi
  have hr : i ≠ .decRun := by rintro rfl; simp at hi
  rw [exec_eq_runCommand hsr hr, State.runCommand_eq] at hu
  cases hu
  split
  · rfl
  · exact finish_commandBody_br hi t

theorem writeFinalCode_eq_writeList (e : Encoder) (w : BitWriter) :
    writeFinalCode e w = w.writeList (if e.buf = [] then [] else [(e.cs, e.codeOf e.buf)]) := by
  rw [writeFinalCode]
  split <;> rfl

/-- The pseudocode of every command but BW_CLEAR appends values to the writer, if it changes it. -/
theorem finish_commandBody_bw {i : Instr} (hi : i ≠ .bwClear) (s : State) :
    ∃ l, (s.finish (commandBody i s)).bw = s.bw.writeList l := by
  cases i with
  | bwClear => contradiction
  | bwWrite n v =>
    simp only [commandBody, bwWriteBody]
    split_ifs
    · exact ⟨[(n, v.toNat)], rfl⟩
    · exact ⟨[], rfl⟩
    · exact ⟨[], rfl⟩
  | encBegin cc =>
    simp only [commandBody, encBeginBody]
    split_ifs
    · exact ⟨[((s.enc.opened cc).cs, (s.enc.opened cc).clear)], rfl⟩
    · exact ⟨[], rfl⟩
    · exact ⟨[], rfl⟩
  | encPush k =>
    simp only [commandBody, encPushBody, encPushReset, encPushAdd]
    split_ifs
    · exact ⟨[], rfl⟩
    · exact ⟨[(s.enc.cs, s.enc.codeOf s.enc.buf), (s.enc.cs, s.enc.clear)], rfl⟩
    · exact ⟨[], rfl⟩
    · exact ⟨[(s.enc.cs, s.enc.codeOf s.enc.buf)], rfl⟩
    · exact ⟨[], rfl⟩
    · exact ⟨[], rfl⟩
    · exact ⟨[], rfl⟩
  | encFinish =>
    simp only [commandBody, encFinishBody]
    generalize (if s.enc.buf = [] then 0 else s.enc.cs) = b
    split
    · split
      · refine ⟨(if s.enc.buf = [] then [] else [(s.enc.cs, s.enc.codeOf s.enc.buf)]) ++
          [(finishCs s.cfg s.enc, s.enc.eoi)], ?_⟩
        rw [BitWriter.writeList_append, ← writeFinalCode_eq_writeList]
        rfl
      · exact ⟨[], rfl⟩
    · exact ⟨[], rfl⟩
  | decStep =>
    refine ⟨[], ?_⟩
    simp only [commandBody, decStepBody]
    cases s.dec.state with
    | active =>
      obtain ⟨-, -, -, -, -, hbw, -⟩ := decActiveStep_frame s
      exact hbw
    | _ => rfl
  | _ =>
    refine ⟨[], ?_⟩
    simp only [commandBody, brAppendBody, brAtHeadBody, brReadBody, decBeginBody]
    (repeat' split) <;> rfl

theorem decRunLoop_bw {n : Nat} {s t : State} (h : decRunLoop n s = some t) : t.bw = s.bw :=
  (decRunLoop_induct (P := fun u => u.bw = s.bw)
    (fun u hu _ _ => by
      obtain ⟨-, -, -, -, -, hbw, -⟩ := decActiveStep_frame u
      exact hbw.trans hu) rfl h).1

/-- Every command but BW_CLEAR and SOFT_RESET at most appends values to the writer, from any state. -/
theorem exec_bw_writeList {i : Instr} {s t : State} (h : exec i s = .next t) (hc : i ≠ .bwClear)
    (hsr : i ≠ .softReset) : ∃ l, t.bw = s.bw.writeList l := by
  cases hf : s.fault with
  | true =>
    rw [exec_rejected hsr hf] at h
    cases h
    exact ⟨[], rfl⟩
  | false =>
    by_cases hr : i = .decRun
    · subst hr
      rcases exec_decRun_cases hf h with ⟨-, rfl⟩ | ⟨-, u, hu, rfl⟩
      · exact ⟨[], rfl⟩
      · exact ⟨[], (decRunLoop_bw hu :)⟩
    · rw [exec_clear hsr hr hf] at h
      cases h
      exact finish_commandBody_bw hc s

/-- What a writer meets with a capacity it meets without one. -/
theorem BitWriter.Inv.unbounded {cfg : Config} {w : BitWriter} (h : w.Inv cfg) : w.Inv Config.default :=
  { h with capacity := rfl }

/-- Settles O46: values are appended at the cursor, past the bits already written (R61). -/
theorem writtenBitsStay : Obligations.WrittenBitsStay := by
  intro i s t hbw h hc hsr
  obtain ⟨l, hl⟩ := exec_bw_writeList h hc hsr
  rw [hl]
  refine ⟨?_, fun p hp => hbw.unbounded.bit_writeList_of_lt rfl l hp⟩
  rw [BitWriter.writeList_bitpos]
  exact Nat.le_add_right _ _

end Sys2Proof.Machine
end

section
/-! The code sizes, the encoder's codes and the table reset of 41_lzw_table.md (R130, R133, R139, R145): which sequences
have a code and how large it is, and what ENC_PUSH does at the threshold; O27, O31 and O34. -/

namespace Sys2Proof.Machine

/-! ## The minimum code size (R130) -/

/-- The minimum code size is the least width of at least 2 that holds the colours. -/
theorem minCodeSizeOf_le_iff {cc w : Nat} : minCodeSizeOf cc ≤ w ↔ 2 ≤ w ∧ cc ≤ 2 ^ w := by
  rw [minCodeSizeOf, max_le_iff, ceilLog2_le_iff]

theorem minCodeSizeOf_eq_two {cc : Nat} (h : cc ≤ 4) : minCodeSizeOf cc = 2 :=
  le_antisymm (minCodeSizeOf_le_iff.2 ⟨le_rfl, h⟩) (two_le_minCodeSizeOf cc)

/-- Above 2 the size is `w + 1` for the colour counts that `w + 1` bits hold and `w` bits do not. -/
theorem minCodeSizeOf_eq_succ {cc w : Nat} (hw : 2 ≤ w) (hlt : 2 ^ w < cc) (hle : cc ≤ 2 ^ (w + 1)) :
    minCodeSizeOf cc = w + 1 := by
  refine le_antisymm (minCodeSizeOf_le_iff.2 ⟨Nat.le_succ_of_le hw, hle⟩) (Nat.succ_le_of_lt ?_)
  by_contra h
  exact absurd (minCodeSizeOf_le_iff.1 (Nat.le_of_not_lt h)).2 (Nat.not_le.2 hlt)

/-- Settles O27: the bounds of the least width, and one range of colour counts after another. -/
theorem minCodeSizeIsLeastWidth : Obligations.MinCodeSizeIsLeastWidth := by
  intro cc _ hcc
  refine ⟨two_le_minCodeSizeOf cc, le_two_pow_minCodeSizeOf cc, fun w h2 hw => minCodeSizeOf_le_iff.2 ⟨h2, hw⟩, ?_⟩
  split_ifs
  · exact minCodeSizeOf_eq_two ‹_›
  all_goals exact minCodeSizeOf_eq_succ (by omega) (by omega) (by omega)

/-! ## The encoder's codes (R133, R135, R139) -/

/-- The codes of ENC_TABLE are below the next free code (R135). -/
theorem Encoder.OpenInv.lt_count_of_mem {e : Encoder} (h : e.OpenInv) {k : List Nat} {c : Nat}
    (hm : (k, c) ∈ e.table) : c < e.count := by
  have hc : c ∈ e.table.map Prod.snd := List.mem_map_of_mem hm
  rw [h.codes, List.mem_range'_1] at hc
  have hcount := h.count.1
  omega

/-- So is the code of every sequence that has one. -/
theorem Encoder.OpenInv.codeOf_lt_count {e : Encoder} (h : e.OpenInv) {q : List Nat} (hq : e.HasCode q) :
    e.codeOf q < e.count := by
  rcases hq with ⟨i, rfl, hi⟩ | hk
  · rw [Encoder.codeOf_literal]
    have hcount := h.count.1
    omega
  · obtain ⟨⟨k, c⟩, hm, rfl⟩ := List.mem_map.1 hk
    rw [h.codeOf_of_mem hm]
    exact h.lt_count_of_mem hm

/-- The control codes fit the width a table reset leaves (R133, R136). -/
theorem Encoder.OpenInv.eoi_lt_first_width {e : Encoder} (h : e.OpenInv) :
    e.clear < 2 ^ (e.min + 1) ∧ e.eoi < 2 ^ (e.min + 1) := by
  have hp := clear_add_two_lt h.minRange.1
  rw [h.clear_eq, h.eoi_eq]
  omega

/-- Settles O34: a code is below the count, and the count is at most `2^ENC_CS` (R133). -/
theorem encoderCodesFitTheirWidth : Obligations.EncoderCodesFitTheirWidth := by
  intro s hs hne
  have he := hs.enc.opened hne
  obtain ⟨hclear, heoi⟩ := he.eoi_lt_first_width
  refine ⟨s.enc.codeOf_literal, fun k c hm => he.codeOf_of_mem hm, hclear, heoi,
    Nat.pow_le_pow_right (by omega) he.width.1, fun q hq => ?_, he.fits, fun _ => he.count.2⟩
  exact ⟨he.codeOf_lt hq, Nat.le_pred_of_lt (he.codeOf_lt_count hq)⟩

/-! ## ENC_PUSH at the threshold (R145, R153) -/

/-- Extending a nonempty buffer gives no one-index sequence, so the encoder knows it only as a key. -/
theorem Encoder.knows_extended_iff {e : Encoder} (hb : e.buf ≠ []) (i : Nat) :
    e.knows (e.buf ++ [i]) = true ↔ e.buf ++ [i] ∈ e.keys := by
  have hlen : (e.buf ++ [i]).length ≠ 1 := by simpa using hb
  rw [Encoder.knows_iff, or_iff_right hlen]

/-- With a new extended buffer and no code left to assign, ENC_PUSH takes the branch that resets the table. -/
theorem exec_encPush_threshold {s : State} {i : Nat} (hf : s.fault = false) (ha : s.enc.state = .active)
    (hi : i < s.enc.clear) (hb : s.enc.buf ≠ []) (hk : s.enc.buf ++ [i] ∉ s.enc.keys)
    (hc : encResetCount ≤ s.enc.count) : exec (.encPush i) s = .next (s.finish (encPushReset i s)) := by
  have hnew : ¬ s.enc.knows (s.enc.buf ++ [i]) = true := mt (Encoder.knows_extended_iff hb i).1 hk
  rw [exec_clear (by simp) (by simp) hf, commandBody, encPushBody, if_pos ha, if_pos hi, if_neg hnew, if_pos hc]

theorem finish_encPushReset_overflow {s : State} (hc : s.bwFits (2 * s.enc.cs) = false) (i : Nat) :
    s.finish (encPushReset i s) = s.raiseFault .overflow := by
  rw [encPushReset, if_neg (by simp [hc]), State.finish_fault]

theorem finish_encPushReset_fits {s : State} (hc : s.bwFits (2 * s.enc.cs) = true) (i : Nat) :
    s.finish (encPushReset i s) =
      ((s.setBw ((s.bw.writeBits (s.enc.codeOf s.enc.buf) s.enc.cs).writeBits s.enc.clear s.enc.cs)).setEnc
        { s.enc.tableReset with buf := [i] }).setLastResult .ok := by
  rw [encPushReset, if_pos hc, State.finish_done]

/-- Settles O31: at count 4095 the width is 12 (R133), so the two codes take 24 bits. -/
theorem encPushResetsAtThreshold : Obligations.EncPushResetsAtThreshold := by
  intro s i hf hbw henc ha hi hb hk hc
  have he : s.enc.OpenInv := henc.opened (by simp [ha])
  have hcs : s.enc.cs = 12 := (he.width_at_limit hc).1
  have hexec := exec_encPush_threshold hf ha hi hb hk hc
  refine ⟨hcs, fun k c hl => ?_, fun hcap => ?_, fun hcap => ?_⟩
  · have hlt := he.lt_count_of_mem (encLookup_mem hl)
    have hmax : s.enc.count ≤ 4095 := he.count.2
    omega
  · have hfull : s.bwFits (2 * s.enc.cs) = false := by rw [hcs]; exact hcap
    rw [hexec, finish_encPushReset_overflow hfull]
    rfl
  · have hfits : s.bwFits (2 * s.enc.cs) = true := by rw [hcs]; exact hcap
    have hw : (s.bw.writeBits (s.enc.codeOf s.enc.buf) 12).Inv s.cfg :=
      hbw.writeBits _ _ (withinCap_mono hcap (by simp only [ceilDiv_eight]; omega))
    refine ⟨_, _, hbw.appended _ 12, hw.appended _ 12, ?_⟩
    rw [hexec, finish_encPushReset_fits hfits, Encoder.tableReset, he.clear_eq, hcs]
    rfl

end Sys2Proof.Machine
end

section
/-! ENC_BEGIN and ENC_FINISH (42_lzw_encoder.md R150, R157): what each does, said once for each way it ends; O28 and
O33. -/

namespace Sys2Proof.Machine

/-! ## The session's encoder and its last width -/

theorem minCodeSizeOf_ne_zero (cc : Nat) : minCodeSizeOf cc ≠ 0 :=
  Nat.ne_of_gt (Nat.lt_of_lt_of_le Nat.two_pos (two_le_minCodeSizeOf cc))

/-- The encoder of a session just opened, field by field, whatever it was before (R150). -/
theorem Encoder.opened_eq (e : Encoder) (cc : Nat) : e.opened cc =
    { state := .active, colorCount := cc, min := minCodeSizeOf cc, cs := minCodeSizeOf cc + 1,
      count := 2 ^ minCodeSizeOf cc + 2, table := [], buf := [] } := by
  rw [Encoder.opened, Encoder.tableReset, Encoder.clear, clearCodeOf_eq (minCodeSizeOf_ne_zero cc)]

theorem Encoder.opened_clear (e : Encoder) (cc : Nat) : (e.opened cc).clear = 2 ^ minCodeSizeOf cc := by
  rw [Encoder.clear, Encoder.opened_eq, clearCodeOf_eq (minCodeSizeOf_ne_zero cc)]

/-- With an empty buffer the growth check of an open session does not fire (R157). -/
theorem Encoder.OpenInv.grownCs_of_buf_nil {e : Encoder} (h : e.OpenInv) (ha : e.state = .active) (hb : e.buf = []) :
    e.grownCs = e.cs := by
  obtain ⟨hcount, hcs⟩ := h.fresh ha hb
  have hlt := clear_add_two_lt h.minRange.1
  rw [Encoder.grownCs_eq, if_neg]
  rw [hcount, hcs, h.clear_eq]
  omega

theorem finishCs_eq (cfg : Config) (e : Encoder) : finishCs cfg e =
    if cfg.finishGrowth = true ∧ e.count = 2 ^ e.cs ∧ e.cs < 12 then e.cs + 1 else e.cs := by
  rw [finishCs, Encoder.grownCs_eq]
  cases cfg.finishGrowth <;> simp

theorem Encoder.OpenInv.finishCs_of_buf_nil {e : Encoder} (h : e.OpenInv) (ha : e.state = .active) (hb : e.buf = [])
    (cfg : Config) : finishCs cfg e = e.cs := by
  rw [finishCs, h.grownCs_of_buf_nil ha hb, ite_self]

/-- The final code is one write, of no bits where the buffer is empty (R157). -/
theorem writeFinalCode_eq_writeBits (e : Encoder) (w : BitWriter) :
    writeFinalCode e w = w.writeBits (e.codeOf e.buf) (if e.buf = [] then 0 else e.cs) := by
  rw [writeFinalCode]
  split_ifs
  · exact (BitWriter.writeBits_zero w _).symm
  · rfl

/-! ## The commands, one law for each way they end -/

section
variable {s : State} (hf : s.fault = false)
include hf

theorem exec_encBegin_colorCount {cc : Nat} (hcc : ¬ (1 ≤ cc ∧ cc ≤ 256)) :
    exec (.encBegin cc) s = .next (s.raiseFault .colorCount) := by
  rw [exec_clear (by simp) (by simp) hf, commandBody, encBeginBody, if_neg (mt colorCountInRange_iff.1 hcc),
    State.finish_fault]

theorem exec_encBegin_overflow {cc : Nat} (hcc : 1 ≤ cc ∧ cc ≤ 256) (hc : s.bwFits (minCodeSizeOf cc + 1) = false) :
    exec (.encBegin cc) s = .next (s.raiseFault .overflow) := by
  rw [exec_clear (by simp) (by simp) hf, commandBody, encBeginBody, if_pos (colorCountInRange_iff.2 hcc),
    if_neg (by simp [hc]), State.finish_fault]

theorem exec_encBegin_fits {cc : Nat} (hcc : 1 ≤ cc ∧ cc ≤ 256) (hc : s.bwFits (minCodeSizeOf cc + 1) = true) :
    exec (.encBegin cc) s = .next (((s.setEnc (s.enc.opened cc)).setBw
      (s.bw.writeBits (2 ^ minCodeSizeOf cc) (minCodeSizeOf cc + 1))).setLastResult .ok) := by
  rw [exec_clear (by simp) (by simp) hf, commandBody, encBeginBody, if_pos (colorCountInRange_iff.2 hcc), if_pos hc,
    State.finish_done, Encoder.opened_clear]
  rfl

theorem exec_encFinish_state (ha : s.enc.state ≠ .active) : exec .encFinish s = .next (s.raiseFault .state) := by
  rw [exec_clear (by simp) (by simp) hf, commandBody, encFinishBody, if_neg ha, State.finish_fault]

theorem exec_encFinish_overflow (ha : s.enc.state = .active)
    (hc : s.bwFits ((if s.enc.buf = [] then 0 else s.enc.cs) + finishCs s.cfg s.enc) = false) :
    exec .encFinish s = .next (s.raiseFault .overflow) := by
  rw [exec_clear (by simp) (by simp) hf, commandBody, encFinishBody, if_pos ha]
  dsimp only
  rw [if_neg (by simp [hc]), State.finish_fault]

theorem exec_encFinish_fits (ha : s.enc.state = .active)
    (hc : s.bwFits ((if s.enc.buf = [] then 0 else s.enc.cs) + finishCs s.cfg s.enc) = true) :
    exec .encFinish s = .next (((s.setBw
      ((writeFinalCode s.enc s.bw).writeBits s.enc.eoi (finishCs s.cfg s.enc))).setEnc
        { s.enc with cs := finishCs s.cfg s.enc, buf := [], state := .finished }).setLastResult .ok) := by
  rw [exec_clear (by simp) (by simp) hf, commandBody, encFinishBody, if_pos ha]
  dsimp only
  rw [if_pos hc, State.finish_done]

end

/-- Settles O28: the colour count is checked before the capacity (R150). -/
theorem encBeginOpensSession : Obligations.EncBeginOpensSession := by
  intro s cc hf hbw
  refine ⟨fun hcc => exec_encBegin_colorCount hf (by omega), ?_⟩
  rintro h1 h256 m rfl
  refine ⟨exec_encBegin_overflow hf ⟨h1, h256⟩, fun hfits => ?_⟩
  refine ⟨_, hbw.appended (2 ^ minCodeSizeOf cc) (minCodeSizeOf cc + 1), ?_⟩
  rw [exec_encBegin_fits hf ⟨h1, h256⟩ hfits, Encoder.opened_eq]
  rfl

/-- Settles O33: with an empty buffer the final code is a write of no bits, and the growth check does not fire. -/
theorem encFinishWritesFinalCodeAndEoi : Obligations.EncFinishWritesFinalCodeAndEoi := by
  intro s hf hbw henc
  refine ⟨exec_encFinish_state hf, fun ha b e hb he => ?_⟩
  have ho : s.enc.OpenInv := henc.opened (by simp [ha])
  rw [← finishCs_eq] at he
  subst hb he
  refine ⟨exec_encFinish_overflow hf ha, fun hfits => ?_⟩
  have hw : (writeFinalCode s.enc s.bw).Inv s.cfg := by
    rw [writeFinalCode_eq_writeBits]
    exact hbw.writeBits _ _ (withinCap_mono hfits (by simp only [ceilDiv_eight]; omega))
  refine ⟨writeFinalCode s.enc s.bw, (writeFinalCode s.enc s.bw).writeBits s.enc.eoi (finishCs s.cfg s.enc), ?_, ?_,
    ?_, ?_⟩
  · exact fun hnil => ⟨if_pos hnil, ho.finishCs_of_buf_nil ha hnil s.cfg⟩
  · rw [writeFinalCode_eq_writeBits]
    exact hbw.appended _ _
  · rw [← ho.eoi_eq]
    exact hw.appended _ _
  · rw [exec_encFinish_fits hf ha hfits]
    rfl

end Sys2Proof.Machine
end

section
/-! An encoder and a decoder session do not interact (42_lzw_encoder.md R164): a command of either depends only on its
own unit, its stream, the parameters and FAULT, and writes nothing of the other; O48. -/

namespace Sys2Proof.Machine

/-! ## The encoder's commands -/

/-- Two states agree on what the encoder reads: the parameters, the encoder and the writer. -/
structure State.EncAgree (s s' : State) : Prop where
  cfg : s'.cfg = s.cfg
  enc : s'.enc = s.enc
  bw : s'.bw = s.bw

/-- The end of an encoder command's pseudocode as what it decides: a fault, or a new encoder and a new writer. -/
def State.encEnding (s : State) : Except FaultCode (Encoder × BitWriter) → Ending
  | .ok (e, w) => .done ((s.setEnc e).setBw w)
  | .error f => .fault f

theorem State.EncAgree.bwFits {s s' : State} (h : s.EncAgree s') (n : Nat) : s'.bwFits n = s.bwFits n := by
  simp only [State.bwFits, h.cfg, h.bw]

theorem State.EncAgree.encBegin_ending {s s' : State} (h : s.EncAgree s') (cc : Nat) :
    ∃ r, encBeginBody cc s = s.encEnding r ∧ encBeginBody cc s' = s'.encEnding r := by
  simp only [encBeginBody, h.bwFits, h.enc, h.bw]
  split_ifs
  · exact ⟨.ok (_, _), rfl, rfl⟩
  · exact ⟨.error .overflow, rfl, rfl⟩
  · exact ⟨.error .colorCount, rfl, rfl⟩

theorem State.EncAgree.encPush_ending {s s' : State} (h : s.EncAgree s') (i : Nat) :
    ∃ r, encPushBody i s = s.encEnding r ∧ encPushBody i s' = s'.encEnding r := by
  simp only [encPushBody, encPushReset, encPushAdd, h.bwFits, h.enc, h.bw]
  split_ifs
  · exact ⟨.ok ({ s.enc with buf := s.enc.buf ++ [i] }, s.bw), rfl, by rw [State.encEnding, ← h.bw]; rfl⟩
  · exact ⟨.ok (_, _), rfl, rfl⟩
  · exact ⟨.error .overflow, rfl, rfl⟩
  · exact ⟨.ok (_, _), rfl, rfl⟩
  · exact ⟨.error .overflow, rfl, rfl⟩
  · exact ⟨.error .index, rfl, rfl⟩
  · exact ⟨.error .state, rfl, rfl⟩

theorem State.EncAgree.encFinish_ending {s s' : State} (h : s.EncAgree s') :
    ∃ r, encFinishBody s = s.encEnding r ∧ encFinishBody s' = s'.encEnding r := by
  simp only [encFinishBody, h.bwFits, h.cfg, h.enc, h.bw]
  generalize (if s.enc.buf = [] then 0 else s.enc.cs) = b
  split_ifs
  · exact ⟨.ok (_, _), rfl, rfl⟩
  · exact ⟨.error .overflow, rfl, rfl⟩
  · exact ⟨.error .state, rfl, rfl⟩

/-- An encoder command decides the same in two states that agree on what it reads. -/
theorem State.EncAgree.command_ending {s s' : State} (h : s.EncAgree s') {i : Instr}
    (hi : (∃ c, i = .encBegin c) ∨ (∃ k, i = .encPush k) ∨ i = .encFinish) :
    ∃ r, commandBody i s = s.encEnding r ∧ commandBody i s' = s'.encEnding r := by
  obtain ⟨c, rfl⟩ | ⟨k, rfl⟩ | rfl := hi
  · exact h.encBegin_ending c
  · exact h.encPush_ending k
  · exact h.encFinish_ending

/-! ## The decoder's commands -/

/-- DEC_BEGIN keeps the agreement on what the decoder reads. -/
theorem State.DecAgree.finish_decBeginBody {s s' : State} (h : s.DecAgree s') (m : Nat) :
    (s.finish (decBeginBody m s)).DecAgree (s'.finish (decBeginBody m s')) ∧
      (s'.finish (decBeginBody m s')).lastResult = (s.finish (decBeginBody m s)).lastResult := by
  obtain ⟨hc, hfault, hd, hb, ho, -⟩ := h
  simp only [decBeginBody, hd]
  split_ifs
  · exact ⟨⟨hc, hfault, rfl, hb, ho, fun _ => rfl⟩, rfl⟩
  · exact ⟨⟨hc, hfault, by simp [hd], hb, ho, fun _ => rfl⟩, rfl⟩

/-- So does DEC_STEP, in every decoder state. -/
theorem State.DecAgree.finish_decStepBody {s s' : State} (h : s.DecAgree s') :
    (s.finish (decStepBody s)).DecAgree (s'.finish (decStepBody s')) ∧
      (s'.finish (decStepBody s')).lastResult = (s.finish (decStepBody s)).lastResult := by
  have hstep := h.step
  obtain ⟨hc, hfault, hd, hb, ho, -⟩ := h
  simp only [decStepBody, hd]
  cases s.dec.state with
  | idle => exact ⟨⟨hc, rfl, hd, hb, ho, fun _ => rfl⟩, rfl⟩
  | done => exact ⟨⟨hc, hfault, hd, hb, ho, fun _ => rfl⟩, rfl⟩
  | error => exact ⟨⟨hc, hfault, hd, hb, ho, fun _ => rfl⟩, rfl⟩
  | active => exact hstep

theorem State.DecAgree.exec_decRun {s s' t : State} (h : s.DecAgree s') (hf : s.fault = false)
    (ht : exec .decRun s = .next t) :
    ∃ t', exec .decRun s' = .next t' ∧ t.DecAgree t' ∧ t'.lastResult = t.lastResult := by
  have hf' : s'.fault = false := h.fault.trans hf
  rcases exec_decRun_cases hf ht with ⟨hidle, rfl⟩ | ⟨hopen, u, hu, rfl⟩
  · rw [← h.dec] at hidle
    exact ⟨_, exec_decRun_idle hf' hidle, ⟨h.cfg, rfl, h.dec, h.br, h.out, fun _ => rfl⟩, rfl⟩
  · obtain ⟨u', hu', ha⟩ := h.decRunLoop hu
    have hres := ha.decRunResult
    refine ⟨_, exec_decRun_eq hf' (by rwa [h.dec]) (n := s.decRunFuel) ?_ hu',
      ⟨ha.cfg, ha.fault, ha.dec, ha.br, ha.out, fun _ => hres⟩, hres⟩
    rw [State.decRunFuel, State.decRunFuel, h.br]

/-- A decoder command ends in agreement, in two states that agree on what it reads. -/
theorem State.DecAgree.exec_decoder {s s' t : State} (h : s.DecAgree s') (hf : s.fault = false) {i : Instr}
    (hi : (∃ m, i = .decBegin m) ∨ i = .decStep ∨ i = .decRun) (ht : exec i s = .next t) :
    ∃ t', exec i s' = .next t' ∧ t.DecAgree t' ∧ t'.lastResult = t.lastResult := by
  have hf' : s'.fault = false := h.fault.trans hf
  obtain ⟨m, rfl⟩ | rfl | rfl := hi
  · rw [exec_clear (by simp) (by simp) hf] at ht
    cases ht
    exact ⟨_, exec_clear (by simp) (by simp) hf', h.finish_decBeginBody m⟩
  · rw [exec_clear (by simp) (by simp) hf] at ht
    cases ht
    exact ⟨_, exec_clear (by simp) (by simp) hf', h.finish_decStepBody⟩
  · exact h.exec_decRun hf ht

theorem decRunLoop_enc {n : Nat} {s t : State} (h : decRunLoop n s = some t) : t.enc = s.enc :=
  (decRunLoop_induct (P := fun u => u.enc = s.enc)
    (fun u hu _ _ => by
      obtain ⟨-, -, -, -, -, -, henc, -⟩ := decActiveStep_frame u
      exact henc.trans hu) rfl h).1

/-- A decoder command leaves the encoder and the writer alone. -/
theorem exec_decoder_enc_bw {s t : State} (hf : s.fault = false) {i : Instr}
    (hi : (∃ m, i = .decBegin m) ∨ i = .decStep ∨ i = .decRun) (ht : exec i s = .next t) :
    t.enc = s.enc ∧ t.bw = s.bw := by
  obtain ⟨m, rfl⟩ | rfl | rfl := hi
  · rw [exec_clear (by simp) (by simp) hf, commandBody, decBeginBody] at ht
    cases ht
    split_ifs <;> exact ⟨rfl, rfl⟩
  · rw [exec_clear (by simp) (by simp) hf, commandBody, decStepBody] at ht
    cases ht
    cases s.dec.state with
    | active =>
      obtain ⟨-, -, -, -, -, hbw, henc, -⟩ := decActiveStep_frame s
      exact ⟨henc, hbw⟩
    | _ => exact ⟨rfl, rfl⟩
  · rcases exec_decRun_cases hf ht with ⟨-, rfl⟩ | ⟨-, u, hu, rfl⟩
    · exact ⟨rfl, rfl⟩
    · exact ⟨(decRunLoop_enc hu :), (decRunLoop_bw hu :)⟩

/-! ## Noninterference -/

/-- Settles O48: with a fault pending both directions are the rejection, which touches no unit (R214). -/
theorem encoderAndDecoderDoNotInteract : Obligations.EncoderAndDecoderDoNotInteract := by
  refine ⟨fun i s s' t hi hc hfault he hw ht => ?_, fun i s s' t hi hc hfault hd hb ho ht => ?_⟩
  · have hsr : i ≠ .softReset := by rintro rfl; simp at hi
    have hr : i ≠ .decRun := by rintro rfl; simp at hi
    cases hf : s.fault with
    | true =>
      rw [exec_rejected hsr hf] at ht
      cases ht
      exact ⟨rfl, rfl, rfl, _, exec_rejected hsr (hfault.trans hf), he, hw, hfault, rfl⟩
    | false =>
      obtain ⟨r, hs, hs'⟩ := State.EncAgree.command_ending ⟨hc, he, hw⟩ hi
      have ht' := exec_clear hsr hr (hfault.trans hf)
      rw [exec_clear hsr hr hf, hs] at ht
      rw [hs'] at ht'
      cases ht
      cases r with
      | ok r => exact ⟨rfl, rfl, rfl, _, ht', rfl, rfl, hfault, rfl⟩
      | error f => exact ⟨rfl, rfl, rfl, _, ht', he, hw, rfl, rfl⟩
  · have hsr : i ≠ .softReset := by rintro rfl; simp at hi
    cases hf : s.fault with
    | true =>
      rw [exec_rejected hsr hf] at ht
      cases ht
      exact ⟨rfl, rfl, _, exec_rejected hsr (hfault.trans hf), hd, hb, ho, hfault, rfl⟩
    | false =>
      have h : s.DecAgree s' := ⟨hc, hfault, hd, hb, ho, fun h => by simp [hf] at h⟩
      obtain ⟨henc, hbw⟩ := exec_decoder_enc_bw hf hi ht
      obtain ⟨t', ht', ha, hres⟩ := h.exec_decoder hf hi ht
      exact ⟨henc, hbw, t', ht', ha.dec, ha.br, ha.out, ha.fault, hres⟩

end Sys2Proof.Machine
end

section
/-! The LZW inverse law (42_lzw_encoder.md R162): the codes a session writes, after its clear code, keep a decoder just
opened in step with the encoder; O60. -/

namespace Sys2Proof.Machine

/-! ## The commands around the two sessions -/

theorem execAll_cons_of_next {i : Instr} {s t : State} (h : exec i s = .next t) (l : List Instr) :
    execAll (i :: l) s = execAll l t := by
  rw [execAll, h]

section
variable {s : State} (hf : s.fault = false)
include hf

theorem exec_outClear : exec .outClear s = .next ((s.setOut Memory.empty).setLastResult .ok) :=
  exec_clear (by simp) (by simp) hf

theorem exec_decBegin_inRange {m : Nat} (hm : 2 ≤ m ∧ m ≤ 8) :
    exec (.decBegin m) s = .next ((s.setDec (s.dec.opened m)).setLastResult .ok) := by
  rw [exec_clear (by simp) (by simp) hf, commandBody, decBeginBody, if_pos (minCodeSizeInRange_iff.2 hm),
    State.finish_done]

/-- Under the invariant DEC_RUN ends as its loop does, with however much fuel the loop was seen to end. -/
theorem exec_decRun_of_decRunLoop {u : State} (ho : s.dec.state ≠ .idle) (hi : s.RunInv) {n : Nat}
    (hu : decRunLoop n s = some u) : exec .decRun s = .next (u.setLastResult u.decRunResult) := by
  obtain ⟨v, hv⟩ := decRunLoop_decRunFuel hi
  have heq : some v = some u :=
    (decRunLoop_mono (le_max_left s.decRunFuel n) hv).symm.trans (decRunLoop_mono (le_max_right s.decRunFuel n) hu)
  rw [exec_decRun_eq hf ho le_rfl (hv.trans heq)]

end

/-! ## The encoder's stream -/

/-- The codes of a whole session, with their widths: the clear code first (R160). -/
def sessionCodes (e : Encoder) (is : List Nat) : List (Nat × Nat) := (e.cs, e.clear) :: e.codesOf is

/-- BW_CLEAR and a session leave its codes in the writer, and nothing else (R160). -/
theorem execAll_bwClear_session {s : State} {cc : Nat} {is : List Nat} (hf : s.fault = false)
    (hg : s.cfg.finishGrowth = true) (hb : s.cfg.bwCap = none) (hcc : 1 ≤ cc ∧ cc ≤ 256)
    (his : ∀ i ∈ is, i < 2 ^ minCodeSizeOf cc) :
    ∃ u, execAll (.bwClear :: .encBegin cc :: (is.map .encPush ++ [.encFinish])) s = some u ∧ u.fault = false ∧
      u.cfg = s.cfg ∧ u.bw = BitWriter.reset.writeList (sessionCodes (s.enc.opened cc) is) := by
  have hbegin := exec_encBegin_fits (s := (s.setBw BitWriter.reset).setLastResult .ok) hf hcc
    (show withinCap s.cfg.bwCap _ = true by rw [hb]; rfl)
  rw [execAll_cons_of_next (exec_bwClear hf), execAll_cons_of_next hbegin]
  have hclear := s.enc.opened_clear cc
  obtain ⟨u, hu, huf, huc, huw⟩ := encoder_run is
    (s := ((((s.setBw BitWriter.reset).setLastResult .ok).setEnc (s.enc.opened cc)).setBw
      (BitWriter.reset.writeBits (2 ^ minCodeSizeOf cc) (minCodeSizeOf cc + 1))).setLastResult .ok)
    hf hg hb (s.enc.openInv_opened hcc.1 hcc.2) rfl (fun i hi => hclear ▸ his i hi)
  refine ⟨u, hu, huf, huc, ?_⟩
  rw [huw, sessionCodes, hclear]
  rfl

/-! ## The decoder on that stream -/

/-- An encoder and a decoder just opened with the same code size are in step. -/
theorem Sync.opened (e : Encoder) (d : Decoder) (cc : Nat) : Sync (e.opened cc) (d.opened (minCodeSizeOf cc)) where
  min := rfl
  cs := rfl
  tables := .inl ⟨rfl, rfl, rfl, rfl, rfl, rfl⟩

theorem Decoder.openInv_opened (d : Decoder) {m : Nat} (hm : 2 ≤ m ∧ m ≤ 8) : (d.opened m).OpenInv :=
  Decoder.openInv_tableReset (d := { d with min := m }) hm.1 hm.2 _ _ _

/-- A clear code leaves a decoder just opened as it is (R136). -/
theorem Decoder.opened_tableReset (d : Decoder) (m : Nat) :
    { (d.opened m).tableReset with prev := PrevCode.invalid } = d.opened m := rfl

/-- A decoder just opened, before the codes of a session, ends DONE having appended the session's indices (R182). -/
theorem decRunLoop_sessionCodes {s : State} {cc : Nat} {is : List Nat} (e : Encoder) (d : Decoder)
    (hf : s.fault = false) (ho : s.cfg.outCap = none) (hcc : 1 ≤ cc ∧ cc ≤ 256) (hd : s.dec = d.opened (minCodeSizeOf cc))
    (his : ∀ i ∈ is, i < 2 ^ minCodeSizeOf cc)
    (hv : s.br.mem.HasVals s.br.bitpos (sessionCodes (e.opened cc) is)) :
    ∃ n u, decRunLoop n s = some u ∧ u.fault = false ∧ u.dec.state = .done ∧ u.out = s.out.appendIndices is := by
  have he : (e.opened cc).OpenInv := e.openInv_opened hcc.1 hcc.2
  have hopen : s.dec.OpenInv := hd ▸ d.openInv_opened ⟨two_le_minCodeSizeOf cc, minCodeSizeOf_le hcc.2⟩
  have hsync : Sync (e.opened cc) s.dec := hd ▸ Sync.opened e d cc
  have hact : s.dec.state = .active := hd ▸ rfl
  have hclear : s.dec.clear = (e.opened cc).clear := hd ▸ rfl
  obtain ⟨t, ht, hcons, hdec⟩ := decActiveStep_clear (l := (e.opened cc).codesOf is) hsync.cs
    (hclear ▸ he.eoi_lt.2) (by rw [hclear]; exact hv)
  have hsame : t.dec = s.dec := by rw [hdec, hd, Decoder.opened_tableReset]
  have hrest : t.br.mem.HasVals t.br.bitpos ((e.opened cc).codesOf is) := by
    rw [hcons.mem, hcons.pos]
    exact hv.2
  obtain ⟨n, u, hu, huf, hdone, hout⟩ := Sync.run is he rfl (hcons.fault.trans hf) (hsame ▸ hact)
    (hcons.cfg ▸ ho) (hsame ▸ hopen) (hsame ▸ hsync) (fun _ => ⟨rfl, rfl⟩)
    (fun i hi => e.opened_clear cc ▸ his i hi) hrest
  refine ⟨n + 1, u, ?_, huf, hdone, ?_⟩
  · rw [decRunLoop_succ ⟨hact, hf⟩, ht, hu]
  · rw [hout, hcons.out]
    rfl

/-- The state in which a decoder just opened is about to read the writer's bytes into an empty OUT_MEM. -/
def State.decoderAtHead (s : State) (m : Nat) : State :=
  (((s.setBr { mem := s.bw.mem, bitpos := 0 }).setOut Memory.empty).setDec (s.dec.opened m)).setLastResult .ok

theorem execAll_decoderAtHead {s : State} {m : Nat} (hf : s.fault = false) (hb : s.cfg.brCap = none)
    (hm : 2 ≤ m ∧ m ≤ 8) (l : List Instr) :
    execAll (.brAtHead :: .outClear :: .decBegin m :: l) s = execAll l (s.decoderAtHead m) := by
  have hclear := exec_outClear (s := (s.setBr { mem := s.bw.mem, bitpos := 0 }).setLastResult .ok) hf
  have hbegin := exec_decBegin_inRange
    (s := (((s.setBr { mem := s.bw.mem, bitpos := 0 }).setLastResult .ok).setOut Memory.empty).setLastResult .ok) hf hm
  rw [execAll_cons_of_next (exec_brAtHead_fits hf (by rw [hb]; rfl)), execAll_cons_of_next hclear,
    execAll_cons_of_next hbegin]
  rfl

theorem State.decoderAtHead_runInv {s : State} {m : Nat} (hb : s.cfg.brCap = none) (hw : s.bw.mem.wf = true)
    (hm : 2 ≤ m ∧ m ≤ 8) : (s.decoderAtHead m).RunInv where
  dec := s.dec.inv_opened hm.1 hm.2
  br := BitReader.inv_atHead hw (show withinCap s.cfg.brCap _ = true by rw [hb]; rfl)
  out := outInv_empty _

/-- BR_AT_HEAD and the decoding commands, where the writer holds a session's codes, give its indices back. -/
theorem execAll_decode_session {s : State} {cc : Nat} {is : List Nat} (e : Encoder) (hf : s.fault = false)
    (hb : s.cfg.brCap = none) (ho : s.cfg.outCap = none) (hcc : 1 ≤ cc ∧ cc ≤ 256)
    (his : ∀ i ∈ is, i < 2 ^ minCodeSizeOf cc)
    (hw : s.bw = BitWriter.reset.writeList (sessionCodes (e.opened cc) is)) :
    ∃ t, execAll [.brAtHead, .outClear, .decBegin (minCodeSizeOf cc), .decRun] s = some t ∧ t.fault = false ∧
      t.dec.state = .done ∧ t.out.toList = is.map (BitVec.ofNat 8) := by
  have hm : 2 ≤ minCodeSizeOf cc ∧ minCodeSizeOf cc ≤ 8 := ⟨two_le_minCodeSizeOf cc, minCodeSizeOf_le hcc.2⟩
  have hwf : s.bw.mem.wf = true := by
    rw [hw]
    exact ((BitWriter.inv_empty Config.default).writeList rfl _).canonical
  have hvals : s.bw.mem.HasVals 0 (sessionCodes (e.opened cc) is) := by
    rw [hw]
    exact (BitWriter.writeList_reset _).2
  obtain ⟨n, u, hu, huf, hdone, hout⟩ :=
    decRunLoop_sessionCodes (s := s.decoderAtHead (minCodeSizeOf cc)) e s.dec hf ho hcc rfl his hvals
  have hrun := exec_decRun_of_decRunLoop (s := s.decoderAtHead (minCodeSizeOf cc)) hf (fun h => by cases h)
    (State.decoderAtHead_runInv hb hwf hm) hu
  refine ⟨_, (execAll_decoderAtHead hf hb hm _).trans (execAll_cons_of_next hrun []), huf, hdone, ?_⟩
  rw [State.setLastResult_out, hout]
  exact Memory.toList_appendIndices is

/-- Settles O60: the encoder's session leaves its codes in the writer, and the decoder's reads them back. -/
theorem lzwInverseLaw : Obligations.LzwInverseLaw := by
  intro s cc is hf hg hbw hbr hout h1 h256 his
  obtain ⟨u, hu, huf, huc, huw⟩ := execAll_bwClear_session hf hg hbw ⟨h1, h256⟩ his
  obtain ⟨t, ht, htf, hdone, htout⟩ := execAll_decode_session s.enc huf (huc ▸ hbr) (huc ▸ hout) ⟨h1, h256⟩ his huw
  refine ⟨t, ?_, htf, hdone, htout⟩
  calc
    _ = execAll ((.bwClear :: .encBegin cc :: (is.map .encPush ++ [.encFinish])) ++
          [.brAtHead, .outClear, .decBegin (minCodeSizeOf cc), .decRun]) s := by simp [minCodeSizeOf]
    _ = some t := by rw [execAll_append, hu, Option.bind_some, ht]

end Sys2Proof.Machine
end

section
/-! DEC_BEGIN and DEC_RUN (43_lzw_decoder.md R170, R178, R180): the session DEC_BEGIN opens, DEC_RUN one DEC_STEP at a
time, and the bound on its steps; O35, O41 and O42. -/

namespace Sys2Proof.Machine

/-! ## DEC_BEGIN (R170) -/

/-- The decoder of a session just opened, field by field, whatever it was before. -/
theorem Decoder.opened_eq (d : Decoder) {m : Nat} (hm : m ≠ 0) : d.opened m =
    { state := .active, err := .ok, min := m, cs := m + 1, count := 2 ^ m + 2, table := [],
      prev := PrevCode.invalid } := by
  rw [Decoder.opened, Decoder.tableReset, Decoder.clear, clearCodeOf_eq hm]

theorem exec_decBegin_outOfRange {s : State} (hf : s.fault = false) {m : Nat} (hm : ¬ (2 ≤ m ∧ m ≤ 8)) :
    exec (.decBegin m) s = .next (s.raiseDecodeError .minCodeSize) := by
  rw [exec_clear (by simp) (by simp) hf, commandBody, decBeginBody, if_neg (mt minCodeSizeInRange_iff.1 hm),
    State.finish_decodeError]

/-- Settles O35: the range check decides between the opened session and the held error. -/
theorem decBeginOpensSession : Obligations.DecBeginOpensSession := by
  intro s m hf
  refine ⟨fun hm => ?_, fun hm => exec_decBegin_outOfRange hf (by omega)⟩
  rw [exec_decBegin_inRange hf hm, Decoder.opened_eq s.dec (by omega)]
  rfl

/-! ## How DEC_RUN ends (R178) -/

/-- After a step that faulted LAST_RESULT stays the fault's code. -/
theorem State.setLastResult_decRunResult_of_fault {u : State} (h : u.fault = true) :
    u.setLastResult u.decRunResult = u := by
  rw [State.decRunResult, if_pos h]
  rfl

theorem State.decRunResult_of_error {u : State} (hf : u.fault = false) (h : u.dec.state = .error) :
    u.decRunResult = u.dec.err := by
  rw [State.decRunResult, if_neg (by simp [hf]), if_pos h]

theorem State.decRunResult_of_no_error {u : State} (hf : u.fault = false) (h : u.dec.state ≠ .error) :
    u.decRunResult = .ok := by
  rw [State.decRunResult, if_neg (by simp [hf]), if_neg h]

theorem State.Inv.runInv {s : State} (h : s.Inv) : s.RunInv := ⟨h.dec, h.br, h.out⟩

/-- Where the session is over DEC_RUN takes no step. -/
theorem exec_decRun_over {s : State} (hf : s.fault = false) (hidle : s.dec.state ≠ .idle)
    (hact : s.dec.state ≠ .active) : exec .decRun s = .next (s.setLastResult s.decRunResult) :=
  exec_decRun_eq hf hidle (Nat.zero_le _) (decRunLoop_stop (fun h => hact h.1) 0)

/-! ## DEC_RUN step by step (R178) -/

section
variable {s : State} (hi : s.RunInv) (hf : s.fault = false) (ha : s.dec.state = .active)
include hi hf ha

/-- Where the first step faults, DEC_RUN is that step. -/
theorem exec_decRun_of_step_fault (ht : (s.finish (decActiveStep s)).fault = true) :
    exec .decRun s = .next (s.finish (decActiveStep s)) := by
  have hloop : decRunLoop 1 s = some (s.finish (decActiveStep s)) := by
    rw [decRunLoop_succ ⟨ha, hf⟩, decRunLoop_stop (by simp [ht])]
  rw [exec_decRun_of_decRunLoop hf (by simp [ha]) hi hloop, State.setLastResult_decRunResult_of_fault ht]

/-- Where it does not, DEC_RUN goes on from the state after it. -/
theorem exec_decRun_of_step_clear (ht : (s.finish (decActiveStep s)).fault = false) :
    exec .decRun s = exec .decRun (s.finish (decActiveStep s)) := by
  have hi' := hi.step ha
  obtain ⟨u, hu⟩ := decRunLoop_decRunFuel hi'
  have hloop := (decRunLoop_succ ⟨ha, hf⟩ _).trans hu
  rw [exec_decRun_of_decRunLoop hf (by simp [ha]) hi hloop,
    exec_decRun_of_decRunLoop ht (decActiveStep_not_idle ha) hi' hu]

end

/-- Settles O41. -/
theorem decRunRepeatsDecStep : Obligations.DecRunRepeatsDecStep := by
  intro s hs hf
  refine ⟨exec_decRun_idle hf, fun hd => ?_, fun he => ?_, fun ha => ?_⟩
  · rw [exec_decRun_over hf (by simp [hd]) (by simp [hd]), State.decRunResult_of_no_error hf (by simp [hd])]
    rfl
  · rw [exec_decRun_over hf (by simp [he]) (by simp [he]), State.decRunResult_of_error hf he]
    rfl
  · exact ⟨_, exec_decStep_active hf ha, exec_decRun_of_step_clear hs.runInv hf ha,
      exec_decRun_of_step_fault hs.runInv hf ha⟩

/-! ## The bound on DEC_RUN's steps (R180) -/

/-- No step but the last of a run can end the session, so all the others consume at least 3 bits each; the last one
does so too where the session is still ACTIVE after it. -/
theorem DecSteps.length_le {n : Nat} {s u : State} (h : DecSteps n s u) (hi : s.RunInv) (hf : s.fault = false) :
    n ≤ (8 * s.br.mem.len - s.br.bitpos) / 3 + if u.dec.state = .active then 0 else 1 := by
  induction h with
  | refl => exact Nat.zero_le _
  | @step n s t u ha hstep htf hrest ih =>
    rw [exec_decStep_active hf ha] at hstep
    cases hstep
    by_cases hta : (s.finish (decActiveStep s)).dec.state = .active
    · have hrem := ih (hi.step ha) htf
      obtain ⟨hpos, hle⟩ := decActiveStep_consumes ⟨hta, htf⟩
      obtain ⟨-, -, -, -, -, -, -, hmem⟩ := decActiveStep_frame s
      have hcs := hi.dec.three_le_cs ha
      rw [hmem, hpos] at hrem
      omega
    · cases hrest with
      | refl => rw [if_neg hta]; omega
      | step hta' => exact absurd hta' hta

theorem decRunLoop_not_active {n : Nat} {s u : State} (h : decRunLoop n s = some u) (hu : u.fault = false) :
    u.dec.state ≠ .active := fun ha =>
  (decRunLoop_induct (P := fun _ => True) (fun _ _ _ _ => trivial) trivial h).2 ⟨ha, hu⟩

theorem decRunLoop_not_idle {n : Nat} {s u : State} (hs : s.dec.state ≠ .idle) (h : decRunLoop n s = some u) :
    u.dec.state ≠ .idle :=
  (decRunLoop_induct (P := fun v => v.dec.state ≠ .idle) (fun _ _ ha _ => decActiveStep_not_idle ha) hs h).1

/-- The one fault of a step of an active session is F_OVERFLOW (R173). -/
theorem decActiveStep_fault_of_unbounded {s : State} (hc : s.cfg.outCap = none) :
    (s.finish (decActiveStep s)).fault = s.fault := by
  rcases decActiveStep_cases s with ⟨-, h⟩ | ⟨c, -,
      ⟨-, h⟩ | ⟨-, -, h⟩ | ⟨-, -, ⟨e, -, h⟩ | ⟨seq, new, -, ⟨-, h⟩ | ⟨hover, -⟩⟩⟩⟩
  case inr.inr.inr.inr.inr => simp [hc] at hover
  all_goals rw [h]; rfl

theorem decRunLoop_fault_of_unbounded {n : Nat} {s u : State} (hc : s.cfg.outCap = none) (hf : s.fault = false)
    (h : decRunLoop n s = some u) : u.fault = false :=
  (decRunLoop_induct (P := fun v => v.cfg.outCap = none ∧ v.fault = false)
    (fun v ⟨hcap, hclear⟩ _ _ => by
      obtain ⟨hcfg, -⟩ := decActiveStep_frame v
      exact ⟨hcfg ▸ hcap, (decActiveStep_fault_of_unbounded hcap).trans hclear⟩) ⟨hc, hf⟩ h).1.2

/-- Settles O42: the loop's end is a run of DEC_STEPs, which the bits that remain bound. -/
theorem decRunTerminates : Obligations.DecRunTerminates := by
  refine ⟨fun s t hs hf ha hstep htf hta => ?_, fun s hs hf ho => ?_⟩
  · rw [exec_decStep_active hf ha] at hstep
    cases hstep
    obtain ⟨hpos, hle⟩ := decActiveStep_consumes ⟨hta, htf⟩
    exact ⟨hs.dec.three_le_cs ha, hpos, hpos ▸ hle⟩
  · obtain ⟨u, hu⟩ := decRunLoop_decRunFuel hs.runInv
    have hrun := exec_decRun_of_decRunLoop hf ho hs.runInv hu
    have hunbounded := fun hc => decRunLoop_fault_of_unbounded hc hf hu
    rcases decSteps_of_decRunLoop hf hu with ⟨k, hk, huf⟩ | ⟨k, v, f, hk, hva, -, hstep, rfl⟩
    · have hlen := hk.length_le hs.runInv hf
      rw [if_neg (decRunLoop_not_active hu huf)] at hlen
      refine ⟨k, u, _, hk, hrun, hunbounded, ?_⟩
      cases hst : u.dec.state with
      | idle => exact absurd hst (decRunLoop_not_idle ho hu)
      | active => exact absurd hst (decRunLoop_not_active hu huf)
      | done =>
        rw [State.decRunResult_of_no_error huf (by simp [hst])]
        exact .inl ⟨rfl, rfl, hlen⟩
      | error =>
        rw [State.decRunResult_of_error huf hst]
        exact .inr (.inl ⟨rfl, rfl, hlen⟩)
    · have hlen := hk.length_le hs.runInv hf
      rw [if_pos hva] at hlen
      rw [State.setLastResult_decRunResult_of_fault rfl] at hrun
      exact ⟨k, v, _, hk, hrun, hunbounded, .inr (.inr ⟨hva, hstep, rfl, Nat.succ_le_succ hlen⟩)⟩

end Sys2Proof.Machine
end

section
/-! What the decoder emits (43_lzw_decoder.md R181, 41_lzw_table.md R140): the sequence of each code, that every command
keeps the invariant, which holds no E_EMPTY_SEQUENCE, and that a step or a run appends indices below the clear code;
O43. -/

namespace Sys2Proof.Machine

/-! ## The sequence of each code (R140) -/

theorem Decoder.seqOf_literal {d : Decoder} {c : Nat} (h : c < d.clear) : d.seqOf c = some [c] := if_pos h

/-- The two control codes and the codes from the count on have no sequence. -/
theorem Decoder.seqOf_eq_none {d : Decoder} {c : Nat} (h : d.clear ≤ c) (hc : c < d.clear + 2 ∨ d.count ≤ c) :
    d.seqOf c = none := by
  rw [Decoder.seqOf, if_neg (by omega), if_neg (by omega)]

/-- From the clear code on a sequence is an entry's, so of length at least 2 (R137). -/
theorem Decoder.OpenInv.two_le_length_seqOf {d : Decoder} (h : d.OpenInv) {c : Nat} {q : List Nat} (hc : d.clear ≤ c)
    (hq : d.seqOf c = some q) : 2 ≤ q.length := by
  rw [Decoder.seqOf, if_neg (by omega)] at hq
  split at hq
  · exact h.long _ (decLookup_mem hq)
  · cases hq

theorem Decoder.OpenInv.clear_le {d : Decoder} (h : d.OpenInv) : d.clear ≤ 256 := by
  rw [h.clear_eq]
  exact Nat.pow_le_pow_right (n := 2) (j := 8) (by omega) h.minRange.2

/-- Before a successful DEC_BEGIN no code has a sequence. -/
theorem Decoder.Inv.unopened_tables {d : Decoder} (h : d.Inv) (h0 : d.min = 0) :
    d.clear = 0 ∧ d.count = 0 ∧ d.table = [] ∧ ∀ c, d.seqOf c = none := by
  obtain ⟨-, -, hcount, htable, -⟩ := h.unopened h0
  have hclear : d.clear = 0 := by rw [Decoder.clear, h0, clearCodeOf_zero]
  exact ⟨hclear, hcount, htable, fun c => Decoder.seqOf_eq_none (by omega) (by omega)⟩

/-! ## Every command keeps the invariant -/

theorem State.inv_softReset (s : State) : s.softReset.Inv where
  part := trivial
  faults := { pending := fun h => (by cases h), clear := fun _ => ⟨rfl, .inl rfl⟩ }
  bw := BitWriter.inv_empty _
  br := BitReader.inv_empty _
  out := outInv_empty _
  enc := Encoder.inv_reset
  dec := Decoder.inv_reset

/-- The LAST_RESULT DEC_RUN leaves agrees with the fault registers and is no E_EMPTY_SEQUENCE (R178). -/
theorem State.Inv.setDecRunResult {s : State} (h : s.Inv) : (s.setLastResult s.decRunResult).Inv where
  part := h.part
  faults := by
    cases hf : s.fault with
    | true =>
      rw [State.setLastResult_decRunResult_of_fault hf]
      exact h.faults
    | false =>
      by_cases he : s.dec.state = .error
      · obtain ⟨e, hne, herr⟩ := h.dec.errorCode he
        rw [State.decRunResult_of_error hf he, herr]
        exact State.FaultInv.error hf h.faults e hne s rfl rfl
      · rw [State.decRunResult_of_no_error hf he]
        exact h.faults.done hf s rfl rfl
  bw := h.bw
  br := h.br
  out := h.out
  enc := h.enc
  dec := h.dec

theorem decRunLoop_inv {n : Nat} {s u : State} (hs : s.Inv) (h : decRunLoop n s = some u) : u.Inv :=
  (decRunLoop_induct (fun _ hv ha hf => decActiveStep_stateInv hv hf ha) hs h).1

theorem exec_inv {i : Instr} {s t : State} (hs : s.Inv) (h : exec i s = .next t) : t.Inv := by
  by_cases hsr : i = .softReset
  · subst hsr
    cases h
    exact s.inv_softReset
  cases hf : s.fault with
  | true =>
    rw [exec_rejected hsr hf] at h
    cases h
    exact hs.reject hf
  | false =>
    by_cases hr : i = .decRun
    · subst hr
      rcases exec_decRun_cases hf h with ⟨-, rfl⟩ | ⟨-, u, hu, rfl⟩
      · exact hs.raiseFault _
      · exact (decRunLoop_inv hs hu).setDecRunResult
    · rw [exec_clear hsr hr hf] at h
      cases h
      exact commandBody_inv hs hf i hsr hr

/-- Neither LAST_RESULT nor DEC_ERR is ever E_EMPTY_SEQUENCE (R181). -/
theorem State.Inv.no_emptySequence {s : State} (h : s.Inv) :
    s.lastResult ≠ .error .emptySequence ∧ s.dec.err ≠ .error .emptySequence := by
  constructor
  · cases hf : s.fault with
    | true =>
      obtain ⟨f, -, hr | hr⟩ := h.faults.pending hf
      all_goals simp [hr]
    | false =>
      obtain ⟨-, hr | ⟨e, hne, hr⟩⟩ := h.faults.clear hf
      · simp [hr]
      · simpa [hr] using hne
  · by_cases he : s.dec.state = .error
    · obtain ⟨e, hne, herr⟩ := h.dec.errorCode he
      simpa [herr] using hne
    · simp [h.dec.noError he]

/-! ## What a step and a run append (R181) -/

/-- OUT_MEM of `t` is that of `s` with indices below the clear code of `s` appended. -/
def State.Emits (s t : State) : Prop := ∃ q, t.out = s.out.appendIndices q ∧ ∀ x ∈ q, x < s.dec.clear

theorem State.emits_of_out_eq {s t : State} (h : t.out = s.out) : s.Emits t := ⟨[], h, by simp⟩

theorem State.Emits.trans {s t u : State} (h : s.Emits t) (hclear : t.dec.clear = s.dec.clear) (h' : t.Emits u) :
    s.Emits u := by
  obtain ⟨q, hq, hql⟩ := h
  obtain ⟨r, hr, hrl⟩ := h'
  refine ⟨q ++ r, by rw [hr, hq, Memory.appendIndices_append], fun x hx => ?_⟩
  rcases List.mem_append.1 hx with hx | hx
  · exact hql x hx
  · exact hclear ▸ hrl x hx

theorem decActiveStep_clearCode (s : State) : (s.finish (decActiveStep s)).dec.clear = s.dec.clear := by
  rcases decActiveStep_cases s with ⟨-, h⟩ | ⟨c, -,
      ⟨-, h⟩ | ⟨-, -, h⟩ | ⟨-, -, ⟨e, -, h⟩ | ⟨seq, new, -, ⟨-, h⟩ | ⟨-, h⟩⟩⟩⟩
  all_goals simp [h, Decoder.clear, Decoder.tableReset]

/-- A step of an active session appends the sequence of an ordinary code, or nothing (R173). -/
theorem decActiveStep_emits {s : State} (hd : s.dec.Inv) (ha : s.dec.state = .active) :
    s.Emits (s.finish (decActiveStep s)) := by
  rcases decActiveStep_cases s with ⟨-, h⟩ | ⟨c, -,
      ⟨-, h⟩ | ⟨-, -, h⟩ | ⟨-, -, ⟨e, -, h⟩ | ⟨seq, new, hem, ⟨-, h⟩ | ⟨-, h⟩⟩⟩⟩
  case inr.inr.inr.inr.inl =>
    obtain ⟨-, hbelow, -⟩ := (hd.opened (hd.min_ne_zero ha)).emission_ok hem
    exact ⟨seq, by rw [h]; rfl, hbelow⟩
  all_goals exact State.emits_of_out_eq (by rw [h]; rfl)

theorem decRunLoop_emits {n : Nat} {s u : State} (hi : s.RunInv) (h : decRunLoop n s = some u) : s.Emits u := by
  have key := decRunLoop_induct (P := fun v => v.RunInv ∧ v.dec.clear = s.dec.clear ∧ s.Emits v)
    (fun v ⟨hv, hclear, hem⟩ ha _ => ⟨hv.step ha, (decActiveStep_clearCode v).trans hclear,
      hem.trans hclear (decActiveStep_emits hv.dec ha)⟩)
    ⟨hi, rfl, State.emits_of_out_eq rfl⟩ h
  obtain ⟨⟨-, -, hem⟩, -⟩ := key
  exact hem

theorem exec_decStep_emits {s t : State} (hs : s.Inv) (h : exec .decStep s = .next t) : s.Emits t := by
  cases hf : s.fault with
  | true =>
    rw [exec_rejected (by simp) hf] at h
    cases h
    exact State.emits_of_out_eq rfl
  | false =>
    rw [exec_clear (by simp) (by simp) hf, commandBody, decStepBody] at h
    cases h
    cases hst : s.dec.state with
    | active => exact decActiveStep_emits hs.dec hst
    | _ => exact State.emits_of_out_eq rfl

theorem exec_decRun_emits {s t : State} (hs : s.Inv) (h : exec .decRun s = .next t) : s.Emits t := by
  cases hf : s.fault with
  | true =>
    rw [exec_rejected (by simp) hf] at h
    cases h
    exact State.emits_of_out_eq rfl
  | false =>
    rcases exec_decRun_cases hf h with ⟨-, rfl⟩ | ⟨-, u, hu, rfl⟩
    · exact State.emits_of_out_eq rfl
    · exact (decRunLoop_emits hs.runInv hu :)

/-! ## The claim -/

/-- R140 and R181 of the decoder alone: which codes have a sequence, and how long it is. -/
theorem Decoder.Inv.sequences {d : Decoder} (h : d.Inv) : d.clear ≤ 256 ∧
    (∀ c, d.clear + 2 ≤ c → c < d.count → ∃ q, (c, q) ∈ d.table ∧ d.seqOf c = some q) ∧
    (∀ c q, (c, q) ∈ d.table → d.seqOf c = some q) ∧
    (∀ c q, d.seqOf c = some q → q ≠ [] ∧ (d.clear ≤ c → 2 ≤ q.length)) := by
  by_cases h0 : d.min = 0
  · obtain ⟨hclear, hcount, htable, hseq⟩ := h.unopened_tables h0
    simp [hclear, hcount, htable, hseq]
  · have ho := h.opened h0
    refine ⟨ho.clear_le, fun c h1 h2 => ?_, fun c q => ho.seqOf_of_mem, fun c q hq => ?_⟩
    · obtain ⟨q, hm⟩ := ho.exists_mem h1 h2
      exact ⟨q, hm, ho.seqOf_of_mem hm⟩
    · exact ⟨(ho.seqOf_spec hq).1, fun hc => ho.two_le_length_seqOf hc hq⟩

/-- Settles O43. -/
theorem decodedIndicesBelowClear : Obligations.DecodedIndicesBelowClear := by
  intro s hs
  obtain ⟨hclear, hentry, hmem, hlen⟩ := hs.dec.sequences
  refine ⟨hclear, fun c => Decoder.seqOf_literal, hentry, hmem, fun c => Decoder.seqOf_eq_none, fun c q hq => ?_,
    fun i t ht => (exec_inv hs ht).no_emptySequence, fun i t hi ht => ?_⟩
  · obtain ⟨hne, hlong⟩ := hlen c q hq
    have hpos := List.length_pos_iff.2 hne
    refine ⟨hpos, fun hc => ?_, hlong, fun x => ?_⟩
    · rw [Decoder.seqOf_literal hc] at hq
      cases hq
      rfl
    · rw [List.length_append]
      exact Nat.succ_le_succ hpos
  · have hem : s.Emits t := by
      rcases hi with rfl | rfl
      · exact exec_decStep_emits hs ht
      · exact exec_decRun_emits hs ht
    obtain ⟨q, hq, hbelow⟩ := hem
    exact ⟨q, hq ▸ Memory.extended_appendIndices hs.out.canonical q, hbelow⟩

end Sys2Proof.Machine
end

section
/-! The control and clearing commands (44_control.md R200 to R202, 40_bitstream.md R100, R104): commands whose
pseudocode raises nothing; O17, O18. -/

namespace Sys2Proof.Machine

/-- A command whose pseudocode completes leaves what the pseudocode wrote, with LAST_RESULT <- OK (R212). -/
theorem exec_of_done {i : Instr} (h1 : i ≠ .softReset) (h2 : i ≠ .decRun) {s t : State} (hf : s.fault = false)
    (hbody : commandBody i s = .done t) : exec i s = .next (t.setLastResult .ok) := by
  rw [exec_clear h1 h2 hf, hbody, State.finish_done]

/-- Settles O17: each command's pseudocode is a single write, or none. -/
theorem nopAndClearsComplete : Obligations.NopAndClearsComplete := by
  intro s hf
  refine ⟨?nop, ?outClear, ?bwClear, ?brClear⟩
  case nop => exact exec_of_done (t := s) (by simp) (by simp) hf rfl
  case outClear => exact exec_of_done (t := s.setOut Memory.empty) (by simp) (by simp) hf rfl
  case bwClear => exact exec_of_done (t := s.setBw BitWriter.reset) (by simp) (by simp) hf rfl
  case brClear => exact exec_of_done (t := s.setBr BitReader.reset) (by simp) (by simp) hf rfl

/-- SOFT_RESET does not look at FAULT (R201, R214). -/
theorem exec_softReset (s : State) : exec .softReset s = .next s.softReset := rfl

/-- SOFT_RESET keeps CP and the words still to come; everything else is at reset (R201). -/
theorem State.softReset_withoutPort (s : State) :
    { s.softReset with cmdPort := [] } = { State.resetWith s.cfg with cp := s.cp, lastResult := .ok } := rfl

/-- Settles O18: SOFT_RESET has no test of FAULT, and every other command starts with it (R214). -/
theorem softResetRestoresAllButCp : Obligations.SoftResetRestoresAllButCp := by
  intro s
  refine ⟨⟨s.softReset, exec_softReset s, s.softReset_withoutPort⟩, fun hf i hi => ?_⟩
  exact exec_rejected hi hf

end Sys2Proof.Machine
end

section
/-! Faults (60_exceptions.md R213 to R215): what a faulting command leaves, what runs while FAULT = 1, and what clears
it; O13, O14, O15. -/

namespace Sys2Proof.Machine

/-! ## Fault entry (R213) -/

theorem decActiveStep_done_fault {s t : State} (h : decActiveStep s = .done t) : t.fault = s.fault := by
  rcases decActiveStep_cases s with ⟨-, he⟩ | ⟨c, -,
      ⟨-, he⟩ | ⟨-, -, he⟩ | ⟨-, -, ⟨e, -, he⟩ | ⟨seq, new, -, ⟨-, he⟩ | ⟨-, he⟩⟩⟩⟩
  all_goals cases he.symm.trans h <;> rfl

/-- Pseudocode that completes leaves FAULT alone: only fault entry sets it (R213). -/
theorem commandBody_done_fault {i : Instr} {s t : State} (h : commandBody i s = .done t) : t.fault = s.fault := by
  cases i with
  | decStep =>
    rw [commandBody, decStepBody] at h
    split at h
    · cases h
    · cases h
      rfl
    · cases h
    · exact decActiveStep_done_fault h
  | _ =>
    simp only [commandBody, bwWriteBody, brAppendBody, brAtHeadBody, brReadBody, encBeginBody, encPushBody,
      encPushReset, encPushAdd, encFinishBody, decBeginBody] at h
    (repeat' split at h) <;> cases h <;> rfl

/-- A command but DEC_RUN that sets FAULT made no other write than those of fault entry. -/
theorem exec_eq_raiseFault {i : Instr} (hr : i ≠ .decRun) {s t : State} (hf : s.fault = false)
    (h : exec i s = .next t) (ht : t.fault = true) : ∃ f, t = s.raiseFault f := by
  have hsr : i ≠ .softReset := by
    rintro rfl
    cases h
    cases ht
  rw [exec_clear hsr hr hf] at h
  cases h
  cases hb : commandBody i s with
  | fault f => exact ⟨f, rfl⟩
  | done u => simp [hb, commandBody_done_fault hb, hf] at ht
  | error e => simp [hb, hf] at ht
  | decodeError e => simp [hb, hf] at ht

/-- DEC_STEP in IDLE (43_lzw_decoder.md R173). -/
theorem exec_decStep_idle {s : State} (hf : s.fault = false) (h : s.dec.state = .idle) :
    exec .decStep s = .next (s.raiseFault .state) := by
  rw [exec_clear (by simp) (by simp) hf, commandBody, decStepBody, h]
  rfl

/-- Where DEC_RUN sets FAULT, a DEC_STEP did, after the steps that had their effect (R213, 43_lzw_decoder.md R178); in
IDLE it is the first. -/
theorem exec_decRun_fault {s t : State} (hf : s.fault = false) (h : exec .decRun s = .next t) (ht : t.fault = true) :
    ∃ n u f, DecSteps n s u ∧ exec .decStep u = .next t ∧ t = u.raiseFault f := by
  rcases exec_decRun_cases hf h with ⟨hidle, rfl⟩ | ⟨-, v, hv, rfl⟩
  · exact ⟨0, s, .state, .refl s, exec_decStep_idle hf hidle, rfl⟩
  · rw [State.setLastResult_fault] at ht
    rw [State.setLastResult_decRunResult_of_fault ht]
    rcases decSteps_of_decRunLoop hf hv with ⟨-, -, hclear⟩ | ⟨n, u, f, hsteps, -, -, hstep, hu⟩
    · cases ht.symm.trans hclear
    · exact ⟨n, u, f, hsteps, hstep, hu⟩

/-- Settles O14. -/
theorem faultEntryChangesNothingElse : Obligations.FaultEntryChangesNothingElse := by
  intro i s t hf h ht
  by_cases hr : i = .decRun
  · subst hr
    obtain ⟨n, u, f, hsteps, hstep, hu⟩ := exec_decRun_fault hf h ht
    exact ⟨f, fun hne => absurd rfl hne, fun _ => ⟨n, u, hsteps, hstep, hu⟩⟩
  · obtain ⟨f, hu⟩ := exec_eq_raiseFault hr hf h ht
    exact ⟨f, fun _ => hu, fun he => absurd he hr⟩

/-! ## The commands while FAULT = 1 (R214) -/

/-- The one word that decodes to SOFT_RESET. -/
theorem decode_eq_softReset_iff {h w1 w2 : Word} : decode h w1 w2 = .ok .softReset ↔ h = 1 := by
  constructor
  · intro hd
    obtain ⟨hh, -⟩ := headerWord_of_decode hd
    exact hh.symm
  · rintro rfl
    rfl

section
variable {s : State} {h w1 w2 : Word} {rest : List Word} (hp : s.pendingWords = commandWords h w1 w2 ++ rest)
include hp

/-- While FAULT = 1 a complete command is rejected, whether its header decodes or not. -/
theorem step_rejected (hf : s.fault = true) (h1 : h ≠ 1) : step s = .next (s.consumed h rest).reject := by
  obtain ⟨hok, herr⟩ := step_of_commandWords hp
  have hpending : (s.consumed h rest).fault = true := hf
  cases hd : decode h w1 w2 with
  | ok i =>
    have hi : i ≠ .softReset := by
      rintro rfl
      exact h1 (decode_eq_softReset_iff.1 hd)
    rw [hok i hd, exec_rejected hi hpending]
  | error e => rw [herr e hd, State.illegalCommand, State.unlessFaulted_faulted hpending]

/-- The word 00000001 is SOFT_RESET whatever FAULT is. -/
theorem step_softReset (h1 : h = 1) : step s = exec .softReset (s.consumed h rest) :=
  (step_of_commandWords hp).1 _ (decode_eq_softReset_iff.2 h1)

end

/-! ## The commands while FAULT = 0 (R214) -/

theorem State.Inv.consumed {s : State} (hs : s.Inv) (h : Word) (rest : List Word) : (s.consumed h rest).Inv where
  part := trivial
  faults := ⟨hs.faults.pending, hs.faults.clear⟩
  bw := hs.bw
  br := hs.br
  out := hs.out
  enc := hs.enc
  dec := hs.dec

/-- Under the invariant every command answers a next state; only DEC_RUN's loop needs it (43_lzw_decoder.md R180). -/
theorem exec_eq_next {s : State} (hs : s.RunInv) (i : Instr) : ∃ t, exec i s = .next t := by
  by_cases hsr : i = .softReset
  · subst hsr
    exact ⟨_, exec_softReset s⟩
  by_cases hr : i = .decRun
  · subst hr
    cases hf : s.fault with
    | true => exact ⟨_, exec_rejected (by simp) hf⟩
    | false =>
      by_cases hidle : s.dec.state = .idle
      · exact ⟨_, exec_decRun_idle hf hidle⟩
      · obtain ⟨u, hu⟩ := decRunLoop_decRunFuel hs
        exact ⟨_, exec_decRun_eq hf hidle le_rfl hu⟩
  · exact ⟨_, (exec_eq_runCommand hsr hr s).trans (State.runCommand_eq _)⟩

/-- How a command with no fault pending can end: completed, with a fault, or with an error. -/
def State.Ended (t : State) : Prop :=
  t.lastResult = .ok ∨ (∃ f, t.lastResult = .fault f ∧ t.faultCode = .fault f ∧ t.fault = true) ∨
    ∃ e, t.lastResult = .error e

theorem State.ended_raiseFault (s : State) (f : FaultCode) : (s.raiseFault f).Ended := .inr (.inl ⟨f, rfl, rfl, rfl⟩)

/-- The invariant leaves E_FAULTED open only while FAULT = 1, and there fault entry excludes it. -/
theorem exec_ended {i : Instr} {s t : State} (hs : s.Inv) (hf : s.fault = false) (h : exec i s = .next t) :
    t.Ended := by
  cases ht : t.fault with
  | true =>
    by_cases hr : i = .decRun
    · subst hr
      obtain ⟨n, u, f, -, -, rfl⟩ := exec_decRun_fault hf h ht
      exact u.ended_raiseFault f
    · obtain ⟨f, rfl⟩ := exec_eq_raiseFault hr hf h ht
      exact s.ended_raiseFault f
  | false =>
    obtain ⟨-, hok | ⟨e, -, he⟩⟩ := (exec_inv hs h).faults.clear ht
    · exact .inl hok
    · exact .inr (.inr ⟨e, he⟩)

/-- A step with a complete command on the port and no fault pending ends in one of these ways. -/
theorem step_ended {s : State} {h w1 w2 : Word} {rest : List Word} (hp : s.pendingWords = commandWords h w1 w2 ++ rest)
    (hs : s.Inv) (hf : s.fault = false) : ∃ t, step s = .next t ∧ t.Ended := by
  obtain ⟨hok, herr⟩ := step_of_commandWords hp
  have hi := hs.consumed h rest
  have hclear : (s.consumed h rest).fault = false := hf
  cases hd : decode h w1 w2 with
  | ok i =>
    obtain ⟨t, ht⟩ := exec_eq_next hi.runInv i
    exact ⟨t, (hok i hd).trans ht, exec_ended hi hclear ht⟩
  | error e => exact ⟨_, (herr e hd).trans (State.unlessFaulted_clear hclear _), State.ended_raiseFault _ _⟩

/-- Settles O13. -/
theorem faultPendingRejectsCommands : Obligations.FaultPendingRejectsCommands := by
  intro s h w1 w2 rest hp
  exact ⟨step_rejected hp, fun _ => step_softReset hp,
    fun hf hill => illegalHeaderFaults s h w1 w2 rest hf hill hp,
    fun _ => (step_of_commandWords hp).1,
    fun hf hs => step_ended hp hs hf⟩

/-! ## Fault exit (R215) -/

/-- What `splitCommand` takes from the front is a command's words. -/
theorem commandWords_of_splitCommand {ws rest : List Word} {h w1 w2 : Word}
    (hs : splitCommand ws = some ((h, w1, w2), rest)) : ws = commandWords h w1 w2 ++ rest := by
  rcases splitCommand_eq_some hs with ⟨hlen, rfl⟩ | ⟨hlen, rfl, -⟩
  · have h11 : opField h = 0x11 := by simpa [commandLen] using hlen
    rw [commandWords, if_pos h11]
    rfl
  · have h11 : opField h ≠ 0x11 := by simpa [commandLen] using hlen
    rw [commandWords, if_neg h11]
    rfl

/-- A step that clears FAULT took the word 00000001. -/
theorem step_clears_fault {s t : State} (hf : s.fault = true) (h : step s = .next t) (ht : t.fault = false) :
    ∃ rest, s.pendingWords = 1 :: rest ∧ t = (s.consumed 1 rest).softReset := by
  cases hc : splitCommand s.pendingWords with
  | none =>
    rw [step_eq, hc] at h
    cases h
    rw [State.setPort_fault, hf] at ht
    cases ht
  | some c =>
    obtain ⟨⟨k, w1, w2⟩, rest⟩ := c
    have hp := commandWords_of_splitCommand hc
    by_cases h1 : k = 1
    · subst h1
      rw [step_softReset hp rfl, exec_softReset] at h
      cases h
      exact ⟨rest, hp, rfl⟩
    · rw [step_rejected hp hf h1] at h
      cases h
      cases ht.symm.trans hf

/-- Settles O15. -/
theorem onlyResetsClearFault : Obligations.OnlyResetsClearFault := by
  refine ⟨fun s t hf h ht => ?_, fun s m hf hm => ?_⟩
  · obtain ⟨rest, hp, rfl⟩ := step_clears_fault hf h ht
    exact ⟨hp, rfl⟩
  · cases m with
    | send w => cases hm.symm.trans hf
    | reset => exact ⟨rfl, rfl⟩

end Sys2Proof.Machine
end

section
/-! The reset state (70_reset_and_hazards.md R240): what the registers and memories show in it, and O19. -/

namespace Sys2Proof.Machine

/-! ## What the port shows: nothing of the words still to come -/

@[simp] theorem State.readReg_setPort (s : State) (ws : List Word) (p : PartCommand) (a : Byte) :
    (s.setPort ws p).readReg a = s.readReg a := rfl

@[simp] theorem State.readMem_setPort (s : State) (ws : List Word) (p : PartCommand) (m : MemSpace) (a : Nat) :
    (s.setPort ws p).readMem m a = s.readMem m a := by
  cases m <;> rfl

/-! ## What the reset state shows -/

@[simp] theorem Memory.toList_empty : Memory.empty.toList = [] := rfl

@[simp] theorem State.memory_resetWith (cfg : Config) (m : MemSpace) :
    (State.resetWith cfg).memory m = Memory.empty := by
  cases m <;> rfl

@[simp] theorem PrevCode.word_invalid : PrevCode.invalid.word = 0 := by decide

/-- Every register of R22 reads 0 at reset, and so does an address without one. -/
@[simp] theorem State.readReg_resetWith (cfg : Config) (a : Byte) : (State.resetWith cfg).readReg a = 0 := by
  unfold State.readReg
  split
  case h_1 => exact State.status_resetWith cfg
  case h_6 => exact BitVec.extractLsb'_zero
  case h_24 => exact PrevCode.word_invalid
  all_goals rfl

@[simp] theorem State.readMem_resetWith (cfg : Config) (m : MemSpace) (a : Nat) :
    (State.resetWith cfg).readMem m a = 0 := by
  rw [State.readMem, State.memory_resetWith, Memory.read_empty]

/-! ## Power-on and the reset input -/

/-- The reset input leaves the state power-on gives, but for the words still to come (log 10). -/
theorem State.hostMove_reset (s : State) : s.hostMove .reset = (State.resetWith s.cfg).setPort s.cmdPort .none := rfl

/-- Settles O19: both kinds of reset give `State.resetWith`, up to the words on the port, which R240's table leaves
out. -/
theorem resetState : Obligations.ResetState := by
  intro cfg s hs
  have ⟨ws, hws⟩ : ∃ ws, s = (State.resetWith cfg).setPort ws .none := by
    obtain rfl | ⟨r, rfl, rfl⟩ := hs
    · exact ⟨[], rfl⟩
    · exact ⟨r.cmdPort, r.hostMove_reset⟩
  subst hws
  simp [BitWriter.reset, BitReader.reset, Encoder.reset, Decoder.reset, PrevCode.invalid, Encoder.clear, Encoder.eoi,
    Decoder.clear, Decoder.eoi]

end Sys2Proof.Machine
end

section
/-! The round trips between commands and their words (30_encoding.md R80 to R86), and the assembler (R91, R92); O1, O2,
O3, O7 and O8. -/

namespace Sys2Proof

open Machine

/-! ## Commands and words -/

/-- Settles O1. -/
theorem decodeEncodeRoundTrip : Obligations.DecodeEncodeRoundTrip :=
  fun _ rest hw => decodeWords_encode_append hw rest

/-- Settles O2: the bytes are those of the command's words, and nothing follows. -/
theorem bytesDecodeEncodeRoundTrip : Obligations.BytesDecodeEncodeRoundTrip := by
  intro i hw
  have back := decodeWords_encode_append hw []
  rw [List.append_nil] at back
  rw [decodeBytes, encodeBytes, wordsOfBytes_flatMap, back]
  rfl

/-- A command whose operands came from the fields of a header is well formed. -/
theorem Instr.wellFormed_of_operands_lt {i : Instr} (hn : i.nOperand < 256) (hi : i.immOperand < 65536) :
    i.wellFormed = true := by
  cases i with
  | bwWrite | brRead | decBegin => exact decide_eq_true hn
  | encBegin | encPush => exact decide_eq_true hi
  | _ => rfl

theorem Instr.operands_lt_of_wellFormed {i : Instr} (hw : i.wellFormed = true) :
    i.nOperand < 256 ∧ i.immOperand < 65536 := by
  cases i with
  | bwWrite | brRead | decBegin => exact ⟨of_decide_eq_true hw, by simp [Instr.immOperand]⟩
  | encBegin | encPush => exact ⟨by simp [Instr.nOperand], of_decide_eq_true hw⟩
  | brAppend b => exact ⟨by simp [Instr.nOperand], by rw [Instr.immOperand]; omega⟩
  | _ => simp [Instr.nOperand, Instr.immOperand]

/-- BW_WRITE alone has data words (R84). -/
theorem Instr.dataWords_eq_nil {i : Instr} (hop : i.opcode ≠ 0x11) : i.dataWords = [] := by
  cases i with
  | bwWrite => exact absurd rfl hop
  | _ => rfl

/-- Settles O3: the header is made of its fields, and the data words of a value are those it was made of (R84). -/
theorem encodeDecodeRoundTrip : Obligations.EncodeDecodeRoundTrip := by
  intro h w1 w2 i hd
  obtain ⟨-, hn, hi, hlong⟩ := decode_eq_ok hd
  obtain ⟨hheader, hop⟩ := headerWord_of_decode hd
  refine ⟨Instr.wellFormed_of_operands_lt (hn ▸ (nField h).isLt) (hi ▸ (immField h).isLt), ?_⟩
  rw [encode, hheader]
  split
  · obtain ⟨hlow, hhigh⟩ := dataWords_valueOfWords w1 w2
    rw [hlong ‹_›, Instr.dataWords, hlow, hhigh]
  · rw [Instr.dataWords_eq_nil]
    rintro h11
    exact ‹¬ commandLen h = 3› (if_pos (hop.trans h11))

/-! ## Assembler lines (R91) -/

theorem fitsN_iff {n : Nat} : fitsN n = true ↔ n ≤ 255 := decide_eq_true_iff.trans Nat.lt_succ_iff

theorem fitsImm_iff {imm : Nat} : fitsImm imm = true ↔ imm ≤ 65535 := decide_eq_true_iff.trans Nat.lt_succ_iff

/-- The encoder's words are those R91 says an assembler emits. -/
theorem encode_eq_asmHeader {i : Instr} (hw : i.wellFormed = true) :
    encode i = asmHeader i.opcode.toNat i.nOperand i.immOperand :: i.dataWords := by
  obtain ⟨hn, hi⟩ := Instr.operands_lt_of_wellFormed hw
  rw [encode, headerWord_eq_asmHeader i.opcode hn hi]

theorem allSome_singleton {α : Type} (o : Option α) : allSome [o] = o.map ([·]) := by
  cases o <;> rfl

/-- A line of at most one command assembles to that command's words. -/
theorem AsmLine.assemble_of_commands {l : AsmLine} {o : Option Instr} (h : l.commands = allSome [o]) :
    l.assemble = o.map encode := by
  rw [assemble, h, allSome_singleton]
  cases o <;> simp

/-- A command line is emitted exactly where its operands fit their fields. -/
theorem asmChecked_map_encode (i : Instr) : (asmChecked i).map encode =
    if i.wellFormed = true then some (asmHeader i.opcode.toNat i.nOperand i.immOperand :: i.dataWords) else none := by
  rw [asmChecked]
  split
  · rw [Option.map_some, encode_eq_asmHeader ‹_›]
  · rfl

theorem asmAppend_map_encode (b : Nat) :
    (asmAppend b).map encode = if b ≤ 255 then some [asmHeader 0x21 0 b] else none := by
  rw [asmAppend]
  by_cases hb : b < 256
  · have hbyte : (BitVec.ofNat 8 b).toNat = b := Nat.mod_eq_of_lt hb
    rw [if_pos hb, if_pos (Nat.le_of_lt_succ hb), Option.map_some, encode_eq_asmHeader rfl, Instr.immOperand, hbyte]
    rfl
  · rw [if_neg hb, if_neg (by omega), Option.map_none]

/-- BW_WRITE's data words are the two halves of the line's value (R84). -/
theorem dataWords_ofNat (n value : Nat) : (Instr.bwWrite n (BitVec.ofNat 64 value)).dataWords =
    [BitVec.ofNat 32 (value % 2 ^ 32), BitVec.ofNat 32 (value >>> 32)] := by
  have hlow : (BitVec.ofNat 64 value).extractLsb' 0 32 = BitVec.ofNat 32 (value % 2 ^ 32) := by
    apply BitVec.eq_of_toNat_eq
    simp only [BitVec.extractLsb'_toNat, BitVec.toNat_ofNat, Nat.shiftRight_zero]
    omega
  have hhigh : (BitVec.ofNat 64 value).extractLsb' 32 32 = BitVec.ofNat 32 (value >>> 32) := by
    apply BitVec.eq_of_toNat_eq
    simp only [BitVec.extractLsb'_toNat, BitVec.toNat_ofNat, Nat.shiftRight_eq_div_pow]
    omega
  rw [Instr.dataWords, hlow, hhigh]

theorem AsmLine.assemble_bwWrite (n value : Nat) : (AsmLine.bwWrite n value).assemble =
    if n ≤ 255 ∧ value < 2 ^ 64 then
      some [asmHeader 0x11 n 0, BitVec.ofNat 32 (value % 2 ^ 32), BitVec.ofNat 32 (value >>> 32)] else none := by
  by_cases hv : value < 2 ^ 64
  · have hc : (AsmLine.bwWrite n value).commands = allSome [asmChecked (.bwWrite n (BitVec.ofNat 64 value))] :=
      if_pos hv
    rw [assemble_of_commands hc, asmChecked_map_encode, dataWords_ofNat]
    simp only [Instr.wellFormed, fitsN_iff, and_iff_left hv]
    rfl
  · rw [assemble, commands, if_neg hv, if_neg (fun h => hv h.2), Option.map_none]

/-- Settles O7: each line is one command, whose words are the encoder's. -/
theorem assemblerEmitsWords : Obligations.AssemblerEmitsWords := by
  refine ⟨fun p hp => ?_, AsmLine.assemble_bwWrite,
    fun b => (AsmLine.assemble_of_commands rfl).trans (asmAppend_map_encode b), fun n => ?_, fun cc => ?_, fun i => ?_,
    fun m => ?_, fun i => encode_eq_asmHeader⟩
  · fin_cases hp
    all_goals decide
  all_goals
    rw [AsmLine.assemble_of_commands rfl, asmChecked_map_encode]
    simp only [Instr.wellFormed, fitsN_iff, fitsImm_iff]
    rfl

/-! ## Pseudo-commands (R92) -/

/-- One refused item refuses the line, whatever is made of the items. -/
theorem allSome_map {α β : Type} (f : α → β) (os : List (Option α)) :
    allSome (os.map (Option.map f)) = (allSome os).map (List.map f) := by
  induction os with
  | nil => rfl
  | cons o os ih =>
    cases o with
    | none => rfl
    | some a =>
      rw [List.map_cons, Option.map_some, allSome, ih, allSome, Option.map_map, Option.map_map]
      rfl

/-- Lines of one command each, assembled one after another, emit the words of the commands one after another. -/
theorem allSome_assemble_flatten {ls : List AsmLine} {os : List (Option Instr)}
    (h : ls.map AsmLine.assemble = os.map (Option.map encode)) :
    (allSome (ls.map AsmLine.assemble)).map List.flatten = (allSome os).map (·.flatMap encode) := by
  rw [h, allSome_map, Option.map_map]
  rfl

/-- Settles O8: each line of an expansion is one command. -/
theorem assemblerExpandsPseudoCommands : Obligations.AssemblerExpandsPseudoCommands := by
  refine ⟨fun bytes => ?_, fun cc is => ?_, fun m => ?_⟩
  · refine (allSome_assemble_flatten (os := some .brClear :: bytes.map asmAppend) ?_).symm
    simp [AsmLine.assemble_of_commands (l := .brClear) (o := some .brClear) rfl,
      fun b => AsmLine.assemble_of_commands (l := .brAppend b) (o := asmAppend b) rfl]
  · refine (allSome_assemble_flatten
      (os := asmChecked (.encBegin cc) :: is.map (fun i => asmChecked (.encPush i)) ++ [some .encFinish]) ?_).symm
    simp [AsmLine.assemble_of_commands (l := .encBegin cc) (o := asmChecked (.encBegin cc)) rfl,
      fun i => AsmLine.assemble_of_commands (l := .encPush i) (o := asmChecked (.encPush i)) rfl,
      AsmLine.assemble_of_commands (l := .encFinish) (o := some .encFinish) rfl]
  · refine (allSome_assemble_flatten
      (os := [some .outClear, asmChecked (.decBegin m), some .decRun]) ?_).symm
    simp [AsmLine.assemble_of_commands (l := .outClear) (o := some .outClear) rfl,
      AsmLine.assemble_of_commands (l := .decBegin m) (o := asmChecked (.decBegin m)) rfl,
      AsmLine.assemble_of_commands (l := .decRun) (o := some .decRun) rfl]

end Sys2Proof
end

section
/-! Steps with and without a complete command on the port (30_encoding.md R86, R93, R94): O9 and O10. -/

namespace Sys2Proof.Machine

/-- Settles O9: the port's front is the command's words, which decode to it. -/
theorem stepRunsDecodedCommand : Obligations.StepRunsDecodedCommand := by
  intro s i rest hw hp
  obtain ⟨w1, w2, hsplit, hdata, hlen⟩ := splitCommand_encode i rest
  rw [step_eq, hp, hsplit]
  dsimp only
  rw [decode_headerWord i w1 w2 hw hdata, hlen]
  rfl

/-! ## The waiting step (R93) -/

/-- The words of an incomplete command: none, or the first one or two of a 3-word command (R86). -/
theorem splitCommand_eq_none_iff {ws : List Word} : splitCommand ws = none ↔
    ws = [] ∨ ∃ h, opField h = 0x11 ∧ (ws = [h] ∨ ∃ w1, ws = [h, w1]) := by
  constructor
  · intro hnone
    match ws with
    | [] => exact .inl rfl
    | h :: rest =>
      have h11 : opField h = 0x11 := by
        by_contra h11
        have h1 : commandLen h ≠ 3 := by rw [commandLen, if_neg h11]; decide
        cases hnone.symm.trans (if_neg h1)
      have h3 : commandLen h = 3 := if_pos h11
      match rest with
      | [] => exact .inr ⟨h, h11, .inl rfl⟩
      | [w1] => exact .inr ⟨h, h11, .inr ⟨w1, rfl⟩⟩
      | _ :: _ :: _ => cases hnone.symm.trans (if_pos h3)
  · rintro (rfl | ⟨h, h11, rfl | ⟨w1, rfl⟩⟩)
    · rfl
    all_goals exact if_pos (if_pos h11)

/-- The words held of an incomplete command are those received. -/
theorem partCommand_words_ofWords {ws : List Word} (h : splitCommand ws = none) :
    (PartCommand.ofWords ws).words = ws := by
  obtain rfl | ⟨k, -, rfl | ⟨w1, rfl⟩⟩ := splitCommand_eq_none_iff.1 h
  all_goals rfl

/-- The state that waits for the rest of the words on the port. -/
def State.waiting (s : State) : State := s.setPort [] (PartCommand.ofWords s.pendingWords)

theorem step_waiting {s : State} (h : splitCommand s.pendingWords = none) : step s = .next s.waiting := by
  rw [step_eq, h]
  rfl

theorem State.pendingWords_sendAll_waiting {s : State} (h : splitCommand s.pendingWords = none) (more : List Word) :
    (s.waiting.sendAll more).pendingWords = s.pendingWords ++ more := by
  have hheld := partCommand_words_ofWords h
  show (PartCommand.ofWords s.pendingWords).words ++ ([] ++ more) = _
  rw [hheld, List.nil_append]

/-- Settles O10: the third word makes the words on the port those of the whole command (O9). -/
theorem stepWaitsForWholeCommand : Obligations.StepWaitsForWholeCommand := by
  refine ⟨fun s hs => ?_, fun s t u n v h w1 w2 hn henc hp ht hu => ?_⟩
  · have hnone := splitCommand_eq_none_iff.2 hs
    exact ⟨_, step_waiting hnone, s.pendingWords_sendAll_waiting hnone⟩
  · have hop : opField h = 0x11 := by
      obtain ⟨hop, -⟩ := headerWord_fields (Instr.bwWrite n v).opcode n 0
      rw [← (List.cons.inj henc).1]
      exact hop
    have hnone : splitCommand s.pendingWords = none := splitCommand_eq_none_iff.2 (.inr ⟨h, hop, .inl hp⟩)
    have htp := s.pendingWords_sendAll_waiting hnone [w1]
    rw [step_waiting hnone] at ht
    cases ht
    rw [hp] at htp
    have hnone' : splitCommand (s.waiting.sendAll [w1]).pendingWords = none :=
      splitCommand_eq_none_iff.2 (.inr ⟨h, hop, .inr ⟨w1, htp⟩⟩)
    have hup := (s.waiting.sendAll [w1]).pendingWords_sendAll_waiting hnone' [w2]
    rw [step_waiting hnone'] at hu
    cases hu
    rw [htp] at hup
    have hall : ((s.waiting.sendAll [w1]).waiting.sendAll [w2]).pendingWords = encode (.bwWrite n v) ++ [] := by
      rw [hup, henc]
      rfl
    have hw : (Instr.bwWrite n v).wellFormed = true := decide_eq_true hn
    rw [stepRunsDecodedCommand _ _ [] hw hall]
    rfl

end Sys2Proof.Machine
end

section
/-! The invariant (10_state.md R29 to R33, 41_lzw_table.md R133, R135, R137): it holds at reset, every step of the core
and every move of the host keeps it, and under it no step stops; O56 to O59. -/

namespace Sys2Proof.Machine

/-- Settles O56: the state is the one SOFT_RESET leaves of itself. -/
theorem invariantAtReset : Obligations.InvariantAtReset := fun cfg => (State.resetWith cfg).inv_softReset

/-- The invariant does not look at the words on the port, only at those held of an incomplete command. -/
theorem State.Inv.setPort {s : State} (hs : s.Inv) (ws : List Word) {p : PartCommand} (hp : p.Inv) :
    (s.setPort ws p).Inv where
  part := hp
  faults := ⟨hs.faults.pending, hs.faults.clear⟩
  bw := hs.bw
  br := hs.br
  out := hs.out
  enc := hs.enc
  dec := hs.dec

/-- Settles O57: a word sent goes to the port, and the reset input gives the reset state. -/
theorem hostMovesKeepInvariant : Obligations.HostMovesKeepInvariant := by
  intro s m hs
  cases m with
  | send w => exact hs.setPort (s.cmdPort ++ [w]) hs.part
  | reset => exact (invariantAtReset s.cfg).setPort s.cmdPort trivial

/-- An illegal header leaves the state rejected or with a fault (30_encoding.md R88), and the invariant with it. -/
theorem illegalCommand_eq_next {s : State} (hs : s.Inv) : ∃ t, s.illegalCommand = .next t ∧ t.Inv := by
  cases hf : s.fault with
  | true => exact ⟨_, State.unlessFaulted_faulted hf _, hs.reject hf⟩
  | false => exact ⟨_, State.unlessFaulted_clear hf _, hs.raiseFault _⟩

/-- Whatever is on the port, a step of a state that meets the invariant answers one that meets it: it waits, or
consumes a command, which executes or is illegal. -/
theorem step_eq_next {s : State} (hs : s.Inv) : ∃ t, step s = .next t ∧ t.Inv := by
  cases hc : splitCommand s.pendingWords with
  | none => exact ⟨_, step_waiting hc, hs.setPort [] (partCommand_inv_ofWords hc)⟩
  | some c =>
    obtain ⟨⟨h, w1, w2⟩, rest⟩ := c
    obtain ⟨hok, herr⟩ := step_of_commandWords (commandWords_of_splitCommand hc)
    have hi := hs.consumed h rest
    cases hd : decode h w1 w2 with
    | ok i =>
      obtain ⟨t, ht⟩ := exec_eq_next hi.runInv i
      exact ⟨t, (hok i hd).trans ht, exec_inv hi ht⟩
    | error e =>
      obtain ⟨t, ht, hti⟩ := illegalCommand_eq_next hi
      exact ⟨t, (herr e hd).trans ht, hti⟩

/-- Settles O58. -/
theorem stepKeepsInvariant : Obligations.StepKeepsInvariant := by
  intro s t hs ht
  obtain ⟨u, hu, hi⟩ := step_eq_next hs
  cases ht.symm.trans hu
  exact hi

theorem Reachable.inv {cfg : Config} {s : State} (h : Reachable cfg s) : s.Inv := by
  induction h with
  | reset => exact invariantAtReset cfg
  | host m _ ih => exact hostMovesKeepInvariant _ m ih
  | step _ ht ih => exact stepKeepsInvariant _ _ ih ht

/-- Settles O59: every reachable state meets the invariant. -/
theorem reachableStatesNeverStop : Obligations.ReachableStatesNeverStop := by
  refine ⟨fun s => step_eq_next, fun cfg s hr => ⟨hr.inv, ?_⟩⟩
  obtain ⟨t, ht, hi⟩ := step_eq_next hr.inv
  exact ⟨t, ht, hr.step ht, hi⟩

end Sys2Proof.Machine
end

section
/-! ENC_PUSH (42_lzw_encoder.md R153) but for the table reset: its faults, the sequence that goes on, and the new
sequence that is added; O29, O30 and O32. -/

namespace Sys2Proof.Machine

section
variable {s : State} (hf : s.fault = false) {i : Nat}
include hf

theorem exec_encPush_state (ha : s.enc.state ≠ .active) : exec (.encPush i) s = .next (s.raiseFault .state) := by
  rw [exec_clear (by simp) (by simp) hf, commandBody, encPushBody, if_neg ha, State.finish_fault]

theorem exec_encPush_index (ha : s.enc.state = .active) (hi : s.enc.clear ≤ i) :
    exec (.encPush i) s = .next (s.raiseFault .index) := by
  rw [exec_clear (by simp) (by simp) hf, commandBody, encPushBody, if_pos ha, if_neg (Nat.not_lt.2 hi),
    State.finish_fault]

theorem exec_encPush_known (ha : s.enc.state = .active) (hi : i < s.enc.clear)
    (hk : s.enc.knows (s.enc.buf ++ [i]) = true) : exec (.encPush i) s =
      .next ((s.setEnc { s.enc with buf := s.enc.buf ++ [i] }).setLastResult .ok) := by
  rw [exec_clear (by simp) (by simp) hf, commandBody, encPushBody, if_pos ha, if_pos hi, if_pos hk, State.finish_done]

/-- With a new extended buffer and a code left to assign, ENC_PUSH takes the branch that adds. -/
theorem exec_encPush_new (ha : s.enc.state = .active) (hi : i < s.enc.clear) (hb : s.enc.buf ≠ [])
    (hk : s.enc.buf ++ [i] ∉ s.enc.keys) (hc : s.enc.count < encResetCount) :
    exec (.encPush i) s = .next (s.finish (encPushAdd i s)) := by
  have hnew : ¬ s.enc.knows (s.enc.buf ++ [i]) = true := mt (Encoder.knows_extended_iff hb i).1 hk
  rw [exec_clear (by simp) (by simp) hf, commandBody, encPushBody, if_pos ha, if_pos hi, if_neg hnew,
    if_neg (Nat.not_le.2 hc)]

end

theorem finish_encPushAdd_overflow {s : State} (hc : s.bwFits s.enc.cs = false) (i : Nat) :
    s.finish (encPushAdd i s) = s.raiseFault .overflow := by
  rw [encPushAdd, if_neg (by simp [hc]), State.finish_fault]

theorem finish_encPushAdd_fits {s : State} (hc : s.bwFits s.enc.cs = true) (i : Nat) :
    s.finish (encPushAdd i s) = ((s.setBw (s.bw.writeBits (s.enc.codeOf s.enc.buf) s.enc.cs)).setEnc
      { s.enc.add (s.enc.buf ++ [i]) with buf := [i] }).setLastResult .ok := by
  rw [encPushAdd, if_pos hc, State.finish_done]

/-- Settles O32: the session is checked before the index (60_exceptions.md R218). -/
theorem encPushFaults : Obligations.EncPushFaults :=
  fun _ _ hf => ⟨exec_encPush_state hf, exec_encPush_index hf⟩

/-- Settles O29: after an empty buffer the extended one is a literal. -/
theorem encPushKeepsAccumulating : Obligations.EncPushKeepsAccumulating := by
  intro s i hf ha hi hb
  refine exec_encPush_known hf ha hi (Encoder.knows_iff.2 (hb.imp_left fun hnil => ?_))
  rw [hnil]
  rfl

/-- Settles O30: the extended buffer is a fresh key, so the lookup of every other key stays (R142). -/
theorem encPushWritesCodeAndAdds : Obligations.EncPushWritesCodeAndAdds := by
  intro s i hf hbw _ ha hi hb hk hc
  rw [exec_encPush_new hf ha hi hb hk hc]
  refine ⟨fun hover => ?_, fun hfits => ?_⟩
  · rw [finish_encPushAdd_overflow hover]
    rfl
  · have hlook := encLookup_append (c := s.enc.count) hk
    refine ⟨_, s.enc.table ++ [(s.enc.buf ++ [i], s.enc.count)], hbw.appended _ _, ?_, fun k hne => ?_, ?_⟩
    · rw [hlook, if_pos rfl]
    · rw [hlook, if_neg hne]
    · rw [finish_encPushAdd_fits hfits]
      rfl

end Sys2Proof.Machine
end

section
/-! DEC_STEP (43_lzw_decoder.md R173): what it does with each kind of code and outside an ACTIVE session, and how it
fails; O36 to O40. -/

namespace Sys2Proof.Machine

/-! ## What an ordinary code emits (R173) -/

theorem Decoder.prevSeq_of_valid {d : Decoder} (h : d.prev.valid = true) :
    d.prevSeq = d.seqOf d.prev.code.toNat := if_pos h

theorem Decoder.prevSeq_of_invalid {d : Decoder} (h : d.prev.valid = false) : d.prevSeq = none := by
  rw [prevSeq, if_neg (by simp [h])]

/-- After a table reset or DEC_BEGIN a code in the table emits its sequence and adds nothing. -/
theorem Decoder.emission_first {d : Decoder} {c x : Nat} {xs : List Nat} (hc : d.seqOf c = some (x :: xs))
    (hp : d.prev.valid = false) : d.emission c = .ok (x :: xs, none) := by
  rw [emission, if_neg (by simp [hp]), hc, prevSeq_of_invalid hp]

theorem Decoder.emission_known {d : Decoder} {c x : Nat} {xs p : List Nat} (hc : d.seqOf c = some (x :: xs))
    (hp : d.prevSeq = some p) : d.emission c = .ok (x :: xs, some (p ++ [x])) := by
  rw [emission, if_neg (by simp [hp]), hc, hp]

theorem Decoder.emission_unknown {d : Decoder} {c y : Nat} {ys : List Nat} (hc : d.seqOf c = none)
    (hp : d.prevSeq = some (y :: ys)) : d.emission c = .ok (y :: ys ++ [y], some (y :: ys ++ [y])) := by
  rw [emission, if_neg (by simp [hp]), hc, hp]

/-- DEC_PREV's code is not in the table, or there is no DEC_PREV to make up an unknown code from. -/
theorem Decoder.emission_noPrevious {d : Decoder} {c : Nat}
    (h : (d.prev.valid = true ∧ d.prevSeq = none) ∨ (d.prev.valid = false ∧ d.seqOf c = none)) :
    d.emission c = .error .noPrevious := by
  rw [emission]
  obtain hlost | ⟨hp, hc⟩ := h
  · rw [if_pos hlost]
  · rw [if_neg (by simp [hp]), hc, prevSeq_of_invalid hp]

/-- Codes from the count on are neither in the table nor control codes (41_lzw_table.md R141). -/
theorem Decoder.OpenInv.beyond_count {d : Decoder} (h : d.OpenInv) {c : Nat} (hc : d.count ≤ c) :
    c ≠ d.clear ∧ c ≠ d.eoi ∧ d.seqOf c = none := by
  have hcount := h.count.1
  have hclear := h.clear_eq
  have heoi := h.eoi_eq
  exact ⟨by omega, by omega, Decoder.seqOf_eq_none (by omega) (.inr hc)⟩

/-! ## What DecAdd leaves (41_lzw_table.md R143, R144) -/

/-- Appending the entry of the next code leaves the sequence of every other code. -/
theorem Decoder.OpenInv.seqOf_add {d : Decoder} (h : d.OpenInv) (hc : d.count < decTableLimit) (n : List Nat)
    (k : Nat) : (d.add n).seqOf k = if k = d.count then some n else d.seqOf k := by
  have hcount := h.count.1
  have hfresh : d.count ∉ d.table.map Prod.fst := by
    rw [h.domain, List.mem_range'_1]
    omega
  rw [Decoder.seqOf, Decoder.seqOf, Decoder.add_clear, Decoder.add_eq h hc]
  dsimp only
  rw [decLookup_append hfresh]
  rcases Nat.lt_trichotomy k d.count with hlt | rfl | hgt
  · rw [if_neg (Nat.ne_of_lt hlt), if_neg (Nat.ne_of_lt hlt)]
    simp only [hlt, Nat.lt_succ_of_lt hlt]
  · rw [if_neg (by omega), if_pos (by omega), if_pos rfl, if_pos rfl]
  · rw [if_neg (by omega), if_neg (by omega), if_neg (by omega), if_neg (by omega), if_neg (by omega)]

theorem Decoder.OpenInv.gained_afterCode {d : Decoder} (h : d.OpenInv) (c : Nat) (n : List Nat) :
    d.Gained (d.afterCode c (some n)) n where
  same := ⟨d.add_state n, d.add_err n, d.add_min n⟩
  below := fun hc => by
    have hseq : ∀ k, (d.afterCode c (some n)).seqOf k = if k = d.count then some n else d.seqOf k := h.seqOf_add hc n
    have hadd := Decoder.add_eq h hc n
    refine ⟨?_, by rw [hseq, if_pos rfl], fun k hk => by rw [hseq, if_neg hk], ?_⟩
    · exact congrArg Decoder.count hadd
    · exact congrArg Decoder.cs hadd
  full := fun hc => by
    have hadd : d.add n = d := Decoder.add_full (Nat.not_lt.2 hc) n
    show (d.add n).count = d.count ∧ (d.add n).cs = d.cs ∧ (d.add n).table = d.table
    rw [hadd]
    exact ⟨rfl, rfl, rfl⟩

/-! ## The command, one law for each way it ends -/

section
variable {s : State} (hf : s.fault = false)
include hf

theorem exec_decStep_done (h : s.dec.state = .done) : exec .decStep s = .next (s.setLastResult .ok) := by
  rw [exec_clear (by simp) (by simp) hf, commandBody, decStepBody, h]
  rfl

theorem exec_decStep_error (h : s.dec.state = .error) : exec .decStep s = .next (s.raiseError s.dec.err) := by
  rw [exec_clear (by simp) (by simp) hf, commandBody, decStepBody, h]
  rfl

variable (ha : s.dec.state = .active)
include ha

theorem exec_decStep_truncated (hp : s.br.peekBits s.dec.cs = none) :
    exec .decStep s = .next (s.raiseDecodeError .truncated) := by
  rw [exec_decStep_active hf ha, decActiveStep, hp, State.finish_decodeError]

variable {c : Nat} (hp : s.br.peekBits s.dec.cs = some c)
include hp

theorem exec_decStep_clear (hc : c = s.dec.clear) : exec .decStep s = .next (((s.setBr (s.br.advance s.dec.cs)).setDec
    { s.dec.tableReset with prev := PrevCode.invalid }).setLastResult .ok) := by
  rw [exec_decStep_active hf ha, decActiveStep, hp]
  dsimp only
  rw [decCode, if_pos hc, State.finish_done]

theorem exec_decStep_eoi (hne : c ≠ s.dec.clear) (hc : c = s.dec.eoi) : exec .decStep s =
    .next (((s.setBr (s.br.advance s.dec.cs)).setDec { s.dec with state := .done }).setLastResult .ok) := by
  rw [exec_decStep_active hf ha, decActiveStep, hp]
  dsimp only
  rw [decCode, if_neg hne, if_pos hc, State.finish_done]

variable (hclear : c ≠ s.dec.clear) (heoi : c ≠ s.dec.eoi)
include hclear heoi

theorem exec_decStep_ordinary : exec .decStep s = .next (s.finish (decOrdinary c s.dec.cs s)) := by
  rw [exec_decStep_active hf ha, decActiveStep, hp]
  dsimp only
  rw [decCode, if_neg hclear, if_neg heoi]

theorem exec_decStep_emission_error {e : ErrorCode} (he : s.dec.emission c = .error e) :
    exec .decStep s = .next (s.raiseDecodeError e) := by
  rw [exec_decStep_ordinary hf ha hp hclear heoi, decOrdinary, he, State.finish_decodeError]

theorem exec_decStep_overflow {seq : List Nat} {new : Option (List Nat)} (he : s.dec.emission c = .ok (seq, new))
    (hcap : withinCap s.cfg.outCap (s.out.len + seq.length) = false) :
    exec .decStep s = .next (s.raiseFault .overflow) := by
  rw [exec_decStep_ordinary hf ha hp hclear heoi, decOrdinary, he]
  dsimp only
  rw [if_neg (by simp [hcap]), State.finish_fault]

theorem exec_decStep_emits_code {seq : List Nat} {new : Option (List Nat)} (he : s.dec.emission c = .ok (seq, new))
    (hcap : withinCap s.cfg.outCap (s.out.len + seq.length) = true) :
    exec .decStep s = .next ((((s.setBr (s.br.advance s.dec.cs)).setDec (s.dec.afterCode c new)).setOut
      (s.out.appendIndices seq)).setLastResult .ok) := by
  rw [exec_decStep_ordinary hf ha hp hclear heoi, decOrdinary, he]
  dsimp only
  rw [if_pos hcap, State.finish_done]

end

/-! ## The claims -/

/-- A session that is open meets the table's invariant. -/
theorem Decoder.Inv.openInv {d : Decoder} (h : d.Inv) (ha : d.state = .active) : d.OpenInv :=
  h.opened (h.min_ne_zero ha)

/-- Settles O36. -/
theorem decStepControlCodes : Obligations.DecStepControlCodes := by
  intro s c hf hd ha hholds
  have hp := hholds.peekBits
  have ho := hd.openInv ha
  refine ⟨fun hc => ?_, fun hc => ?_⟩
  · rw [exec_decStep_clear hf ha hp (hc.trans ho.clear_eq.symm), Decoder.tableReset, ho.clear_eq]
    rfl
  · have hne : c ≠ s.dec.clear := by
      rw [hc, ho.clear_eq]
      exact Nat.succ_ne_self _
    exact exec_decStep_eoi hf ha hp hne (hc.trans ho.eoi_eq.symm)

/-- Settles O37: where DEC_PREV was valid its sequence is in the table, and the code adds to it. -/
theorem decStepEmitsKnownCode : Obligations.DecStepEmitsKnownCode := by
  intro s c x xs hf hd hout ha hholds hclear heoi hc hprev hcap
  have hext := Memory.extended_appendIndices hout (x :: xs)
  cases hv : s.dec.prev.valid with
  | false =>
    have hem := Decoder.emission_first hc hv
    exact ⟨_, _, exec_decStep_emits_code hf ha hholds.peekBits hclear heoi hem hcap, hext, rfl, fun _ => rfl,
      fun p h => by cases h⟩
  | true =>
    obtain ⟨p, hq⟩ := Option.ne_none_iff_exists'.1 (hprev hv)
    have hem := Decoder.emission_known hc ((Decoder.prevSeq_of_valid hv).trans hq)
    refine ⟨_, _, exec_decStep_emits_code hf ha hholds.peekBits hclear heoi hem hcap, hext, rfl,
      fun h => (by cases h), fun p' _ hp' => ?_⟩
    cases hp'.symm.trans hq
    exact (hd.openInv ha).gained_afterCode c (p ++ [x])

/-- Settles O38. -/
theorem decStepSynthesizesUnknownCode : Obligations.DecStepSynthesizesUnknownCode := by
  intro s c y ys hf hd hout ha hholds hc hv hq hcap
  obtain ⟨hclear, heoi, hnone⟩ := (hd.openInv ha).beyond_count hc
  have hem := Decoder.emission_unknown hnone ((Decoder.prevSeq_of_valid hv).trans hq)
  exact ⟨_, _, exec_decStep_emits_code hf ha hholds.peekBits hclear heoi hem hcap,
    Memory.extended_appendIndices hout _, rfl, (hd.openInv ha).gained_afterCode c _⟩

/-- Under the invariant a code in the table, with DEC_PREV invalid or in the table too, emits its sequence. -/
theorem Decoder.OpenInv.exists_emission {d : Decoder} (h : d.OpenInv) {c : Nat} {q : List Nat}
    (hc : d.seqOf c = some q) (hprev : d.prev.valid = true → d.seqOf d.prev.code.toNat ≠ none) :
    ∃ new, d.emission c = .ok (q, new) := by
  obtain ⟨x, xs, rfl⟩ := List.exists_cons_of_ne_nil (h.seqOf_spec hc).1
  cases hv : d.prev.valid with
  | false => exact ⟨_, Decoder.emission_first hc hv⟩
  | true =>
    obtain ⟨p, hq⟩ := Option.ne_none_iff_exists'.1 (hprev hv)
    exact ⟨_, Decoder.emission_known hc ((Decoder.prevSeq_of_valid hv).trans hq)⟩

/-- Settles O39: the width is read first, then the sequences are looked up, then the capacity is checked. -/
theorem decStepFailures : Obligations.DecStepFailures := by
  intro s hf hd ha
  have ho := hd.openInv ha
  refine ⟨fun hlt => ?truncated, fun c hholds hclear heoi hlost => ?noPrevious,
    fun c q hholds hclear heoi hc hprev hcap => ?overflowKnown, fun c p hholds hc hv hq hcap => ?overflowUnknown⟩
  case truncated => exact exec_decStep_truncated hf ha (BitReader.peekBits_eq_none.2 hlt)
  case noPrevious =>
    refine exec_decStep_emission_error hf ha hholds.peekBits hclear heoi (Decoder.emission_noPrevious ?_)
    obtain ⟨hv, hnone⟩ | ⟨hv, hc⟩ := hlost
    · exact .inl ⟨hv, (Decoder.prevSeq_of_valid hv).trans hnone⟩
    · obtain ⟨-, -, hnone⟩ := ho.beyond_count hc
      exact .inr ⟨hv, hnone⟩
  case overflowKnown =>
    obtain ⟨new, hem⟩ := ho.exists_emission hc hprev
    exact exec_decStep_overflow hf ha hholds.peekBits hclear heoi hem hcap
  case overflowUnknown =>
    obtain ⟨hclear, heoi, hnone⟩ := ho.beyond_count hc
    obtain ⟨y, ys, rfl⟩ := List.exists_cons_of_ne_nil (ho.seqOf_spec hq).1
    have hem := Decoder.emission_unknown hnone ((Decoder.prevSeq_of_valid hv).trans hq)
    exact exec_decStep_overflow hf ha hholds.peekBits hclear heoi hem (by rwa [List.length_append])

/-- Settles O40. -/
theorem decStepOutsideActive : Obligations.DecStepOutsideActive :=
  fun _ hf => ⟨exec_decStep_idle hf, exec_decStep_done hf, exec_decStep_error hf⟩

end Sys2Proof.Machine
end

section
/-! Rules over every command: which state each may write (10_state.md R28, R36, R41), how the session states move (R26),
that OUT_MEM only grows (20_memory.md R76), and that a decoder session in ERROR stays there (60_exceptions.md R217);
O44, O45, O47 and O49. -/

namespace Sys2Proof.Machine

/-! ## What a command can do -/

/-- Everything a command can do when it answers a next state: SOFT_RESET, the rejection while a fault is pending, its
pseudocode, and DEC_RUN's fault or its loop. -/
theorem exec_cases {i : Instr} {s t : State} (h : exec i s = .next t) :
    (i = .softReset ∧ t = s.softReset) ∨ (i ≠ .softReset ∧ s.fault = true ∧ t = s.reject) ∨
      (i ≠ .softReset ∧ i ≠ .decRun ∧ t = s.finish (commandBody i s)) ∨
      (i = .decRun ∧ t = s.raiseFault .state) ∨
      (i = .decRun ∧ ∃ n u, decRunLoop n s = some u ∧ t = u.setLastResult u.decRunResult) := by
  by_cases hsr : i = .softReset
  · subst hsr
    cases h
    exact .inl ⟨rfl, rfl⟩
  cases hf : s.fault with
  | true =>
    rw [exec_rejected hsr hf] at h
    cases h
    exact .inr (.inl ⟨hsr, rfl, rfl⟩)
  | false =>
    by_cases hr : i = .decRun
    · subst hr
      rcases exec_decRun_cases hf h with ⟨-, rfl⟩ | ⟨-, u, hu, rfl⟩
      · exact .inr (.inr (.inr (.inl ⟨rfl, rfl⟩)))
      · exact .inr (.inr (.inr (.inr ⟨rfl, _, u, hu, rfl⟩)))
    · rw [exec_clear hsr hr hf] at h
      cases h
      exact .inr (.inr (.inl ⟨hsr, hr, rfl⟩))

/-- A command but SOFT_RESET and DEC_RUN is rejected or runs its pseudocode. -/
theorem exec_eq_reject_or_finish {i : Instr} {s t : State} (hsr : i ≠ .softReset) (hr : i ≠ .decRun)
    (h : exec i s = .next t) : t = s.reject ∨ t = s.finish (commandBody i s) := by
  obtain ⟨hi, -⟩ | ⟨-, -, ht⟩ | ⟨-, -, ht⟩ | ⟨hi, -⟩ | ⟨hi, -⟩ := exec_cases h
  · exact absurd hi hsr
  · exact .inl ht
  · exact .inr ht
  all_goals exact absurd hi hr

/-! ## The frame -/

/-- DEC_RUN's loop leaves what each of its steps leaves. -/
theorem decRunLoop_cfg_result_mem {n : Nat} {s u : State} (h : decRunLoop n s = some u) :
    u.cfg = s.cfg ∧ u.result = s.result ∧ u.br.mem = s.br.mem :=
  (decRunLoop_induct (P := fun v => v.cfg = s.cfg ∧ v.result = s.result ∧ v.br.mem = s.br.mem)
    (fun v ⟨hcfg, hresult, hmem⟩ _ _ => by
      obtain ⟨hcfg', -, -, -, hresult', -, -, hmem'⟩ := decActiveStep_frame v
      exact ⟨hcfg'.trans hcfg, hresult'.trans hresult, hmem'.trans hmem⟩) ⟨rfl, rfl, rfl⟩ h).1

/-- Settles O44: SOFT_RESET may write everything that is asked about, a rejection writes LAST_RESULT alone, and each
pseudocode names the units it writes. -/
theorem stateWrittenOnlyByItsCommands : Obligations.StateWrittenOnlyByItsCommands := by
  intro i s t h
  obtain ⟨rfl, rfl⟩ | ⟨-, -, rfl⟩ | ⟨-, -, rfl⟩ | ⟨rfl, rfl⟩ | ⟨rfl, n, u, hu, rfl⟩ := exec_cases h
  case inl => simp
  case inr.inl => simp
  case inr.inr.inr.inl => simp
  case inr.inr.inr.inr =>
    obtain ⟨hcfg, hresult, hmem⟩ := decRunLoop_cfg_result_mem hu
    obtain ⟨hport, hpart⟩ := decRunLoop_port hu
    simp [hcfg, hport, hpart, decRunLoop_cp hu, hresult, decRunLoop_bw hu, decRunLoop_enc hu, hmem]
  case inr.inr.inl =>
    cases i with
    | decStep =>
      simp only [commandBody, decStepBody]
      cases s.dec.state with
      | active =>
        obtain ⟨hcfg, hport, hpart, hcp, hresult, hbw, henc, hmem⟩ := decActiveStep_frame s
        simp [hcfg, hport, hpart, hcp, hresult, hbw, henc, hmem]
      | _ => simp
    | _ =>
      simp only [commandBody, bwWriteBody, brAppendBody, brAtHeadBody, brReadBody, encBeginBody, encPushBody,
        encPushReset, encPushAdd, encFinishBody, decBeginBody, BitReader.advance]
      (repeat' split) <;> simp

/-! ## How the session states move (R26) -/

theorem finish_encBeginBody_state (cc : Nat) (s : State) : (s.finish (encBeginBody cc s)).enc.state = s.enc.state ∨
    (s.finish (encBeginBody cc s)).enc.state = .active := by
  rw [encBeginBody]
  split_ifs
  · exact .inr rfl
  all_goals exact .inl rfl

theorem finish_encPushBody_state (k : Nat) (s : State) : (s.finish (encPushBody k s)).enc.state = s.enc.state := by
  simp only [encPushBody, encPushReset, encPushAdd]
  split_ifs <;> rfl

theorem finish_encFinishBody_state (s : State) : (s.finish (encFinishBody s)).enc.state = s.enc.state ∨
    s.enc.state = .active ∧ (s.finish (encFinishBody s)).enc.state = .finished := by
  simp only [encFinishBody]
  generalize (if s.enc.buf = [] then 0 else s.enc.cs) = b
  split
  · split
    · exact .inr ⟨‹_›, rfl⟩
    · exact .inl rfl
  · exact .inl rfl

theorem finish_decBeginBody_state (m : Nat) (s : State) : (s.finish (decBeginBody m s)).dec.state = .active ∨
    (s.finish (decBeginBody m s)).dec.state = .error := by
  rw [decBeginBody]
  split_ifs
  · exact .inl rfl
  · exact .inr rfl

/-- Where steps of a session can lead it: nowhere, or from ACTIVE to its end. -/
def DecState.StepsTo (a b : DecState) : Prop := b = a ∨ a = .active ∧ (b = .done ∨ b = .error)

theorem decActiveStep_stepsTo {s : State} (ha : s.dec.state = .active) :
    s.dec.state.StepsTo (s.finish (decActiveStep s)).dec.state := by
  rcases decActiveStep_cases s with ⟨-, h⟩ | ⟨c, -,
      ⟨-, h⟩ | ⟨-, -, h⟩ | ⟨-, -, ⟨e, -, h⟩ | ⟨seq, new, -, ⟨-, h⟩ | ⟨-, h⟩⟩⟩⟩
  all_goals simp [h, DecState.StepsTo, ha, Decoder.tableReset]

theorem finish_decStepBody_stepsTo (s : State) :
    s.dec.state.StepsTo (s.finish (decStepBody s)).dec.state := by
  rw [decStepBody]
  split
  case h_4 ha => exact decActiveStep_stepsTo ha
  all_goals exact .inl rfl

theorem decRunLoop_stepsTo {n : Nat} {s u : State} (h : decRunLoop n s = some u) :
    s.dec.state.StepsTo u.dec.state :=
  (decRunLoop_induct (P := fun v => s.dec.state.StepsTo v.dec.state)
    (fun v hv ha _ => by
      have hs : s.dec.state = .active := hv.elim (fun h => h.symm.trans ha) (fun h => h.1)
      rw [hs, ← ha]
      exact decActiveStep_stepsTo ha) (.inl rfl) h).1

/-- A step and a run move the session alike. -/
theorem exec_decoder_stepsTo {i : Instr} {s t : State} (hi : i = .decStep ∨ i = .decRun)
    (h : exec i s = .next t) : s.dec.state.StepsTo t.dec.state := by
  obtain ⟨rfl, -⟩ | ⟨-, -, rfl⟩ | ⟨-, hr, rfl⟩ | ⟨-, rfl⟩ | ⟨-, n, u, hu, rfl⟩ := exec_cases h
  · simp at hi
  · exact .inl rfl
  · obtain rfl := hi.resolve_right hr
    exact finish_decStepBody_stepsTo s
  · exact .inl rfl
  · exact (decRunLoop_stepsTo hu :)

/-- The encoder's side of O45, whose command the frame names. -/
theorem exec_encState {i : Instr} {s t : State} (h : exec i s = .next t) (hne : t.enc.state ≠ s.enc.state) :
    ((∃ c, i = .encBegin c) ∧ t.enc.state = .active) ∨
      (i = .encFinish ∧ s.enc.state = .active ∧ t.enc.state = .finished) ∨
      (i = .softReset ∧ t.enc.state = .idle) := by
  obtain ⟨-, -, -, -, -, -, -, -, -, henc, -⟩ := stateWrittenOnlyByItsCommands i s t h
  obtain ⟨c, rfl⟩ | ⟨k, rfl⟩ | rfl | rfl := henc (mt (congrArg Encoder.state) hne)
  · obtain rfl | rfl := exec_eq_reject_or_finish (by simp) (by simp) h
    · exact absurd rfl hne
    · exact .inl ⟨⟨c, rfl⟩, (finish_encBeginBody_state c s).resolve_left hne⟩
  · obtain rfl | rfl := exec_eq_reject_or_finish (by simp) (by simp) h
    · exact absurd rfl hne
    · exact absurd (finish_encPushBody_state k s) hne
  · obtain rfl | rfl := exec_eq_reject_or_finish (by simp) (by simp) h
    · exact absurd rfl hne
    · exact .inr (.inl ⟨rfl, (finish_encFinishBody_state s).resolve_left hne⟩)
  · cases h
    exact .inr (.inr ⟨rfl, rfl⟩)

/-- The decoder's side of O45. -/
theorem exec_decState {i : Instr} {s t : State} (h : exec i s = .next t) (hne : t.dec.state ≠ s.dec.state) :
    ((∃ m, i = .decBegin m) ∧ (t.dec.state = .active ∨ t.dec.state = .error)) ∨
      ((i = .decStep ∨ i = .decRun) ∧ s.dec.state = .active ∧ (t.dec.state = .done ∨ t.dec.state = .error)) ∨
      (i = .softReset ∧ t.dec.state = .idle) := by
  obtain ⟨-, -, -, -, -, -, -, -, -, -, hdec⟩ := stateWrittenOnlyByItsCommands i s t h
  obtain ⟨m, rfl⟩ | hi | hi | rfl := hdec (mt (congrArg Decoder.state) hne)
  · obtain rfl | rfl := exec_eq_reject_or_finish (by simp) (by simp) h
    · exact absurd rfl hne
    · exact .inl ⟨⟨m, rfl⟩, finish_decBeginBody_state m s⟩
  · exact .inr (.inl ⟨.inl hi, (exec_decoder_stepsTo (.inl hi) h).resolve_left hne⟩)
  · exact .inr (.inl ⟨.inr hi, (exec_decoder_stepsTo (.inr hi) h).resolve_left hne⟩)
  · cases h
    exact .inr (.inr ⟨rfl, rfl⟩)

/-- Settles O45. -/
theorem sessionStateTransitions : Obligations.SessionStateTransitions :=
  fun _ _ _ h => ⟨exec_encState h, exec_decState h⟩

/-! ## OUT_MEM only grows (20_memory.md R76) -/

theorem decActiveStep_out (s : State) : ∃ q, (s.finish (decActiveStep s)).out = s.out.appendIndices q := by
  rcases decActiveStep_cases s with ⟨-, h⟩ | ⟨c, -,
      ⟨-, h⟩ | ⟨-, -, h⟩ | ⟨-, -, ⟨e, -, h⟩ | ⟨seq, new, -, ⟨-, h⟩ | ⟨-, h⟩⟩⟩⟩
  case inr.inr.inr.inr.inl => exact ⟨seq, by rw [h]; rfl⟩
  all_goals exact ⟨[], by rw [h]; rfl⟩

theorem decRunLoop_out {n : Nat} {s u : State} (h : decRunLoop n s = some u) : ∃ q, u.out = s.out.appendIndices q :=
  (decRunLoop_induct (P := fun v => ∃ q, v.out = s.out.appendIndices q)
    (fun v ⟨q, hq⟩ _ _ => by
      obtain ⟨r, hr⟩ := decActiveStep_out v
      exact ⟨q ++ r, by rw [hr, hq, Memory.appendIndices_append]⟩) ⟨[], rfl⟩ h).1

/-- A step and a run append to OUT_MEM, from any state. -/
theorem exec_decoder_out {i : Instr} {s t : State} (hi : i = .decStep ∨ i = .decRun) (h : exec i s = .next t) :
    ∃ q, t.out = s.out.appendIndices q := by
  obtain ⟨rfl, -⟩ | ⟨-, -, rfl⟩ | ⟨-, hr, rfl⟩ | ⟨-, rfl⟩ | ⟨-, n, u, hu, rfl⟩ := exec_cases h
  · simp at hi
  · exact ⟨[], rfl⟩
  · obtain rfl := hi.resolve_right hr
    rw [commandBody, decStepBody]
    cases s.dec.state with
    | active => exact decActiveStep_out s
    | _ => exact ⟨[], rfl⟩
  · exact ⟨[], rfl⟩
  · exact (decRunLoop_out hu :)

/-- Settles O47: by the frame no command but DEC_STEP and DEC_RUN is left that writes OUT_MEM. -/
theorem outputOnlyGrows : Obligations.OutputOnlyGrows := by
  refine ⟨fun i s t hwf h hoc hsr => ?_, fun s t hf h => ?_⟩
  · by_cases hi : i = .decStep ∨ i = .decRun
    · obtain ⟨q, hq⟩ := exec_decoder_out hi h
      exact ⟨q, hq ▸ Memory.extended_appendIndices hwf q, fun h1 h2 => absurd hi (not_or.2 ⟨h1, h2⟩)⟩
    · obtain ⟨-, -, -, -, -, -, -, hout, -⟩ := stateWrittenOnlyByItsCommands i s t h
      have hsame : t.out = s.out := by
        by_contra hne
        have hwriters := hout hne
        tauto
      exact ⟨[], hsame ▸ Memory.extended_appendIndices hwf [], fun _ _ => rfl⟩
  · rw [exec_outClear hf] at h
    cases h
    exact Memory.toList_empty

/-! ## A decoder session in ERROR (60_exceptions.md R217) -/

theorem exec_decRun_error {s : State} (hf : s.fault = false) (h : s.dec.state = .error) :
    exec .decRun s = .next (s.setLastResult s.dec.err) := by
  rw [exec_decRun_over hf (by simp [h]) (by simp [h]), State.decRunResult_of_error hf h]

/-- A step and a run only report DEC_ERR again, or are rejected. -/
theorem exec_decoder_dec_of_error {i : Instr} {s t : State} (hi : i = .decStep ∨ i = .decRun)
    (he : s.dec.state = .error) (h : exec i s = .next t) : t.dec = s.dec := by
  cases hf : s.fault with
  | true =>
    rw [exec_rejected (by rintro rfl; simp at hi) hf] at h
    cases h
    rfl
  | false =>
    obtain rfl | rfl := hi
    · rw [exec_decStep_error hf he] at h
      cases h
      rfl
    · rw [exec_decRun_error hf he] at h
      cases h
      rfl

/-- Settles O49: by the frame only DEC_BEGIN, SOFT_RESET and the two commands that repeat the error write DEC. -/
theorem decoderErrorPersists : Obligations.DecoderErrorPersists := by
  intro s he
  refine ⟨fun i t h hsr hdb => ?_, fun hf => ⟨exec_decStep_error hf he, exec_decRun_error hf he⟩⟩
  by_contra hne
  obtain ⟨-, -, -, -, -, -, -, -, -, -, hdec⟩ := stateWrittenOnlyByItsCommands i s t h
  obtain ⟨m, hi⟩ | hi | hi | hi := hdec hne
  · exact hdb m hi
  · exact hne (exec_decoder_dec_of_error (.inl hi) he h)
  · exact hne (exec_decoder_dec_of_error (.inr hi) he h)
  · exact hsr hi

end Sys2Proof.Machine
end

section
/-! The results each command can end with (60_exceptions.md R211): the encoder's of 42_lzw_encoder.md R163, and the
decoder's of 43_lzw_decoder.md R173 and R178; O16. -/

namespace Sys2Proof.Machine

/-! ## DEC_STEP and DEC_RUN -/

/-- After a step of an active session LAST_RESULT is what DEC_RUN would report if it ended there (R178). -/
theorem decActiveStep_lastResult {s : State} (hf : s.fault = false) (ha : s.dec.state = .active) :
    (s.finish (decActiveStep s)).lastResult = (s.finish (decActiveStep s)).decRunResult := by
  rcases decActiveStep_cases s with ⟨-, h⟩ | ⟨c, -,
      ⟨-, h⟩ | ⟨-, -, h⟩ | ⟨-, -, ⟨e, -, h⟩ | ⟨seq, new, -, ⟨-, h⟩ | ⟨-, h⟩⟩⟩⟩
  all_goals simp [h, State.decRunResult, hf, ha, Decoder.tableReset]

/-- The results DEC_STEP and DEC_RUN have of their own; in ERROR they repeat DEC_ERR (60_exceptions.md R217). -/
def decoderResults : List ResultCode :=
  [.ok, .fault .state, .fault .overflow, .error .truncated, .error .noPrevious]

/-- The results of a step of an active session (R173). -/
theorem decActiveStep_lastResult_mem {s : State} (hd : s.dec.Inv) (ha : s.dec.state = .active) :
    (s.finish (decActiveStep s)).lastResult ∈ decoderResults := by
  rcases decActiveStep_cases s with ⟨-, h⟩ | ⟨c, -,
      ⟨-, h⟩ | ⟨-, -, h⟩ | ⟨-, -, ⟨e, he, h⟩ | ⟨seq, new, -, ⟨-, h⟩ | ⟨-, h⟩⟩⟩⟩
  case inr.inr.inr.inl =>
    obtain rfl := (hd.openInv ha).emission_error he
    simp [h, decoderResults]
  all_goals simp [h, decoderResults]

/-- A run reports OK where it took no step, and else what its last step left. -/
theorem decRunLoop_decRunResult_mem {n : Nat} {s u : State} (hi : s.RunInv) (hf : s.fault = false)
    (ha : s.dec.state = .active) (h : decRunLoop n s = some u) :
    u.decRunResult ∈ decoderResults := by
  have key := decRunLoop_induct (P := fun v => v.RunInv ∧ v.decRunResult ∈ decoderResults)
    (fun v ⟨hv, _⟩ hva hvf =>
      ⟨hv.step hva, decActiveStep_lastResult hvf hva ▸ decActiveStep_lastResult_mem hv.dec hva⟩)
    ⟨hi, by rw [State.decRunResult_of_no_error hf (by simp [ha])]; exact List.mem_cons_self⟩ h
  obtain ⟨⟨-, hres⟩, -⟩ := key
  exact hres

theorem exec_decStep_lastResult {s t : State} (hs : s.Inv) (hf : s.fault = false) (h : exec .decStep s = .next t) :
    t.lastResult ∈ decoderResults ∨ s.dec.state = .error ∧ t.lastResult = s.dec.err := by
  cases hst : s.dec.state with
  | idle =>
    rw [exec_decStep_idle hf hst] at h
    cases h
    simp [decoderResults]
  | active =>
    rw [exec_decStep_active hf hst] at h
    cases h
    exact .inl (decActiveStep_lastResult_mem hs.dec hst)
  | done =>
    rw [exec_decStep_done hf hst] at h
    cases h
    simp [decoderResults]
  | error =>
    rw [exec_decStep_error hf hst] at h
    cases h
    exact .inr ⟨rfl, rfl⟩

theorem exec_decRun_lastResult {s t : State} (hs : s.Inv) (hf : s.fault = false) (h : exec .decRun s = .next t) :
    t.lastResult ∈ decoderResults ∨ s.dec.state = .error ∧ t.lastResult = s.dec.err := by
  cases hst : s.dec.state with
  | error =>
    rw [exec_decRun_error hf hst] at h
    cases h
    exact .inr ⟨rfl, rfl⟩
  | done =>
    rw [exec_decRun_over hf (by simp [hst]) (by simp [hst]), State.decRunResult_of_no_error hf (by simp [hst])] at h
    cases h
    simp [decoderResults]
  | idle =>
    rw [exec_decRun_idle hf hst] at h
    cases h
    simp [decoderResults]
  | active =>
    obtain ⟨hidle, -⟩ | ⟨-, u, hu, rfl⟩ := exec_decRun_cases hf h
    · cases hst.symm.trans hidle
    · exact .inl (decRunLoop_decRunResult_mem hs.runInv hf hst hu)

/-- Settles O16: SOFT_RESET leaves OK, the decoder's two commands are above, and each other pseudocode names its
results. -/
theorem commandResultCodes : Obligations.CommandResultCodes := by
  intro i s t hs hf h
  cases i with
  | softReset =>
    cases h
    rfl
  | decStep => exact exec_decStep_lastResult hs hf h
  | decRun => exact exec_decRun_lastResult hs hf h
  | _ =>
    rw [exec_clear (by simp) (by simp) hf] at h
    cases h
    simp only [commandBody, bwWriteBody, brAppendBody, brAtHeadBody, brReadBody, encBeginBody, encPushBody,
      encPushReset, encPushAdd, encFinishBody, decBeginBody]
    (repeat' split) <;> simp

end Sys2Proof.Machine
end

section
/-! The read port (10_state.md R22, 20_memory.md R68, 60_exceptions.md R211): the register map, the result codes'
values, and that no register of ENC or DEC is cut off; O52, O53 and O54. -/

namespace Sys2Proof.Machine

/-! ## Port fields (R22) -/

/-- A port field shows the number's low bits. -/
theorem portField_toNat {width : Nat} (hw : width ≤ 32) (v : Nat) : (portField width v).toNat = v % 2 ^ width := by
  have hlt : v % 2 ^ width < 2 ^ 32 :=
    (Nat.mod_lt v (Nat.two_pow_pos width)).trans_le (Nat.pow_le_pow_right Nat.two_pos hw)
  rw [portField, BitVec.toNat_setWidth, BitVec.toNat_ofNat, Nat.mod_eq_of_lt hlt]

/-- DEC_PREV's word is its code, with the valid bit above it (R34). -/
theorem PrevCode.word_toNat (p : PrevCode) : p.word.toNat = (if p.valid then 2 ^ 16 else 0) + p.code.toNat := by
  have hcode : p.code.toNat < 2 ^ 16 := p.code.isLt.trans (by decide)
  have hword : p.word.toNat = p.valid.toNat <<< 16 ||| p.code.toNat := by
    rw [word, BitVec.toNat_or, BitVec.toNat_setWidth, Nat.mod_eq_of_lt (hcode.trans (by decide))]
    cases p.valid <;> rfl
  rw [hword, ← Nat.shiftLeft_add_eq_or_of_lt hcode]
  cases p.valid <;> rfl

/-- RESULT is shown as two words, the low one first. -/
theorem extractLsb'_append_halves (v : BitVec 64) : v.extractLsb' 32 32 ++ v.extractLsb' 0 32 = v :=
  valueOfWords_dataWords v

/-- The addresses of R22. -/
def registerAddresses : List Byte :=
  [0x00, 0x01, 0x02, 0x03, 0x04, 0x05, 0x06, 0x10, 0x11, 0x20, 0x21, 0x30, 0x31, 0x32, 0x33, 0x34, 0x35, 0x36, 0x40,
    0x41, 0x42, 0x43, 0x44, 0x45, 0x50]

theorem State.readReg_unmapped (s : State) {a : Byte} (ha : a ∉ registerAddresses) : s.readReg a = 0 := by
  unfold readReg
  split
  case h_26 => rfl
  all_goals
    obtain ⟨-, rfl⟩ := BitVec.toNat_eq_nat.1 ‹_›
    exact absurd (by decide) ha

/-- Settles O52: each address shows its register, a number by its field. -/
theorem readPortRegisterMap : Obligations.ReadPortRegisterMap := by
  intro s
  have field {width : Nat} (hw : width ≤ 32) (v : Nat) := portField_toNat hw v
  refine ⟨rfl, rfl, rfl, extractLsb'_append_halves s.result, rfl, field (by decide) _, field (by decide) _,
    field (by decide) _, field (by decide) _, field (by decide) _, field (by decide) _, field (by decide) _,
    field (by decide) _, field (by decide) _, field (by decide) _, field (by decide) _, field (by decide) _,
    field (by decide) _, field (by decide) _, field (by decide) _, field (by decide) _, s.dec.prev.word_toNat,
    field (by decide) _, fun a => s.readReg_unmapped, fun a => ⟨rfl, rfl, rfl⟩,
    fun m a => (s.memory m).read_outside⟩

/-! ## The result codes (60_exceptions.md R211) -/

/-- All result codes, in the order of R211. -/
def resultCodes : List ResultCode :=
  [.ok, .fault .illegal, .fault .width, .fault .state, .fault .colorCount, .fault .index, .fault .overflow,
    .error .truncated, .error .noPrevious, .error .emptySequence, .error .minCodeSize, .faulted]

theorem mem_resultCodes (r : ResultCode) : r ∈ resultCodes := by
  cases r with
  | fault f => cases f <;> decide
  | error e => cases e <;> decide
  | _ => decide

/-- Settles O53: the values are all different, so no two codes share one. -/
theorem resultCodeValues : Obligations.ResultCodeValues := by
  have hdistinct : (resultCodes.map ResultCode.byte).Nodup := by decide
  exact ⟨rfl, fun r r' => List.inj_on_of_nodup_map hdistinct (mem_resultCodes r) (mem_resultCodes r')⟩

/-! ## The ranges of ENC and DEC (10_state.md R31, R33, R39) -/

theorem Encoder.Inv.fits_port {e : Encoder} (h : e.Inv) : e.colorCount < 2 ^ 9 ∧ e.min < 2 ^ 4 ∧ e.clear < 2 ^ 10 ∧
    e.eoi < 2 ^ 10 ∧ e.cs < 2 ^ 4 ∧ e.count < 2 ^ 13 ∧ e.buf.length < 2 ^ 32 := by
  by_cases hidle : e.state = .idle
  · rw [h.idle hidle]
    decide
  · have ho := h.opened hidle
    have hcc := ho.colorCount
    have hmin := ho.minRange
    have hcs := ho.width
    have hcount := ho.count
    have hbuf := ho.buf_length_le
    have hclear : 2 ^ e.min ≤ 2 ^ 8 := Nat.pow_le_pow_right Nat.two_pos hmin.2
    rw [maxCodeSize_eq] at hcs
    rw [encResetCount_eq] at hcount
    rw [ho.clear_eq, ho.eoi_eq]
    omega

theorem Decoder.Inv.fits_port {d : Decoder} (h : d.Inv) : d.min < 2 ^ 4 ∧ d.clear < 2 ^ 10 ∧ d.eoi < 2 ^ 10 ∧
    d.cs < 2 ^ 4 ∧ d.count < 2 ^ 13 := by
  by_cases h0 : d.min = 0
  · obtain ⟨-, hcs, hcount, -⟩ := h.unopened h0
    rw [Decoder.clear, Decoder.eoi, h0, hcs, hcount]
    decide
  · have ho := h.opened h0
    have hmin := ho.minRange
    have hcs := ho.width
    have hcount := ho.count
    have hclear : 2 ^ d.min ≤ 2 ^ 8 := Nat.pow_le_pow_right Nat.two_pos hmin.2
    rw [maxCodeSize_eq] at hcs
    rw [decTableLimit_eq] at hcount
    rw [ho.clear_eq, ho.eoi_eq]
    omega

/-- A field wide enough for a number shows all of it. -/
theorem portField_toNat_of_lt {width v : Nat} (hw : width ≤ 32) (hv : v < 2 ^ width) :
    (portField width v).toNat = v :=
  (portField_toNat hw v).trans (Nat.mod_eq_of_lt hv)

/-- Settles O54. -/
theorem encDecRegistersFitTheirPortFields : Obligations.EncDecRegistersFitTheirPortFields := by
  intro s hs
  obtain ⟨hecc, hemin, heclear, heeoi, hecs, hecount, hebuf⟩ := hs.enc.fits_port
  obtain ⟨hdmin, hdclear, hdeoi, hdcs, hdcount⟩ := hs.dec.fits_port
  have field {width v : Nat} (hw : width ≤ 32) (hv : v < 2 ^ width) := portField_toNat_of_lt hw hv
  exact ⟨field (by decide) hecc, field (by decide) hemin, field (by decide) heclear, field (by decide) heeoi,
    field (by decide) hecs, field (by decide) hecount, field (by decide) hebuf, field (by decide) hdmin,
    field (by decide) hdclear, field (by decide) hdeoi, field (by decide) hdcs, field (by decide) hdcount,
    s.dec.prev.word_toNat⟩

end Sys2Proof.Machine
end

section
/-! The host's reads (60_exceptions.md R226, 20_memory.md R70) and the platform (60_exceptions.md R223); O50 and O55. -/

namespace Sys2Proof.Machine

/-! ## The host's reads -/

/-- A command taken from the front leaves the words after it, and a read sees its effect. -/
theorem step_commandWords_read {s t : State} {h w1 w2 : Word} {rest : List Word}
    (hp : s.pendingWords = commandWords h w1 w2 ++ rest) (ht : step s = .next t) :
    t.pendingWords = rest ∧ (∀ a, s.hostReadReg a = t.hostReadReg a) ∧
      ∀ m a, s.hostReadMem m a = t.hostReadMem m a := by
  obtain ⟨v1, v2, hsplit, -⟩ := splitCommand_commandWords h w1 w2 rest
  rw [← hp] at hsplit
  exact ⟨step_pendingWords hsplit ht, fun _ => State.hostRead_of_step hsplit ht _,
    fun _ _ => State.hostRead_of_step hsplit ht _⟩

theorem State.hostReads_of_nothing_pending {s : State} (h : s.pendingWords = []) :
    (∀ a, s.hostReadReg a = some (s.readReg a)) ∧ ∀ m a, s.hostReadMem m a = some (s.readMem m a) :=
  ⟨fun _ => s.hostRead_of_nothing_pending h _, fun _ _ => s.hostRead_of_nothing_pending h _⟩

/-- A read sees the state after every one of a list of complete commands, each of which is one step. -/
theorem steps_of_commands (cs : List (Word × Word × Word)) {s : State} (hs : s.Inv)
    (hp : s.pendingWords = cs.flatMap (fun c => commandWords c.1 c.2.1 c.2.2)) :
    ∃ t, Steps cs.length s t ∧ t.pendingWords = [] ∧
      (∀ a, s.hostReadReg a = some (t.readReg a)) ∧ ∀ m a, s.hostReadMem m a = some (t.readMem m a) := by
  induction cs generalizing s with
  | nil => exact ⟨s, .refl s, hp, s.hostReads_of_nothing_pending hp⟩
  | cons c cs ih =>
    obtain ⟨u, hu, hui⟩ := step_eq_next hs
    obtain ⟨hup, hreg, hmem⟩ := step_commandWords_read (hp.trans List.flatMap_cons) hu
    obtain ⟨t, hsteps, htp, htreg, htmem⟩ := ih hui hup
    exact ⟨t, .step hu hsteps, htp, fun a => (hreg a).trans (htreg a), fun m a => (hmem m a).trans (htmem m a)⟩

/-- Settles O55. -/
theorem hostReadsSeeCompletedCommands : Obligations.HostReadsSeeCompletedCommands := by
  refine ⟨fun s => s.hostReads_of_nothing_pending,
    fun s h w1 w2 rest hp => ⟨(step_of_commandWords hp).1, fun t => step_commandWords_read hp⟩,
    fun s h w1 hop hp => ?_, fun s cs hs => steps_of_commands cs hs⟩
  have hnone : splitCommand s.pendingWords = none :=
    splitCommand_eq_none_iff.2 (.inr ⟨h, hop, hp.imp_right fun h2 => ⟨w1, h2⟩⟩)
  have hne : s.pendingWords ≠ [] := by
    rcases hp with hp | hp
    all_goals simp [hp]
  exact ⟨fun _ => State.hostRead_of_incomplete hnone hne _, fun _ _ => State.hostRead_of_incomplete hnone hne _⟩

/-! ## A platform -/

/-- A step at one index replaces the state there alone (60_exceptions.md R223). -/
theorem Platform.step_eq_some {p q : Platform} {k : Nat} (h : p.step k = some q) :
    ∃ s t, p[k]? = some s ∧ Machine.step s = .next t ∧ q = p.set k t := by
  rw [Platform.step] at h
  split at h
  · cases h
  · split at h
    · cases h
      exact ⟨_, _, ‹_›, ‹_›, rfl⟩
    · cases h
    · cases h

/-- Settles O50. -/
theorem instancesShareNothing : Obligations.InstancesShareNothing := by
  refine ⟨fun p q k h => ?_, fun p k m j hj => ?_⟩
  · obtain ⟨s, t, hs, ht, rfl⟩ := Platform.step_eq_some h
    obtain ⟨hk, -⟩ := List.getElem?_eq_some_iff.1 hs
    exact ⟨List.length_set, fun j hj => List.getElem?_set_ne hj.symm, s, t, hs, List.getElem?_set_self hk, ht⟩
  · exact List.getElem?_modify_ne _ _ hj.symm

end Sys2Proof.Machine
end
